-- ==== Sys2Proof/Word.lean ====
section
/-! DEFINITION. The word types of MLAC (spec/00_scope.md rules R8 and R10): 64-bit WideUnsigned limbs, 32-bit
ScaledInt limbs, the command word and the data words that cross the host interface. -/

namespace Sys2Proof

/-- A WideUnsigned limb: `LIMB_W` = 64 bits (R8). -/
abbrev WideLimb := BitVec 64

/-- A ScaledInt limb: `DIGIT_W` = 32 bits (R8). -/
abbrev Digit := BitVec 32

/-- A command word (R42). -/
abbrev CommandWord := BitVec 32

/-- The data operand `din` or the data result `dout` of a transaction (R41). -/
abbrev DataWord := BitVec 64

/-- A character of the decimal digit buffer, an ASCII code (R25, R35). -/
abbrev Character := BitVec 8

/-- A register field of a command word: four bits, of which only the values 0 to 7 name a register (R42, R46). -/
abbrev RegField := BitVec 4

/-- The immediate field of a command word: twelve bits, unsigned, never scaled (R42, R47). -/
abbrev Immediate := BitVec 12

end Sys2Proof
end

