-- ==== Sys2Proof/Config.lean ====
section
/-! DEFINITION. The implementation parameters of MLAC (spec/00_scope.md rules R8 and R9). All are constants of the
hardware but one: the ScaledInt capacity `S_CAP`, which the spec leaves open as an argument of the model. -/

namespace Sys2Proof

/-- The one open parameter, `S_CAP`, with the range R9 gives it. The two bounds are part of the type, so that a
core with a capacity outside the range cannot be built (spec/93_implementation_defined.md U7). -/
structure Config where
  /-- `S_CAP`: the capacity of a ScaledInt register in 32-bit limbs. -/
  sCap : Nat
  sCap_ge : 4 ≤ sCap
  sCap_le : sCap ≤ 64
deriving DecidableEq, Repr

namespace Config

/-- The default `S_CAP = 6`, the only figure the source gives (R8, decision D4). -/
def standard : Config where
  sCap := 6
  sCap_ge := by decide
  sCap_le := by decide

/-- `LIMB_W`: bits of a WideUnsigned limb. -/
abbrev limbW : Nat := 64
/-- `W_CAP`: WideUnsigned capacity in limbs. -/
abbrev wCap : Nat := 8
/-- `DIGIT_W`: bits of a ScaledInt limb. -/
abbrev digitW : Nat := 32
/-- `SCALE_BITS`: the binary point position of a ScaledInt. -/
abbrev scaleBits : Nat := 64
/-- `SCALE_LIMBS = SCALE_BITS / DIGIT_W`. -/
abbrev scaleLimbs : Nat := 2
/-- `NW`: the number of WideUnsigned registers. -/
abbrev nW : Nat := 8
/-- `NS`: the number of ScaledInt registers. -/
abbrev nS : Nat := 8
/-- `D_CAP`: the capacity of the digit buffer in characters. -/
abbrev dCap : Nat := 155

end Config

end Sys2Proof
end

