-- ==== Sys2Proof/Syntax.lean ====
section
/-! DEFINITION. The commands of MLAC: one constructor per row of spec/opcode_table.json, in the order of
spec/30_encoding.md rule R44. A constructor carries the fields its format uses (R43), as the bits of the command
word; whether they are legal is said in WellFormed.lean and checked by every meaning. The data operand `din` is not
part of the command word (R41): it is in `State`. -/

namespace Sys2Proof

inductive Instr where
  /-- `RDCFG`: read the configuration word (R129). -/
  | rdcfg
  /-- `RDFLAGS`: read the sticky flags (R130). -/
  | rdflags
  /-- `WZERO`: set a wide register to zero (R54). -/
  | wzero (rd : RegField)
  /-- `WLDL`: replace one limb of a wide register by `din` (R55). -/
  | wldl (rd : RegField) (imm : Immediate)
  /-- `WSTL`: read one limb of a wide register (R56). -/
  | wstl (ra : RegField) (imm : Immediate)
  /-- `WLEN`: read the length of a wide register (R57). -/
  | wlen (ra : RegField)
  /-- `WADDL`: add the limb `din` in place (R59). -/
  | waddl (rd : RegField)
  /-- `WMULL`: multiply by the limb `din` in place (R60). -/
  | wmull (rd : RegField)
  /-- `WADD`: add two wide registers into a distinct third (R61). -/
  | wadd (rd ra rb : RegField)
  /-- `WMUL`: multiply two wide registers into a distinct third (R62). -/
  | wmul (rd ra rb : RegField)
  /-- `WDACC`: accumulate the decimal character `din` (R65). -/
  | wdacc (rd : RegField)
  /-- `WTODEC`: render a wide register into the digit buffer (R67). -/
  | wtodec (ra : RegField)
  /-- `DLEN`: read the length of the digit buffer (R69). -/
  | dlen
  /-- `DGET`: read one character of the digit buffer (R70). -/
  | dget (imm : Immediate)
  /-- `SZERO`: set a scaled register to zero (R75). -/
  | szero (rd : RegField)
  /-- `SLDL`: replace one limb of a scaled register by `din` (R76). -/
  | sldl (rd : RegField) (imm : Immediate)
  /-- `SSTL`: read one limb of a scaled register (R77). -/
  | sstl (ra : RegField) (imm : Immediate)
  /-- `SINFO`: read `used` and `sign` (R78). -/
  | sinfo (ra : RegField)
  /-- `SMOV`: copy (R79). -/
  | smov (rd ra : RegField)
  /-- `SNEG`: negate (R80). -/
  | sneg (rd ra : RegField)
  /-- `SABS`: absolute value (R81). -/
  | sabs (rd ra : RegField)
  /-- `SCMPM`: compare magnitudes (R83). -/
  | scmpm (ra rb : RegField)
  /-- `SCMP`: compare signed values (R84). -/
  | scmp (ra rb : RegField)
  /-- `SADD`: signed add (R88). -/
  | sadd (rd ra rb : RegField)
  /-- `SSUB`: signed subtract (R89). -/
  | ssub (rd ra rb : RegField)
  /-- `SMUL`: integer multiply (Comba) (R100). -/
  | smul (rd ra rb : RegField)
  /-- `SMULS`: Q64 multiply (Comba, then two limbs right) (R101). -/
  | smuls (rd ra rb : RegField)
  /-- `SSHLD`: shift left by whole limbs, in place (R103). -/
  | sshld (rd : RegField) (imm : Immediate)
  /-- `SSHRD`: shift right by whole limbs, in place (R104). -/
  | sshrd (rd : RegField) (imm : Immediate)
  /-- `SMULD`: multiply by the limb `din` (R102). -/
  | smuld (rd ra : RegField)
  /-- `SADDD`: add the limb `din` (R90). -/
  | saddd (rd ra : RegField)
  /-- `SDIVP`: divide by a power of two (R107). -/
  | sdivp (rd ra : RegField) (imm : Immediate)
  /-- `SDIVPR`: divide by a power of two; `rd` the quotient, `rb` the remainder (R108). -/
  | sdivpr (rd ra rb : RegField) (imm : Immediate)
  /-- `SMODP`: modulo a power of two (R106). -/
  | smodp (rd ra : RegField) (imm : Immediate)
  /-- `SMULP`: multiply by a power of two (R109). -/
  | smulp (rd ra : RegField) (imm : Immediate)
  /-- `SDACC`: accumulate the decimal character `din` (R111). -/
  | sdacc (rd : RegField)
  /-- `SFROMD`: load from the binary64 pattern `din` (R121). -/
  | sfromd (rd : RegField)
  /-- `SFROMF`: load from the binary32 pattern `din` (R122). -/
  | sfromf (rd : RegField)
  /-- `STOD`: read as a binary64 pattern (R125). -/
  | stod (ra : RegField)
  /-- `STOF`: read as a binary32 pattern (R126). -/
  | stof (ra : RegField)
deriving DecidableEq, Repr

end Sys2Proof
end

