-- ==== Sys2Proof/WellFormed.lean ====
section
/-! DEFINITION. Which commands are legal (spec/30_encoding.md rules R46 to R48 and the aliasing restrictions of R61,
R62 and R108): the part of the decode step of R53 that the mask of a command's format does not already check. A
command that is not legal ends `ILLEGAL_COMMAND` (R136); every meaning makes the check itself, and the statements of
this package compare it with this definition. -/

namespace Sys2Proof

/-- A used register field names a register: it is below the size of its file, 8 for both files (R46). -/
def namesRegister (r : RegField) : Bool := r.toNat < Config.nW

/-- The register fields, the immediate and the aliasing of a command are legal in a core with parameter `c`: R46 for
the registers, R47 for the limb and character indices, R61, R62 and R108 for the aliasing. The limb counts and bit
counts of the shifts are legal at every value (R47). -/
def Instr.wellFormed (c : Config) : Instr → Bool
  | .rdcfg => true
  | .rdflags => true
  | .wzero rd => namesRegister rd
  | .wldl rd imm => namesRegister rd && imm.toNat < Config.wCap
  | .wstl ra imm => namesRegister ra && imm.toNat < Config.wCap
  | .wlen ra => namesRegister ra
  | .waddl rd => namesRegister rd
  | .wmull rd => namesRegister rd
  | .wadd rd ra rb => namesRegister rd && namesRegister ra && namesRegister rb && rd != ra && rd != rb
  | .wmul rd ra rb => namesRegister rd && namesRegister ra && namesRegister rb && rd != ra && rd != rb
  | .wdacc rd => namesRegister rd
  | .wtodec ra => namesRegister ra
  | .dlen => true
  | .dget imm => imm.toNat < Config.dCap
  | .szero rd => namesRegister rd
  | .sldl rd imm => namesRegister rd && imm.toNat < c.sCap
  | .sstl ra imm => namesRegister ra && imm.toNat < c.sCap
  | .sinfo ra => namesRegister ra
  | .smov rd ra => namesRegister rd && namesRegister ra
  | .sneg rd ra => namesRegister rd && namesRegister ra
  | .sabs rd ra => namesRegister rd && namesRegister ra
  | .scmpm ra rb => namesRegister ra && namesRegister rb
  | .scmp ra rb => namesRegister ra && namesRegister rb
  | .sadd rd ra rb => namesRegister rd && namesRegister ra && namesRegister rb
  | .ssub rd ra rb => namesRegister rd && namesRegister ra && namesRegister rb
  | .smul rd ra rb => namesRegister rd && namesRegister ra && namesRegister rb
  | .smuls rd ra rb => namesRegister rd && namesRegister ra && namesRegister rb
  | .sshld rd _ => namesRegister rd
  | .sshrd rd _ => namesRegister rd
  | .smuld rd ra => namesRegister rd && namesRegister ra
  | .saddd rd ra => namesRegister rd && namesRegister ra
  | .sdivp rd ra _ => namesRegister rd && namesRegister ra
  | .sdivpr rd ra rb _ => namesRegister rd && namesRegister ra && namesRegister rb && rd != rb
  | .smodp rd ra _ => namesRegister rd && namesRegister ra
  | .smulp rd ra _ => namesRegister rd && namesRegister ra
  | .sdacc rd => namesRegister rd
  | .sfromd rd => namesRegister rd
  | .sfromf rd => namesRegister rd
  | .stod ra => namesRegister ra
  | .stof ra => namesRegister ra

/-- The data operand is not too wide for the command: R48 asks `din < 2^32` of the commands that take a 32-bit limb
or a binary32 pattern, and nothing of any other. -/
def Instr.dinFits (din : DataWord) : Instr → Bool
  | .rdcfg => true
  | .rdflags => true
  | .wzero _ => true
  | .wldl _ _ => true
  | .wstl _ _ => true
  | .wlen _ => true
  | .waddl _ => true
  | .wmull _ => true
  | .wadd _ _ _ => true
  | .wmul _ _ _ => true
  | .wdacc _ => true
  | .wtodec _ => true
  | .dlen => true
  | .dget _ => true
  | .szero _ => true
  | .sldl _ _ => din.toNat < 2 ^ Config.digitW
  | .sstl _ _ => true
  | .sinfo _ => true
  | .smov _ _ => true
  | .sneg _ _ => true
  | .sabs _ _ => true
  | .scmpm _ _ => true
  | .scmp _ _ => true
  | .sadd _ _ _ => true
  | .ssub _ _ _ => true
  | .smul _ _ _ => true
  | .smuls _ _ _ => true
  | .sshld _ _ => true
  | .sshrd _ _ => true
  | .smuld _ _ => din.toNat < 2 ^ Config.digitW
  | .saddd _ _ => din.toNat < 2 ^ Config.digitW
  | .sdivp _ _ _ => true
  | .sdivpr _ _ _ _ => true
  | .smodp _ _ _ => true
  | .smulp _ _ _ => true
  | .sdacc _ => true
  | .sfromd _ => true
  | .sfromf _ => din.toNat < 2 ^ Config.digitW
  | .stod _ => true
  | .stof _ => true

/-- The pair of command and data operand passes the decode step of R53: it is a command of the core (R136). -/
def Instr.legal (c : Config) (din : DataWord) (i : Instr) : Bool := i.wellFormed c && i.dinFits din

end Sys2Proof
end

