-- ==== Sys2Proof/Decode.lean ====
section
/-! DEFINITION. The command word: its fields (spec/30_encoding.md rule R42), the eleven formats and their masks (R43),
the opcode map (R44), the decoder, total over all 2^32 words and rejecting by name (R45, R49), and the encoder. The
decoder reads the word alone (R50); the checks of R46 to R48 and of aliasing, which give the same status with the
same effect, are made by every meaning (notes/assumptions/4.md). -/

namespace Sys2Proof

/-- Bits 31:24, `op`. -/
def opOf (cmd : CommandWord) : BitVec 8 := cmd.extractLsb' 24 8
/-- Bits 23:20, `rd`. -/
def rdOf (cmd : CommandWord) : RegField := cmd.extractLsb' 20 4
/-- Bits 19:16, `ra`. -/
def raOf (cmd : CommandWord) : RegField := cmd.extractLsb' 16 4
/-- Bits 15:12, `rb`. -/
def rbOf (cmd : CommandWord) : RegField := cmd.extractLsb' 12 4
/-- Bits 11:0, `imm`. -/
def immOf (cmd : CommandWord) : Immediate := cmd.extractLsb' 0 12

/-- The word with the given fields: `op·2^24 + rd·2^20 + ra·2^16 + rb·2^12 + imm` (R42), written as the
concatenation of the fields. -/
def pack (op : BitVec 8) (rd ra rb : RegField) (imm : Immediate) : CommandWord :=
  ((((op ++ rd) ++ ra) ++ rb) ++ imm)

/-- Why a word is no command word: both are `ILLEGAL_COMMAND` to the host (R45, R49). -/
inductive DecodeError where
  /-- The opcode is reserved (R49). -/
  | reservedOpcode (op : BitVec 8)
  /-- The opcode is in the map, but a bit of a field its format does not use is set (R45). -/
  | unusedFieldNonzero (op : BitVec 8)
deriving DecidableEq, Repr

/-- The eleven formats; the letters are the fields used (R43). -/
inductive Format where
  | n
  | d
  | a
  | i
  | di
  | ai
  | da
  | ab
  | dab
  | dai
  | dabi
deriving DecidableEq, Repr

/-- The mask of a format: a 1 in every bit that must match, the opcode bits and every bit of every unused field
(R43). -/
def Format.mask : Format → CommandWord
  | .n => 0xFFFFFFFF#32
  | .d => 0xFF0FFFFF#32
  | .a => 0xFFF0FFFF#32
  | .i => 0xFFFFF000#32
  | .di => 0xFF0FF000#32
  | .ai => 0xFFF0F000#32
  | .da => 0xFF00FFFF#32
  | .ab => 0xFFF00FFF#32
  | .dab => 0xFF000FFF#32
  | .dai => 0xFF00F000#32
  | .dabi => 0xFF000000#32

/-- A row of the opcode map (R44): mnemonic, opcode, format. -/
structure OpcodeRow where
  mnemonic : String
  op : BitVec 8
  format : Format
deriving DecidableEq, Repr

/-- What the masked word must equal for the row to be selected: `op·2^24` (R43). -/
def OpcodeRow.pattern (r : OpcodeRow) : CommandWord := pack r.op 0 0 0 0

/-- The word selects the command of the row: `cmd AND mask = op·2^24` (R43). -/
def OpcodeRow.selects (r : OpcodeRow) (cmd : CommandWord) : Bool := cmd &&& r.format.mask == r.pattern

/-- The opcode map of R44, the system rows and the WideUnsigned rows. -/
def opcodeMapWide : List OpcodeRow := [
  ⟨"RDCFG", 0x01#8, .n⟩,
  ⟨"RDFLAGS", 0x02#8, .n⟩,
  ⟨"WZERO", 0x10#8, .d⟩,
  ⟨"WLDL", 0x11#8, .di⟩,
  ⟨"WSTL", 0x12#8, .ai⟩,
  ⟨"WLEN", 0x13#8, .a⟩,
  ⟨"WADDL", 0x14#8, .d⟩,
  ⟨"WMULL", 0x15#8, .d⟩,
  ⟨"WADD", 0x16#8, .dab⟩,
  ⟨"WMUL", 0x17#8, .dab⟩,
  ⟨"WDACC", 0x18#8, .d⟩,
  ⟨"WTODEC", 0x19#8, .a⟩,
  ⟨"DLEN", 0x1A#8, .n⟩,
  ⟨"DGET", 0x1B#8, .i⟩]

/-- The opcode map of R44, the ScaledInt rows and the float codec rows. -/
def opcodeMapScaled : List OpcodeRow := [
  ⟨"SZERO", 0x20#8, .d⟩,
  ⟨"SLDL", 0x21#8, .di⟩,
  ⟨"SSTL", 0x22#8, .ai⟩,
  ⟨"SINFO", 0x23#8, .a⟩,
  ⟨"SMOV", 0x24#8, .da⟩,
  ⟨"SNEG", 0x25#8, .da⟩,
  ⟨"SABS", 0x26#8, .da⟩,
  ⟨"SCMPM", 0x27#8, .ab⟩,
  ⟨"SCMP", 0x28#8, .ab⟩,
  ⟨"SADD", 0x29#8, .dab⟩,
  ⟨"SSUB", 0x2A#8, .dab⟩,
  ⟨"SMUL", 0x2B#8, .dab⟩,
  ⟨"SMULS", 0x2C#8, .dab⟩,
  ⟨"SSHLD", 0x2D#8, .di⟩,
  ⟨"SSHRD", 0x2E#8, .di⟩,
  ⟨"SMULD", 0x2F#8, .da⟩,
  ⟨"SADDD", 0x30#8, .da⟩,
  ⟨"SDIVP", 0x31#8, .dai⟩,
  ⟨"SDIVPR", 0x32#8, .dabi⟩,
  ⟨"SMODP", 0x33#8, .dai⟩,
  ⟨"SMULP", 0x34#8, .dai⟩,
  ⟨"SDACC", 0x35#8, .d⟩,
  ⟨"SFROMD", 0x40#8, .d⟩,
  ⟨"SFROMF", 0x41#8, .d⟩,
  ⟨"STOD", 0x42#8, .a⟩,
  ⟨"STOF", 0x43#8, .a⟩]

/-- The opcode map of R44: 40 rows. -/
def opcodeMap : List OpcodeRow := opcodeMapWide ++ opcodeMapScaled

/-- Format `N`: the fields rd, ra, rb, imm must be zero. -/
def decodeN (cmd : CommandWord) (make : Instr) : Except DecodeError Instr :=
  if rdOf cmd == 0 && raOf cmd == 0 && rbOf cmd == 0 && immOf cmd == 0 then .ok make else .error (.unusedFieldNonzero (opOf cmd))

/-- Format `D`: the fields ra, rb, imm must be zero. -/
def decodeD (cmd : CommandWord) (make : RegField → Instr) : Except DecodeError Instr :=
  if raOf cmd == 0 && rbOf cmd == 0 && immOf cmd == 0 then .ok (make (rdOf cmd)) else .error (.unusedFieldNonzero (opOf cmd))

/-- Format `A`: the fields rd, rb, imm must be zero. -/
def decodeA (cmd : CommandWord) (make : RegField → Instr) : Except DecodeError Instr :=
  if rdOf cmd == 0 && rbOf cmd == 0 && immOf cmd == 0 then .ok (make (raOf cmd)) else .error (.unusedFieldNonzero (opOf cmd))

/-- Format `I`: the fields rd, ra, rb must be zero. -/
def decodeI (cmd : CommandWord) (make : Immediate → Instr) : Except DecodeError Instr :=
  if rdOf cmd == 0 && raOf cmd == 0 && rbOf cmd == 0 then .ok (make (immOf cmd)) else .error (.unusedFieldNonzero (opOf cmd))

/-- Format `DI`: the fields ra, rb must be zero. -/
def decodeDI (cmd : CommandWord) (make : RegField → Immediate → Instr) : Except DecodeError Instr :=
  if raOf cmd == 0 && rbOf cmd == 0 then .ok (make (rdOf cmd) (immOf cmd)) else .error (.unusedFieldNonzero (opOf cmd))

/-- Format `AI`: the fields rd, rb must be zero. -/
def decodeAI (cmd : CommandWord) (make : RegField → Immediate → Instr) : Except DecodeError Instr :=
  if rdOf cmd == 0 && rbOf cmd == 0 then .ok (make (raOf cmd) (immOf cmd)) else .error (.unusedFieldNonzero (opOf cmd))

/-- Format `DA`: the fields rb, imm must be zero. -/
def decodeDA (cmd : CommandWord) (make : RegField → RegField → Instr) : Except DecodeError Instr :=
  if rbOf cmd == 0 && immOf cmd == 0 then .ok (make (rdOf cmd) (raOf cmd)) else .error (.unusedFieldNonzero (opOf cmd))

/-- Format `AB`: the fields rd, imm must be zero. -/
def decodeAB (cmd : CommandWord) (make : RegField → RegField → Instr) : Except DecodeError Instr :=
  if rdOf cmd == 0 && immOf cmd == 0 then .ok (make (raOf cmd) (rbOf cmd)) else .error (.unusedFieldNonzero (opOf cmd))

/-- Format `DAB`: the field imm must be zero. -/
def decodeDAB (cmd : CommandWord) (make : RegField → RegField → RegField → Instr) : Except DecodeError Instr :=
  if immOf cmd == 0 then .ok (make (rdOf cmd) (raOf cmd) (rbOf cmd)) else .error (.unusedFieldNonzero (opOf cmd))

/-- Format `DAI`: the field rb must be zero. -/
def decodeDAI (cmd : CommandWord) (make : RegField → RegField → Immediate → Instr) : Except DecodeError Instr :=
  if rbOf cmd == 0 then .ok (make (rdOf cmd) (raOf cmd) (immOf cmd)) else .error (.unusedFieldNonzero (opOf cmd))

/-- Format `DABI`: every field is used. -/
def decodeDABI (cmd : CommandWord) (make : RegField → RegField → RegField → Immediate → Instr) : Except DecodeError Instr :=
  .ok (make (rdOf cmd) (raOf cmd) (rbOf cmd) (immOf cmd))

/-- The decoder: the command a word selects, or the reason it selects none (R43, R45, R49). -/
def decode (cmd : CommandWord) : Except DecodeError Instr :=
  match opOf cmd with
  | 0x01#8 => decodeN cmd .rdcfg
  | 0x02#8 => decodeN cmd .rdflags
  | 0x10#8 => decodeD cmd .wzero
  | 0x11#8 => decodeDI cmd .wldl
  | 0x12#8 => decodeAI cmd .wstl
  | 0x13#8 => decodeA cmd .wlen
  | 0x14#8 => decodeD cmd .waddl
  | 0x15#8 => decodeD cmd .wmull
  | 0x16#8 => decodeDAB cmd .wadd
  | 0x17#8 => decodeDAB cmd .wmul
  | 0x18#8 => decodeD cmd .wdacc
  | 0x19#8 => decodeA cmd .wtodec
  | 0x1A#8 => decodeN cmd .dlen
  | 0x1B#8 => decodeI cmd .dget
  | 0x20#8 => decodeD cmd .szero
  | 0x21#8 => decodeDI cmd .sldl
  | 0x22#8 => decodeAI cmd .sstl
  | 0x23#8 => decodeA cmd .sinfo
  | 0x24#8 => decodeDA cmd .smov
  | 0x25#8 => decodeDA cmd .sneg
  | 0x26#8 => decodeDA cmd .sabs
  | 0x27#8 => decodeAB cmd .scmpm
  | 0x28#8 => decodeAB cmd .scmp
  | 0x29#8 => decodeDAB cmd .sadd
  | 0x2A#8 => decodeDAB cmd .ssub
  | 0x2B#8 => decodeDAB cmd .smul
  | 0x2C#8 => decodeDAB cmd .smuls
  | 0x2D#8 => decodeDI cmd .sshld
  | 0x2E#8 => decodeDI cmd .sshrd
  | 0x2F#8 => decodeDA cmd .smuld
  | 0x30#8 => decodeDA cmd .saddd
  | 0x31#8 => decodeDAI cmd .sdivp
  | 0x32#8 => decodeDABI cmd .sdivpr
  | 0x33#8 => decodeDAI cmd .smodp
  | 0x34#8 => decodeDAI cmd .smulp
  | 0x35#8 => decodeD cmd .sdacc
  | 0x40#8 => decodeD cmd .sfromd
  | 0x41#8 => decodeD cmd .sfromf
  | 0x42#8 => decodeA cmd .stod
  | 0x43#8 => decodeA cmd .stof
  | op => .error (.reservedOpcode op)

/-- The opcode of a command (R44). -/
def Instr.opcode : Instr → BitVec 8
  | .rdcfg => 0x01#8
  | .rdflags => 0x02#8
  | .wzero _ => 0x10#8
  | .wldl _ _ => 0x11#8
  | .wstl _ _ => 0x12#8
  | .wlen _ => 0x13#8
  | .waddl _ => 0x14#8
  | .wmull _ => 0x15#8
  | .wadd _ _ _ => 0x16#8
  | .wmul _ _ _ => 0x17#8
  | .wdacc _ => 0x18#8
  | .wtodec _ => 0x19#8
  | .dlen => 0x1A#8
  | .dget _ => 0x1B#8
  | .szero _ => 0x20#8
  | .sldl _ _ => 0x21#8
  | .sstl _ _ => 0x22#8
  | .sinfo _ => 0x23#8
  | .smov _ _ => 0x24#8
  | .sneg _ _ => 0x25#8
  | .sabs _ _ => 0x26#8
  | .scmpm _ _ => 0x27#8
  | .scmp _ _ => 0x28#8
  | .sadd _ _ _ => 0x29#8
  | .ssub _ _ _ => 0x2A#8
  | .smul _ _ _ => 0x2B#8
  | .smuls _ _ _ => 0x2C#8
  | .sshld _ _ => 0x2D#8
  | .sshrd _ _ => 0x2E#8
  | .smuld _ _ => 0x2F#8
  | .saddd _ _ => 0x30#8
  | .sdivp _ _ _ => 0x31#8
  | .sdivpr _ _ _ _ => 0x32#8
  | .smodp _ _ _ => 0x33#8
  | .smulp _ _ _ => 0x34#8
  | .sdacc _ => 0x35#8
  | .sfromd _ => 0x40#8
  | .sfromf _ => 0x41#8
  | .stod _ => 0x42#8
  | .stof _ => 0x43#8

/-- The encoder: the word of a command, its unused fields zero (R42 to R45). -/
def encode : Instr → CommandWord
  | .rdcfg => pack 0x01#8 0#4 0#4 0#4 0#12
  | .rdflags => pack 0x02#8 0#4 0#4 0#4 0#12
  | .wzero rd => pack 0x10#8 rd 0#4 0#4 0#12
  | .wldl rd imm => pack 0x11#8 rd 0#4 0#4 imm
  | .wstl ra imm => pack 0x12#8 0#4 ra 0#4 imm
  | .wlen ra => pack 0x13#8 0#4 ra 0#4 0#12
  | .waddl rd => pack 0x14#8 rd 0#4 0#4 0#12
  | .wmull rd => pack 0x15#8 rd 0#4 0#4 0#12
  | .wadd rd ra rb => pack 0x16#8 rd ra rb 0#12
  | .wmul rd ra rb => pack 0x17#8 rd ra rb 0#12
  | .wdacc rd => pack 0x18#8 rd 0#4 0#4 0#12
  | .wtodec ra => pack 0x19#8 0#4 ra 0#4 0#12
  | .dlen => pack 0x1A#8 0#4 0#4 0#4 0#12
  | .dget imm => pack 0x1B#8 0#4 0#4 0#4 imm
  | .szero rd => pack 0x20#8 rd 0#4 0#4 0#12
  | .sldl rd imm => pack 0x21#8 rd 0#4 0#4 imm
  | .sstl ra imm => pack 0x22#8 0#4 ra 0#4 imm
  | .sinfo ra => pack 0x23#8 0#4 ra 0#4 0#12
  | .smov rd ra => pack 0x24#8 rd ra 0#4 0#12
  | .sneg rd ra => pack 0x25#8 rd ra 0#4 0#12
  | .sabs rd ra => pack 0x26#8 rd ra 0#4 0#12
  | .scmpm ra rb => pack 0x27#8 0#4 ra rb 0#12
  | .scmp ra rb => pack 0x28#8 0#4 ra rb 0#12
  | .sadd rd ra rb => pack 0x29#8 rd ra rb 0#12
  | .ssub rd ra rb => pack 0x2A#8 rd ra rb 0#12
  | .smul rd ra rb => pack 0x2B#8 rd ra rb 0#12
  | .smuls rd ra rb => pack 0x2C#8 rd ra rb 0#12
  | .sshld rd imm => pack 0x2D#8 rd 0#4 0#4 imm
  | .sshrd rd imm => pack 0x2E#8 rd 0#4 0#4 imm
  | .smuld rd ra => pack 0x2F#8 rd ra 0#4 0#12
  | .saddd rd ra => pack 0x30#8 rd ra 0#4 0#12
  | .sdivp rd ra imm => pack 0x31#8 rd ra 0#4 imm
  | .sdivpr rd ra rb imm => pack 0x32#8 rd ra rb imm
  | .smodp rd ra imm => pack 0x33#8 rd ra 0#4 imm
  | .smulp rd ra imm => pack 0x34#8 rd ra 0#4 imm
  | .sdacc rd => pack 0x35#8 rd 0#4 0#4 0#12
  | .sfromd rd => pack 0x40#8 rd 0#4 0#4 0#12
  | .sfromf rd => pack 0x41#8 rd 0#4 0#4 0#12
  | .stod ra => pack 0x42#8 0#4 ra 0#4 0#12
  | .stof ra => pack 0x43#8 0#4 ra 0#4 0#12

/-- The command the decoder reads from an instruction whose low `nbits` bits are `w` and whose other bits are zero.
A command word is one word of 32 bits (R42), so it has no order of words or bytes. -/
def decodeTableWord (nbits w : Nat) : Option Instr :=
  match decode (BitVec.ofNat 32 (w % 2 ^ nbits)) with
  | .ok i => some i
  | .error _ => none

end Sys2Proof
end

