-- ==== Sys2Proof/Machine/State.lean ====
section
/-! DEFINITION. The state of MLAC (spec/10_state.md) as plain data, its reset value (R30), and the types its
transactions are made of. The registers are held as the records the spec describes, limbs least significant first,
and hold nothing the spec calls don't-care: no limb at or above `length` or `used` (R17, R23), no content for a
register whose valid bit is 0 (R24, U1 of spec/93_implementation_defined.md), no character at or above `dlen` (U3). -/

namespace Sys2Proof.Machine

/-- The sign bit of a ScaledInt: `Positive` is 0, `Negative` is 1 (R19). -/
inductive Sign where
  | positive
  | negative
deriving DecidableEq, Repr

/-- A valid ScaledInt register (R19): its significant limbs, least significant first, and its sign. `used` is the
number of limbs. -/
structure ScaledValue where
  limbs : List Digit
  sign : Sign
deriving DecidableEq, Repr

/-- The five fault classes (spec/60_exceptions.md rule R132). A fault is a status the host is given, not a stop of the
machine (R131, R141). -/
inductive FaultClass where
  | capacityOverflow
  | malformedInput
  | domainError
  | illegalCommand
  | invalidOperand
deriving DecidableEq, Repr

/-- The status of a response: `OK`, or the fault class the command ended with (R132). Codes 6 to 15 are never produced
(U5), so they have no constructor. -/
inductive Status where
  | ok
  | raised (f : FaultClass)
deriving DecidableEq, Repr

/-- The response to one command: `(status, dout)` (R28, R41). -/
structure Response where
  status : Status
  dout : DataWord
deriving DecidableEq, Repr

/-- What the host can do to the core: issue one command with its data operand, or assert reset (R13, R41, R146). -/
inductive HostAction where
  | issue (cmd : CommandWord) (din : DataWord)
  | reset
deriving DecidableEq, Repr

/-- A register a command writes: what a fault can invalidate (R137). -/
inductive Dest where
  | wide (r : RegField)
  | scaled (r : RegField)
deriving DecidableEq, Repr

/-- The state of the core, and of its host interface. -/
structure State where
  /-- The parameter `S_CAP` (R8, R9): a constant of the core, written by nothing. `CFG` (R27) is computed from it. -/
  config : Config
  /-- `W[0..7]` (R15): the limbs below `length`, or `none` where the valid bit `v` is 0 (R24). -/
  wide : Vector (Option (List WideLimb)) 8
  /-- `S[0..7]` (R19): the value, or `none` where the valid bit `v` is 0 (R24). -/
  scaled : Vector (Option ScaledValue) 8
  /-- `D` (R25): the characters below `dlen`, the most significant first; `dlen` is their number. -/
  digits : List Character
  /-- `FLAGS` (R26): `CO`, `MI`, `DE`, `IL`, `IV` in bits 0 to 4. -/
  flags : BitVec 5
  /-- The MODEL's field for the host (R13, R29): what it will do, the next action first. -/
  host : List HostAction
  /-- The MODEL's field for the transaction under way (R41): the data operand of the command being executed. -/
  din : DataWord
  /-- The MODEL's field for the output of the last step (R28): its response, or `none` if the last step ran no
  command. No meaning reads it. -/
  response : Option Response
deriving DecidableEq, Repr

/-- Reasons for the machine to stop with a fault. There is none: the spec gives every command word and every data
operand an effect (U6), every command terminates and none can hang (R153), and what the spec calls a fault is a
status, after which the core takes the next command (R131, R141). -/
inductive Fault : Type
deriving DecidableEq, Repr

/-- Reasons for the model to refuse an instruction. -/
inductive Refusal where
  /-- The instruction has no meaning in this model: raised by an arm of `exec` for an instruction not yet modelled.
  No arm raises it. Safe: the model stops where the hardware goes on. -/
  | notModelled (mnemonic : String)
deriving DecidableEq, Repr

/-- The three outcomes of a step of this machine. -/
abbrev Result := Host.Outcome State Fault Refusal

/-- The state after reset of a core with the given parameter (R30, R146): every register canonical zero and valid,
`D.dlen = 0`, `FLAGS = 0`. -/
def State.resetWith (c : Config) : State where
  config := c
  wide := Vector.replicate 8 (some [0])
  scaled := Vector.replicate 8 (some ⟨[], .positive⟩)
  digits := []
  flags := 0
  host := []
  din := 0
  response := none

/-- The state after reset of the core with the default `S_CAP = 6` (R8, R30). -/
def State.reset : State := State.resetWith Config.standard

end Sys2Proof.Machine
end

