-- ==== Sys2Proof/Machine/Limbs.lean ====
section
/-! DEFINITION. Limb arrays, least significant limb first (spec/20_memory.md rule R32): the number an array stands for,
the array of a number, and the canonical forms every register write makes (spec/10_state.md rules R18 and R22,
spec/42_scaled_basic.md rule R74). -/

namespace Sys2Proof.Machine

/-- The natural number a limb array stands for: limb `k` has weight `2^(n·k)` (R16, R20). -/
def limbsVal {n : Nat} : List (BitVec n) → Nat
  | [] => 0
  | x :: xs => x.toNat + 2 ^ n * limbsVal xs

/-- The low `count` limbs of a number: limb `k` is `floor(v / 2^(n·k)) mod 2^n` (R18, R22). -/
def limbsOfNat (n : Nat) : (count : Nat) → (v : Nat) → List (BitVec n)
  | 0, _ => []
  | count + 1, v => BitVec.ofNat n v :: limbsOfNat n count (v / 2 ^ n)

/-- Removes the zero limbs at the high end: the loop of `Clamp` (R74). -/
def dropHighZeros {n : Nat} : List (BitVec n) → List (BitVec n)
  | [] => []
  | x :: xs =>
    match dropHighZeros xs with
    | [] => if x = 0 then [] else [x]
    | y :: ys => x :: y :: ys

/-- The canonical form of a WideUnsigned: no zero limb at the high end, but at least one limb (R16). -/
def canonicalWide (limbs : List WideLimb) : List WideLimb :=
  match dropHighZeros limbs with
  | [] => [0]
  | y :: ys => y :: ys

/-- `Clamp`: no zero limb at the high end, and the sign of zero is `Positive` (R74). -/
def clamp (limbs : List Digit) (sign : Sign) : ScaledValue :=
  match dropHighZeros limbs with
  | [] => ⟨[], .positive⟩
  | y :: ys => ⟨y :: ys, sign⟩

/-- Limb `k` of an array; a limb at or above the length reads as 0 (R17, R23). -/
def limbAt {n : Nat} (limbs : List (BitVec n)) (k : Nat) : BitVec n := limbs.getD k 0

/-- The WideUnsigned record of a number below `2^512` (R18). -/
def wideOfNat (v : Nat) : List WideLimb := canonicalWide (limbsOfNat 64 Config.wCap v)

/-- The ScaledInt record of a magnitude below `2^(32·S_CAP)` and a sign (R22). -/
def scaledOfNat (c : Config) (m : Nat) (sign : Sign) : ScaledValue := clamp (limbsOfNat 32 c.sCap m) sign

/-- `wval` of a WideUnsigned record (R16). -/
def wval (limbs : List WideLimb) : Nat := limbsVal limbs

/-- `mag` of a ScaledInt record (R20). -/
def ScaledValue.mag (a : ScaledValue) : Nat := limbsVal a.limbs

/-- The opposite sign. -/
def Sign.flip : Sign → Sign
  | .positive => .negative
  | .negative => .positive

/-- The sign as a bit: `Positive = 0`, `Negative = 1` (R19). -/
def Sign.bit : Sign → Nat
  | .positive => 0
  | .negative => 1

/-- The sign a sign bit stands for (R19). -/
def Sign.ofBit (negative : Bool) : Sign := if negative then .negative else .positive

/-- The sign of a product: `Negative` exactly when the signs differ (R97). -/
def Sign.product (a b : Sign) : Sign := if a = b then .positive else .negative

end Sys2Proof.Machine
end

