-- ==== Sys2Proof/Machine/FloatArith.lean ====
section
/-! DEFINITION. The float bit codec (spec/47_float_codec.md): field extraction and placement in Q64 (rules R115 to R120),
the window and its rounding (rules R123 and R124). The core has no floating-point arithmetic: patterns are taken apart
and put together as integers. -/

namespace Sys2Proof.Machine

/-- An IEEE-754 format (R115): the widths of its mantissa and exponent fields and its bias. The sign is the bit above
the exponent. -/
structure FloatFormat where
  mantissaBits : Nat
  exponentBits : Nat
  bias : Nat
deriving DecidableEq, Repr

/-- binary64: sign bit 63, exponent bits 62:52, mantissa bits 51:0, bias 1023 (R115). -/
def binary64 : FloatFormat := ⟨52, 11, 1023⟩

/-- binary32: sign bit 31, exponent bits 30:23, mantissa bits 22:0, bias 127 (R115). -/
def binary32 : FloatFormat := ⟨23, 8, 127⟩

/-- The sign bit of a pattern (R116). -/
def FloatFormat.signOf (f : FloatFormat) (b : DataWord) : Sign :=
  Sign.ofBit (b.getLsbD (f.mantissaBits + f.exponentBits))

/-- The exponent field `E` of a pattern (R116). -/
def FloatFormat.exponentOf (f : FloatFormat) (b : DataWord) : Nat := b.toNat / 2 ^ f.mantissaBits % 2 ^ f.exponentBits

/-- The mantissa field `F` of a pattern (R116). -/
def FloatFormat.mantissaOf (f : FloatFormat) (b : DataWord) : Nat := b.toNat % 2 ^ f.mantissaBits

/-- The significand: the implicit bit is added whatever `E` is (R116). -/
def FloatFormat.significandOf (f : FloatFormat) (b : DataWord) : Nat := 2 ^ f.mantissaBits + f.mantissaOf b

/-- The exponent `e = E − bias` (R116). -/
def FloatFormat.unbiasedOf (f : FloatFormat) (b : DataWord) : Int := (f.exponentOf b : Int) - f.bias

/-- `total_shift = e + (scale_bits − mantissa_bits)` (R117). -/
def FloatFormat.shiftOf (f : FloatFormat) (b : DataWord) : Int :=
  f.unbiasedOf b + ((Config.scaleBits : Int) - f.mantissaBits)

/-- The pattern is out of the domain: its exponent field is all ones (R120), or its highest bit would lie beyond the
capacity, `e + 64 ≥ 32·S_CAP` (R119). -/
def FloatFormat.outOfDomain (f : FloatFormat) (cap : Nat) (b : DataWord) : Bool :=
  f.exponentOf b == 2 ^ f.exponentBits - 1 || decide ((32 * cap : Int) ≤ f.unbiasedOf b + 64)

/-- The 32-bit slice of the shifted significand that falls on limb `k` (R118). -/
def significandSlice (sig : Nat) (ts : Int) (k : Nat) : Digit :=
  let o := ts - 32 * (k : Int)
  if 0 ≤ o then BitVec.ofNat 32 (sig * 2 ^ o.toNat) else BitVec.ofNat 32 (sig / 2 ^ (-o).toNat)

/-- The `S_CAP` limbs of the magnitude of a pattern (R118). -/
def FloatFormat.limbsOf (f : FloatFormat) (cap : Nat) (b : DataWord) : List Digit :=
  (List.range cap).map (significandSlice (f.significandOf b) (f.shiftOf b))

/-- The window value of a magnitude: its limbs 0, 1 and 2 with the weights `1`, `2^32`, `2^64` (R123). -/
def windowOf (limbs : List Digit) : Nat :=
  (limbAt limbs 0).toNat + (limbAt limbs 1).toNat * 2 ^ 32 + (limbAt limbs 2).toNat * 2 ^ 64

/-- The number of bits of a natural number, 0 for 0 (R11). -/
def bitlen (n : Nat) : Nat := if n = 0 then 0 else 1 + Nat.log2 n

/-- `Round(w, MB, bias) = (E, F)` for a window value `w > 0`: one rounding to nearest, ties to even (R124). -/
def FloatFormat.round (f : FloatFormat) (w : Nat) : Nat × Nat :=
  let h := bitlen w - 1
  let e : Int := (h : Int) - 64
  let field (q : Nat) (e : Int) : Nat × Nat := ((e + f.bias).toNat, q - 2 ^ f.mantissaBits)
  if h ≤ f.mantissaBits then field (w * 2 ^ (f.mantissaBits - h)) e
  else
    let q := w / 2 ^ (h - f.mantissaBits)
    let rem := w % 2 ^ (h - f.mantissaBits)
    let half := 2 ^ (h - f.mantissaBits - 1)
    let q' := if half < rem ∨ (rem = half ∧ q % 2 = 1) then q + 1 else q
    if q' = 2 ^ (f.mantissaBits + 1) then field (2 ^ f.mantissaBits) (e + 1) else field q' e

/-- The pattern with a sign, an exponent field and a mantissa field (R125, R126). -/
def FloatFormat.assemble (f : FloatFormat) (sign : Sign) (exponent mantissa : Nat) : DataWord :=
  BitVec.ofNat 64 (sign.bit * 2 ^ (f.mantissaBits + f.exponentBits) + exponent * 2 ^ f.mantissaBits + mantissa)

/-- The pattern a ScaledInt reads as: its window rounded, and its sign; a zero window gives a zero with the register's
sign (R125, R126). -/
def FloatFormat.patternOf (f : FloatFormat) (a : ScaledValue) : DataWord :=
  let w := windowOf a.limbs
  if w = 0 then f.assemble a.sign 0 0
  else f.assemble a.sign (f.round w).1 (f.round w).2

end Sys2Proof.Machine
end

