-- ==== Sys2Proof/Machine/Flags.lean ====
section
/-! DEFINITION. Status codes (spec/60_exceptions.md rule R132) and the sticky flags (spec/10_state.md rule R26). These
are all the flags of the machine: no command has condition codes. -/

namespace Sys2Proof.Machine

/-- The code of a fault class (R132). -/
def FaultClass.code : FaultClass → Nat
  | .capacityOverflow => 1
  | .malformedInput => 2
  | .domainError => 3
  | .illegalCommand => 4
  | .invalidOperand => 5

/-- The four-bit status of a response (R132). -/
def Status.code : Status → BitVec 4
  | .ok => 0
  | .raised f => BitVec.ofNat 4 f.code

/-- The sticky flag of a fault class: bit `code − 1` of `FLAGS` (R26, R137). -/
def FaultClass.flag (f : FaultClass) : BitVec 5 := 1#5 <<< (f.code - 1)

/-- Sets the sticky flag of a fault class and keeps the others (R26). -/
def setSticky (flags : BitVec 5) (f : FaultClass) : BitVec 5 := flags ||| f.flag

/-- The classes that invalidate the destinations of the command (R24, R137). -/
def FaultClass.invalidates : FaultClass → Bool
  | .capacityOverflow => true
  | .domainError => true
  | .malformedInput => false
  | .illegalCommand => false
  | .invalidOperand => false

end Sys2Proof.Machine
end

