-- ==== Sys2Proof/Machine/Ops.lean ====
section
/-! DEFINITION. The named operations over the registers, and the two ways a command ends: with `OK` (`State.finish`,
step 5 of spec/40_wide_unsigned.md rule R53) and by raising a fault (`State.raise`, spec/60_exceptions.md rule R137).
Raising a fault is this hardware's only exception; nothing is saved and control goes nowhere (R141), so there is no
return from one (R142). -/

namespace Sys2Proof.Machine

/-- The WideUnsigned register a field names: its limbs, or `none` where it is invalid (R15, R24). A field above 7 names
no register (R46); every meaning refuses it before it reads. -/
def State.wideReg (s : State) (r : RegField) : Option (List WideLimb) := (s.wide[r.toNat]?).join

/-- The ScaledInt register a field names: its value, or `none` where it is invalid (R19, R24). -/
def State.scaledReg (s : State) (r : RegField) : Option ScaledValue := (s.scaled[r.toNat]?).join

/-- Replaces a WideUnsigned register as a whole. -/
def State.setWide (s : State) (r : RegField) (v : Option (List WideLimb)) : State :=
  { s with wide := s.wide.setIfInBounds r.toNat v }

/-- Replaces a ScaledInt register as a whole. -/
def State.setScaled (s : State) (r : RegField) (v : Option ScaledValue) : State :=
  { s with scaled := s.scaled.setIfInBounds r.toNat v }

/-- `W[rd] <- number with these limbs`: the canonical write, which sets the valid bit (R18). -/
def State.writeWide (s : State) (r : RegField) (limbs : List WideLimb) : State :=
  s.setWide r (some (canonicalWide limbs))

/-- `W[rd] <- n` (R18). -/
def State.writeWideNat (s : State) (r : RegField) (n : Nat) : State :=
  s.writeWide r (limbsOfNat 64 Config.wCap n)

/-- `S[rd] <- ` the magnitude with these limbs and this sign: the clamped write, which sets the valid bit (R22). -/
def State.writeScaled (s : State) (r : RegField) (limbs : List Digit) (sign : Sign) : State :=
  s.setScaled r (some (clamp limbs sign))

/-- `S[rd] <- (m, sign)` (R22). -/
def State.writeScaledNat (s : State) (r : RegField) (m : Nat) (sign : Sign) : State :=
  s.writeScaled r (limbsOfNat 32 s.config.sCap m) sign

/-- Clears the valid bit of a register (R24). -/
def State.invalidate (s : State) : Dest → State
  | .wide r => s.setWide r none
  | .scaled r => s.setScaled r none

/-- Gives the response of the command (R28). -/
def State.respond (s : State) (status : Status) (dout : DataWord) : State :=
  { s with response := some ⟨status, dout⟩ }

/-- The command ends `OK` with this `dout` (R53 step 5); a command that names no result gives 0 (R28). -/
def State.finish (s : State) (dout : DataWord) : Result := .next (s.respond .ok dout)

/-- The state after a fault of class `f` of a command with destinations `dests` (R137): the sticky flag is set, an
overflow or a domain error invalidates every destination, the response has `dout = 0`, and nothing else changes. -/
def State.faulted (s : State) (f : FaultClass) (dests : List Dest) : State :=
  let kept := if f.invalidates then dests.foldl State.invalidate s else s
  State.respond { kept with flags := setSticky s.flags f } (.raised f) 0

/-- `raise <Fault>`: ends the command (R11, R137). -/
def State.raise (s : State) (f : FaultClass) (dests : List Dest) : Result := .next (s.faulted f dests)

end Sys2Proof.Machine
end

