-- ==== Sys2Proof/Machine/Operands.lean ====
section
/-! DEFINITION. The operand forms of the commands and the checks on them, in the order of spec/40_wide_unsigned.md rule
R53: the decode step on the fields and on `din` (spec/30_encoding.md rules R46 to R48), then the source registers
(spec/60_exceptions.md rule R138), then the input data (R134), then the result (R133). Each form takes what the
command does next as its last argument and ends the command itself where its check fails. -/

namespace Sys2Proof.Machine

/-- A used register field must be below 8 (R46). -/
def regOk (r : RegField) : Bool := r.toNat < Config.nW

/-- A limb index of a WideUnsigned register (R47). -/
def wideIndexOk (imm : Immediate) : Bool := imm.toNat < Config.wCap

/-- A limb index of a ScaledInt register (R47). -/
def scaledIndexOk (c : Config) (imm : Immediate) : Bool := imm.toNat < c.sCap

/-- A character index of the digit buffer (R47). -/
def charIndexOk (imm : Immediate) : Bool := imm.toNat < Config.dCap

/-- `din` holds a 32-bit limb or pattern: `din < 2^32` (R48). -/
def dinIs32 (din : DataWord) : Bool := din.toNat < 2 ^ 32

/-- Step 1 of R53: a command that is not one the core has ends `ILLEGAL_COMMAND` (R136). -/
def State.whenLegal (s : State) (ok : Bool) (next : Result) : Result :=
  if ok then next else s.raise .illegalCommand []

/-- Step 2 of R53: a source register must be valid, else `INVALID_OPERAND` (R138). -/
def State.withWide (s : State) (r : RegField) (next : List WideLimb → Result) : Result :=
  match s.wideReg r with
  | some a => next a
  | none => s.raise .invalidOperand []

/-- Step 2 of R53 for a ScaledInt source. -/
def State.withScaled (s : State) (r : RegField) (next : ScaledValue → Result) : Result :=
  match s.scaledReg r with
  | some a => next a
  | none => s.raise .invalidOperand []

/-- Step 2 of R53 for the commands that take no `Negative` source (R90, R111, R138). -/
def State.whenPositive (s : State) (a : ScaledValue) (next : Result) : Result :=
  if a.sign = .positive then next else s.raise .invalidOperand []

/-- Step 3 of R53: `din` as a decimal character, `0x30` to `0x39` compared as 64 bits, else `MALFORMED_INPUT` (R48,
R65, R134). The digit is `din − 0x30`. -/
def State.withDigit (s : State) (next : Nat → Result) : Result :=
  if s.din.toNat < 0x30 ∨ 0x39 < s.din.toNat then s.raise .malformedInput [] else next (s.din.toNat - 0x30)

/-- Steps 4 and 5 of R53 for a WideUnsigned destination: `none` is a result too large for it (R133). -/
def State.finishWide (s : State) (rd : RegField) : Option (List WideLimb) → Result
  | some limbs => (s.writeWide rd limbs).finish 0
  | none => s.raise .capacityOverflow [.wide rd]

/-- Steps 4 and 5 of R53 for a ScaledInt destination: `none` is a result too large for it (R133). -/
def State.finishScaled (s : State) (rd : RegField) : Option (List Digit × Sign) → Result
  | some (limbs, sign) => (s.writeScaled rd limbs sign).finish 0
  | none => s.raise .capacityOverflow [.scaled rd]

end Sys2Proof.Machine
end

