-- ==== Sys2Proof/Machine/FloatCodec.lean ====
section
/-! DEFINITION. The float bit codec commands (spec/47_float_codec.md): `SFROMD`, `SFROMF`, `STOD`, `STOF`. -/

namespace Sys2Proof.Machine

/-- The extraction of a pattern into `S[rd]` (R121, R122): a pattern out of the domain raises `DOMAIN_ERROR`, which
invalidates the destination. -/
def State.extract (s : State) (f : FloatFormat) (rd : RegField) : Result :=
  if f.outOfDomain s.config.sCap s.din then s.raise .domainError [.scaled rd]
  else (s.writeScaled rd (f.limbsOf s.config.sCap s.din) (f.signOf s.din)).finish 0

/-- `SFROMD sd` (R121): reads no register. -/
def execSfromd (rd : RegField) (s : State) : Result :=
  s.whenLegal (regOk rd) <|
  s.extract binary64 rd

/-- `SFROMF sd` (R122): reads no register. -/
def execSfromf (rd : RegField) (s : State) : Result :=
  s.whenLegal (regOk rd && dinIs32 s.din) <|
  s.extract binary32 rd

/-- `STOD sa` (R125). -/
def execStod (ra : RegField) (s : State) : Result :=
  s.whenLegal (regOk ra) <|
  s.withScaled ra fun a =>
  s.finish (binary64.patternOf a)

/-- `STOF sa` (R126). -/
def execStof (ra : RegField) (s : State) : Result :=
  s.whenLegal (regOk ra) <|
  s.withScaled ra fun a =>
  s.finish (binary32.patternOf a)

end Sys2Proof.Machine
end

