-- ==== Sys2Proof/Machine/ScaledArith.lean ====
section
/-! DEFINITION. The limb algorithms of the ScaledInt commands: compare (spec/42_scaled_basic.md rule R82), magnitude add
and subtract and the signed dispatch (spec/43_scaled_addsub.md rules R85 to R90), the Comba multiplier and the
one-digit multiply (spec/44_scaled_mul.md rules R94, R95, R102), shifts and powers of two (spec/45_scaled_shift.md
rules R103 to R107). `cap` is `S_CAP`; `none` is a result that needs more limbs than that. -/

namespace Sys2Proof.Machine

/-- Compares two arrays given from their most significant limb down: the first difference decides (R82). -/
def cmpFromTop : List Digit → List Digit → Ordering
  | x :: xs, y :: ys => if y < x then .gt else if x < y then .lt else cmpFromTop xs ys
  | _, _ => .eq

/-- `CmpMag`: `used` first, then the limbs from the most significant (R82). -/
def cmpMag (a b : List Digit) : Ordering :=
  if b.length < a.length then .gt
  else if a.length < b.length then .lt
  else cmpFromTop a.reverse b.reverse

/-- The signed comparison of `cmp` (R84). -/
def cmpSigned (a b : ScaledValue) : Ordering :=
  if a.sign ≠ b.sign then (if a.sign = .negative then .lt else .gt)
  else if a.sign = .positive then cmpMag a.limbs b.limbs
  else cmpMag b.limbs a.limbs

/-- The code of an ordering in `dout`: `LT = 0`, `EQ = 1`, `GT = 2` (R83). -/
def orderingCode : Ordering → DataWord
  | .lt => 0
  | .eq => 1
  | .gt => 2

/-- The limb loop of `UAddMag` over `n` places: the sum limbs and the carry out (R85). -/
def uAddLoop : (n : Nat) → List Digit → List Digit → (carry : Nat) → List Digit × Nat
  | 0, _, _, carry => ([], carry)
  | n + 1, x, y, carry =>
    let t := (x.headD 0).toNat + (y.headD 0).toNat + carry
    let (rest, out) := uAddLoop n x.tail y.tail (t / 2 ^ 32)
    (BitVec.ofNat 32 t :: rest, out)

/-- `UAddMag(x, y)` (R85). -/
def uAddMag (cap : Nat) (x y : List Digit) : Option (List Digit) :=
  let n := max x.length y.length
  let (r, carry) := uAddLoop n x y 0
  if carry = 1 then (if n = cap then none else some (r ++ [1])) else some r

/-- The limb loop of `USubMag` (R86): a negative difference takes `2^32` and borrows. -/
def uSubLoop : List Digit → List Digit → (borrow : Int) → List Digit
  | [], _, _ => []
  | x :: xs, y, borrow =>
    let t : Int := (x.toNat : Int) - ((y.headD 0).toNat : Int) - borrow
    if t < 0 then BitVec.ofInt 32 (t + 2 ^ 32) :: uSubLoop xs y.tail 1
    else BitVec.ofInt 32 t :: uSubLoop xs y.tail 0

/-- `USubMag(x, y)` (R86). It is called with `x ≥ y` only; what it gives otherwise is no behaviour of the core (U4 of
spec/93_implementation_defined.md). -/
def uSubMag (x y : List Digit) : List Digit := uSubLoop x y 0

/-- The sign-magnitude dispatch of add (R87). -/
def signedAdd (cap : Nat) (a b : ScaledValue) : Option (List Digit × Sign) :=
  if a.sign = b.sign then (uAddMag cap a.limbs b.limbs).map (·, a.sign)
  else if cmpMag a.limbs b.limbs = .lt then some (uSubMag b.limbs a.limbs, b.sign)
  else some (uSubMag a.limbs b.limbs, a.sign)

/-- The carry loop of `add_digit` (R90). -/
def addDigitLoop : List Digit → (carry : Nat) → List Digit × Nat
  | [], carry => ([], carry)
  | x :: xs, carry =>
    let t := x.toNat + carry
    let (rest, out) := addDigitLoop xs (t / 2 ^ 32)
    (BitVec.ofNat 32 t :: rest, out)

/-- The limb loop of `mul_by_digit` (R102). -/
def mulDigitLoop (d : Nat) : List Digit → (carry : Nat) → List Digit × Nat
  | [], carry => ([], carry)
  | x :: xs, carry =>
    let t := x.toNat * d + carry
    let (rest, out) := mulDigitLoop d xs (t / 2 ^ 32)
    (BitVec.ofNat 32 t :: rest, out)

/-- A last carry becomes a new limb, or overflows where all `cap` limbs are used (R90, R102). -/
def appendCarry (cap used : Nat) (r : List Digit × Nat) : Option (List Digit) :=
  if r.2 = 0 then some r.1 else if used = cap then none else some (r.1 ++ [BitVec.ofNat 32 r.2])

/-- `add_digit(a, d)` on a magnitude (R90). -/
def addDigit (cap : Nat) (a : List Digit) (d : Nat) : Option (List Digit) :=
  appendCarry cap a.length (addDigitLoop a d)

/-- `mul_by_digit(a, d)` on a magnitude (R102). -/
def mulDigit (cap : Nat) (a : List Digit) (d : Nat) : Option (List Digit) :=
  appendCarry cap a.length (mulDigitLoop d a 0)

/-- One step of `from_decimal_signed` (R111): `mul_by_digit(·, 10)`, then `add_digit(·, digit)`. -/
def scaledDigitStep (cap : Nat) (a : List Digit) (digit : Nat) : Option (List Digit) :=
  (mulDigit cap a 10).bind fun t => addDigit cap t digit

/-- The three accumulator words of the Comba multiplier, read together as `c0 + c1·2^32 + c2·2^64` (R94). -/
structure CombaWords where
  c0 : Digit
  c1 : Digit
  c2 : Digit
deriving DecidableEq, Repr

/-- `MulAdd(x, y)`: adds one partial product into the accumulator (R94). -/
def mulAdd (c : CombaWords) (x y : Digit) : CombaWords :=
  let p := x.toNat * y.toNat
  let t0 := c.c0.toNat + p % 2 ^ 32
  let t1 := c.c1.toNat + p / 2 ^ 32 + t0 / 2 ^ 32
  ⟨BitVec.ofNat 32 t0, BitVec.ofNat 32 t1, c.c2 + BitVec.ofNat 32 (t1 / 2 ^ 32)⟩

/-- The pairs of one column, `tx` rising and `ty` falling from `count − 1`, while `tx < ua` and `ty ≥ 0` (R95). -/
def combaColumn (a b : List Digit) : (count : Nat) → (tx : Nat) → CombaWords → CombaWords
  | 0, _, c => c
  | ty + 1, tx, c =>
    if tx < a.length then combaColumn a b ty (tx + 1) (mulAdd c (limbAt a tx) (limbAt b ty)) else c

/-- The columns `ix`, `ix + 1`, …: `c0` is the output limb, then the window shifts (R95). -/
def combaColumns (a b : List Digit) : (columns : Nat) → (ix : Nat) → CombaWords → List Digit
  | 0, _, _ => []
  | columns + 1, ix, c =>
    let count := min (ix + 1) b.length
    let c' := combaColumn a b count (ix + 1 - count) c
    c'.c0 :: combaColumns a b columns (ix + 1) ⟨c'.c1, c'.c2, 0⟩

/-- `Comba(a, b)`: `pa = min(ua + ub, S_CAP − 1)` output limbs (R95, R99). -/
def comba (cap : Nat) (a b : List Digit) : List Digit :=
  combaColumns a b (min (a.length + b.length) (cap - 1)) 0 ⟨0, 0, 0⟩

/-- The product of two magnitudes (R99, R100): overflow where it is `2^(32·(S_CAP−1))` or more, else the limbs the
Comba multiplier gives. -/
def mulMag (cap : Nat) (a b : List Digit) : Option (List Digit) :=
  if 2 ^ (32 * (cap - 1)) ≤ limbsVal a * limbsVal b then none else some (comba cap a b)

/-- `shift_left_digits(a, n)` (R103). -/
def shiftLeftDigits (cap : Nat) (a : List Digit) (n : Nat) : Option (List Digit) :=
  if a = [] ∨ n = 0 then some a
  else if cap < a.length + n then none
  else some (List.replicate n 0 ++ a)

/-- `shift_right_digits(a, n)` (R104). -/
def shiftRightDigits (a : List Digit) (n : Nat) : List Digit := if a.length ≤ n then [] else a.drop n

/-- The limb loop of `ModPow2` from limb `k` on (R105); `q` is the boundary limb and `r` the bit offset in it. -/
def modPow2Loop (q r : Nat) : (k : Nat) → List Digit → List Digit
  | _, [] => []
  | k, x :: xs =>
    (if k < q then x else if k = q ∧ 0 < r then x &&& BitVec.ofNat 32 (2 ^ r - 1) else 0) ::
      modPow2Loop q r (k + 1) xs

/-- `ModPow2(m, bits)` (R105). -/
def modPow2 (a : List Digit) (bits : Nat) : List Digit := modPow2Loop (bits / 32) (bits % 32) 0 a

/-- Shifts an array right by `r` bits, `r < 32`, across limb boundaries (R107). -/
def shiftRightSub (r : Nat) : List Digit → List Digit
  | [] => []
  | x :: xs => (if r = 0 then x else (x >>> r) ||| (xs.headD 0 <<< (32 - r))) :: shiftRightSub r xs

/-- `div_pow2`: whole limbs first, then `r` bits (R107). -/
def divPow2 (a : List Digit) (bits : Nat) : List Digit :=
  shiftRightSub (bits % 32) (shiftRightDigits a (bits / 32))

/-- The left shift by bits of `SMULP`, decided by value (R109). -/
def mulPow2 (cap : Nat) (a : List Digit) (bits : Nat) : Option (List Digit) :=
  if 2 ^ (32 * cap) ≤ limbsVal a * 2 ^ bits then none else some (limbsOfNat 32 cap (limbsVal a * 2 ^ bits))

end Sys2Proof.Machine
end

