-- ==== Sys2Proof/Machine/ScaledAddSub.lean ====
section
/-! DEFINITION. The ScaledInt adder (spec/43_scaled_addsub.md): `SADD`, `SSUB`, `SADDD`. -/

namespace Sys2Proof.Machine

/-- `SADD sd, sa, sb` (R88). -/
def execSadd (rd ra rb : RegField) (s : State) : Result :=
  s.whenLegal (regOk rd && regOk ra && regOk rb) <|
  s.withScaled ra fun a =>
  s.withScaled rb fun b =>
  s.finishScaled rd (signedAdd s.config.sCap a b)

/-- `SSUB sd, sa, sb` (R89): addition with the sign of the second operand flipped in the dispatch only. -/
def execSsub (rd ra rb : RegField) (s : State) : Result :=
  s.whenLegal (regOk rd && regOk ra && regOk rb) <|
  s.withScaled ra fun a =>
  s.withScaled rb fun b =>
  s.finishScaled rd (signedAdd s.config.sCap a ⟨b.limbs, b.sign.flip⟩)

/-- `SADDD sd, sa` (R90): a `Negative` source is refused. -/
def execSaddd (rd ra : RegField) (s : State) : Result :=
  s.whenLegal (regOk rd && regOk ra && dinIs32 s.din) <|
  s.withScaled ra fun a =>
  s.whenPositive a <|
  s.finishScaled rd ((addDigit s.config.sCap a.limbs s.din.toNat).map (·, .positive))

end Sys2Proof.Machine
end

