-- ==== Sys2Proof/Machine/ScaledBasic.lean ====
section
/-! DEFINITION. The ScaledInt basic commands (spec/42_scaled_basic.md): `SZERO`, `SLDL`, `SSTL`, `SINFO`, `SMOV`, `SNEG`,
`SABS`, `SCMPM`, `SCMP`. Every source is read before any destination is written (R73). -/

namespace Sys2Proof.Machine

/-- `SZERO sd` (R75): needs no valid register, and makes one. -/
def execSzero (rd : RegField) (s : State) : Result :=
  s.whenLegal (regOk rd) <|
  (s.writeScaledNat rd 0 .positive).finish 0

/-- Replaces limb `imm` of a magnitude (R76): `m − old·2^(32·imm) + limb·2^(32·imm)`. -/
def replaceScaledLimb (m imm limb : Nat) : Nat :=
  m - m / 2 ^ (32 * imm) % 2 ^ 32 * 2 ^ (32 * imm) + limb * 2 ^ (32 * imm)

/-- `SLDL sd, #idx` (R76): keeps the sign. -/
def execSldl (rd : RegField) (imm : Immediate) (s : State) : Result :=
  s.whenLegal (regOk rd && scaledIndexOk s.config imm && dinIs32 s.din) <|
  s.withScaled rd fun a =>
  (s.writeScaledNat rd (replaceScaledLimb a.mag imm.toNat s.din.toNat) a.sign).finish 0

/-- `SSTL sa, #idx` (R77). -/
def execSstl (ra : RegField) (imm : Immediate) (s : State) : Result :=
  s.whenLegal (regOk ra && scaledIndexOk s.config imm) <|
  s.withScaled ra fun a =>
  s.finish ((limbAt a.limbs imm.toNat).setWidth 64)

/-- `SINFO sa` (R78): `used` in `dout[7:0]`, the sign in `dout[8]`. -/
def execSinfo (ra : RegField) (s : State) : Result :=
  s.whenLegal (regOk ra) <|
  s.withScaled ra fun a =>
  s.finish (BitVec.ofNat 64 (a.limbs.length % 2 ^ 8 + a.sign.bit * 2 ^ 8))

/-- `SMOV sd, sa` (R79). -/
def execSmov (rd ra : RegField) (s : State) : Result :=
  s.whenLegal (regOk rd && regOk ra) <|
  s.withScaled ra fun a =>
  (s.writeScaled rd a.limbs a.sign).finish 0

/-- `SNEG sd, sa` (R80): the sign is flipped, then clamped. -/
def execSneg (rd ra : RegField) (s : State) : Result :=
  s.whenLegal (regOk rd && regOk ra) <|
  s.withScaled ra fun a =>
  (s.writeScaled rd a.limbs a.sign.flip).finish 0

/-- `SABS sd, sa` (R81). -/
def execSabs (rd ra : RegField) (s : State) : Result :=
  s.whenLegal (regOk rd && regOk ra) <|
  s.withScaled ra fun a =>
  (s.writeScaled rd a.limbs .positive).finish 0

/-- `SCMPM sa, sb` (R83). -/
def execScmpm (ra rb : RegField) (s : State) : Result :=
  s.whenLegal (regOk ra && regOk rb) <|
  s.withScaled ra fun a =>
  s.withScaled rb fun b =>
  s.finish (orderingCode (cmpMag a.limbs b.limbs))

/-- `SCMP sa, sb` (R84). -/
def execScmp (ra rb : RegField) (s : State) : Result :=
  s.whenLegal (regOk ra && regOk rb) <|
  s.withScaled ra fun a =>
  s.withScaled rb fun b =>
  s.finish (orderingCode (cmpSigned a b))

end Sys2Proof.Machine
end

