-- ==== Sys2Proof/Machine/ScaledDecimal.lean ====
section
/-! DEFINITION. The ScaledInt decimal codec (spec/46_scaled_decimal.md): `SDACC`. -/

namespace Sys2Proof.Machine

/-- `SDACC sd` (R111): a `Negative` register is refused, and before the character is looked at (R139). -/
def execSdacc (rd : RegField) (s : State) : Result :=
  s.whenLegal (regOk rd) <|
  s.withScaled rd fun a =>
  s.whenPositive a <|
  s.withDigit fun digit =>
  s.finishScaled rd ((scaledDigitStep s.config.sCap a.limbs digit).map (·, .positive))

end Sys2Proof.Machine
end

