-- ==== Sys2Proof/Machine/ScaledMul.lean ====
section
/-! DEFINITION. The ScaledInt multiplier (spec/44_scaled_mul.md): `SMUL`, `SMULS`, `SMULD`. -/

namespace Sys2Proof.Machine

/-- `SMUL sd, sa, sb` (R100): the integer product, not rescaled. -/
def execSmul (rd ra rb : RegField) (s : State) : Result :=
  s.whenLegal (regOk rd && regOk ra && regOk rb) <|
  s.withScaled ra fun a =>
  s.withScaled rb fun b =>
  s.finishScaled rd ((mulMag s.config.sCap a.limbs b.limbs).map (·, a.sign.product b.sign))

/-- `SMULS sd, sa, sb` (R101): the product, which must fit first, without its low `SCALE_LIMBS` limbs. -/
def execSmuls (rd ra rb : RegField) (s : State) : Result :=
  s.whenLegal (regOk rd && regOk ra && regOk rb) <|
  s.withScaled ra fun a =>
  s.withScaled rb fun b =>
  s.finishScaled rd
    ((mulMag s.config.sCap a.limbs b.limbs).map fun p => (p.drop Config.scaleLimbs, a.sign.product b.sign))

/-- `SMULD sd, sa` (R102): keeps the sign. -/
def execSmuld (rd ra : RegField) (s : State) : Result :=
  s.whenLegal (regOk rd && regOk ra && dinIs32 s.din) <|
  s.withScaled ra fun a =>
  s.finishScaled rd ((mulDigit s.config.sCap a.limbs s.din.toNat).map (·, a.sign))

end Sys2Proof.Machine
end

