-- ==== Sys2Proof/Machine/ScaledShift.lean ====
section
/-! DEFINITION. ScaledInt shifts and powers of two (spec/45_scaled_shift.md): `SSHLD`, `SSHRD`, `SDIVP`, `SDIVPR`,
`SMODP`, `SMULP`. All work on the magnitude and keep the sign of the source; the clamped write makes a zero result
`Positive` (R110). -/

namespace Sys2Proof.Machine

/-- `SSHLD sd, #n` (R103). -/
def execSshld (rd : RegField) (imm : Immediate) (s : State) : Result :=
  s.whenLegal (regOk rd) <|
  s.withScaled rd fun a =>
  s.finishScaled rd ((shiftLeftDigits s.config.sCap a.limbs imm.toNat).map (·, a.sign))

/-- `SSHRD sd, #n` (R104). -/
def execSshrd (rd : RegField) (imm : Immediate) (s : State) : Result :=
  s.whenLegal (regOk rd) <|
  s.withScaled rd fun a =>
  (s.writeScaled rd (shiftRightDigits a.limbs imm.toNat) a.sign).finish 0

/-- `SDIVP sd, sa, #bits` (R107). -/
def execSdivp (rd ra : RegField) (imm : Immediate) (s : State) : Result :=
  s.whenLegal (regOk rd && regOk ra) <|
  s.withScaled ra fun a =>
  (s.writeScaled rd (divPow2 a.limbs imm.toNat) a.sign).finish 0

/-- `SDIVPR sq, sr, sa, #bits` (R108): `rd` is the quotient, `rb` the remainder; they differ. The remainder is written
first; the source was read before either. -/
def execSdivpr (rd ra rb : RegField) (imm : Immediate) (s : State) : Result :=
  s.whenLegal (regOk rd && regOk ra && regOk rb && rd != rb) <|
  s.withScaled ra fun a =>
  ((s.writeScaled rb (modPow2 a.limbs imm.toNat) a.sign).writeScaled rd (divPow2 a.limbs imm.toNat) a.sign).finish 0

/-- `SMODP sd, sa, #bits` (R106). -/
def execSmodp (rd ra : RegField) (imm : Immediate) (s : State) : Result :=
  s.whenLegal (regOk rd && regOk ra) <|
  s.withScaled ra fun a =>
  (s.writeScaled rd (modPow2 a.limbs imm.toNat) a.sign).finish 0

/-- `SMULP sd, sa, #bits` (R109). -/
def execSmulp (rd ra : RegField) (imm : Immediate) (s : State) : Result :=
  s.whenLegal (regOk rd && regOk ra) <|
  s.withScaled ra fun a =>
  s.finishScaled rd ((mulPow2 s.config.sCap a.limbs imm.toNat).map (·, a.sign))

end Sys2Proof.Machine
end

