-- ==== Sys2Proof/Machine/System.lean ====
section
/-! DEFINITION. The system commands (spec/48_system.md): `RDCFG`, `RDFLAGS`. -/

namespace Sys2Proof.Machine

/-- `CFG` (R27): the constant configuration word of a core with parameter `c`. -/
def configWord (c : Config) : DataWord :=
  BitVec.ofNat 64 (Config.wCap + c.sCap * 2 ^ 8 + Config.nW * 2 ^ 16 + Config.nS * 2 ^ 24 +
    Config.scaleLimbs * 2 ^ 32 + Config.dCap * 2 ^ 40)

/-- `RDCFG` (R129). -/
def execRdcfg (s : State) : Result := s.finish (configWord s.config)

/-- `RDFLAGS` (R130): reading does not clear. -/
def execRdflags (s : State) : Result := s.finish (s.flags.setWidth 64)

end Sys2Proof.Machine
end

