-- ==== Sys2Proof/Machine/WideArith.lean ====
section
/-! DEFINITION. The limb algorithms of the WideUnsigned commands, as spec/40_wide_unsigned.md gives them (rules R58 to
R62). They work on limb arrays, least significant limb first; `none` is a result of `2^512` or more. -/

namespace Sys2Proof.Machine

/-- The low half-word of a limb, `x[31:0]`, as a 64-bit word. -/
def lowHalf (x : WideLimb) : WideLimb := (x.setWidth 32).setWidth 64

/-- The high half-word of a limb, `x[63:32]`, as a 64-bit word. -/
def highHalf (x : WideLimb) : WideLimb := x >>> 32

/-- 1 if a 64-bit sum wrapped, seen from the sum being below an addend; else 0. -/
def wrapped (sum addend : WideLimb) : WideLimb := if sum < addend then 1 else 0

/-- `MulWide64(x, v) = (hi, lo)`: four half-word products combined with explicit carries (R58). -/
def mulWide64 (x v : WideLimb) : WideLimb × WideLimb :=
  let p0 := lowHalf x * lowHalf v
  let p1 := lowHalf x * highHalf v
  let p2 := highHalf x * lowHalf v
  let p3 := highHalf x * highHalf v
  let mid := p1 + p2
  let lo := p0 + (lowHalf mid <<< 32)
  (p3 + highHalf mid + (wrapped mid p1 <<< 32) + wrapped lo p0, lo)

/-- The carry loop of `add_limb` (R59); `room` is how many limb places are left. -/
def addLimbLoop : (room : Nat) → List WideLimb → (carry : WideLimb) → Option (List WideLimb)
  | 0, limbs, carry => if carry = 0 then some limbs else none
  | room + 1, limbs, carry =>
    if carry = 0 then some limbs
    else
      let sum := limbs.headD 0 + carry
      (addLimbLoop room limbs.tail (wrapped sum carry)).map (sum :: ·)

/-- `add_limb(a, val)` (R59). -/
def addLimb (a : List WideLimb) (val : WideLimb) : Option (List WideLimb) := addLimbLoop Config.wCap a val

/-- The limb loop of `multiply_limb` (R60): the product limbs and the carry out of the last. -/
def mulLimbLoop (val : WideLimb) : List WideLimb → (carry : WideLimb) → List WideLimb × WideLimb
  | [], carry => ([], carry)
  | x :: xs, carry =>
    let (hi, lo) := mulWide64 x val
    let lo2 := lo + carry
    let (rest, out) := mulLimbLoop val xs (hi + wrapped lo2 lo)
    (lo2 :: rest, out)

/-- `multiply_limb(a, val)` (R60). -/
def mulLimb (a : List WideLimb) (val : WideLimb) : Option (List WideLimb) :=
  let (limbs, carry) := mulLimbLoop val a 0
  if carry = 0 then some limbs
  else if a.length = Config.wCap then none
  else some (limbs ++ [carry])

/-- The limb loop of `add` (R61); `room` is how many limb places are left. -/
def addLoop : (room : Nat) → List WideLimb → List WideLimb → (carry : Nat) → Option (List WideLimb)
  | 0, a, b, carry => if a = [] ∧ b = [] ∧ carry = 0 then some [] else none
  | room + 1, a, b, carry =>
    if a = [] ∧ b = [] ∧ carry = 0 then some []
    else
      let t := (a.headD 0).toNat + (b.headD 0).toNat + carry
      (addLoop room a.tail b.tail (t / 2 ^ 64)).map (BitVec.ofNat 64 t :: ·)

/-- `add(result, a, b)` (R61). -/
def addWide (a b : List WideLimb) : Option (List WideLimb) := addLoop Config.wCap a b 0

/-- The inner loop of `multiply` (R62): adds `a · y` into the array `r` from its first limb on; the last carry
replaces the limb after the last one added to. -/
def mulRow (y : WideLimb) : (r : List WideLimb) → (a : List WideLimb) → (carry : WideLimb) → List WideLimb
  | [], _, _ => []
  | _ :: rs, [], carry => carry :: rs
  | r :: rs, x :: xs, carry =>
    let (hi, lo) := mulWide64 x y
    let t := r.toNat + lo.toNat
    let t2 := t % 2 ^ 64 + carry.toNat
    BitVec.ofNat 64 t2 :: mulRow y rs xs (hi + BitVec.ofNat 64 (t / 2 ^ 64) + BitVec.ofNat 64 (t2 / 2 ^ 64))

/-- The outer loop of `multiply` (R62): one row for each limb of `b`, each one limb higher in the array than the
row before it. -/
def mulRows (a : List WideLimb) : (r : List WideLimb) → (b : List WideLimb) → List WideLimb
  | r, [] => r
  | r, y :: ys =>
    match mulRow y r a 0 with
    | [] => []
    | low :: rest => low :: mulRows a rest ys

/-- `multiply(result, a, b)` (R62): sixteen zero limbs, the rows, and overflow if a limb at index 8 or above is not
zero. -/
def mulWide (a b : List WideLimb) : Option (List WideLimb) :=
  let r := mulRows a (List.replicate 16 0) b
  if (r.drop Config.wCap).all (· == 0) then some (r.take Config.wCap) else none

/-- One Horner step of `from_decimal` (R65): `multiply_limb(result, 10)`, then `add_limb(result, digit)`. -/
def wideDigitStep (a : List WideLimb) (digit : Nat) : Option (List WideLimb) :=
  (mulLimb a 10).bind fun t => addLimb t (BitVec.ofNat 64 digit)

end Sys2Proof.Machine
end

