-- ==== Sys2Proof/Machine/Wide.lean ====
section
/-! DEFINITION. The WideUnsigned commands (spec/40_wide_unsigned.md): `WZERO`, `WLDL`, `WSTL`, `WLEN`, `WADDL`, `WMULL`,
`WADD`, `WMUL`. -/

namespace Sys2Proof.Machine

/-- `WZERO wd` (R54): needs no valid register, and makes one. -/
def execWzero (rd : RegField) (s : State) : Result :=
  s.whenLegal (regOk rd) <|
  (s.writeWideNat rd 0).finish 0

/-- Replaces limb `imm` of a number (R55): `n − old·2^(64·imm) + limb·2^(64·imm)`. -/
def replaceWideLimb (n imm limb : Nat) : Nat :=
  n - n / 2 ^ (64 * imm) % 2 ^ 64 * 2 ^ (64 * imm) + limb * 2 ^ (64 * imm)

/-- `WLDL wd, #idx` (R55): reads its register, so it is refused on an invalid one. -/
def execWldl (rd : RegField) (imm : Immediate) (s : State) : Result :=
  s.whenLegal (regOk rd && wideIndexOk imm) <|
  s.withWide rd fun a =>
  (s.writeWideNat rd (replaceWideLimb (wval a) imm.toNat s.din.toNat)).finish 0

/-- `WSTL wa, #idx` (R56). -/
def execWstl (ra : RegField) (imm : Immediate) (s : State) : Result :=
  s.whenLegal (regOk ra && wideIndexOk imm) <|
  s.withWide ra fun a =>
  s.finish (limbAt a imm.toNat)

/-- `WLEN wa` (R57). -/
def execWlen (ra : RegField) (s : State) : Result :=
  s.whenLegal (regOk ra) <|
  s.withWide ra fun a =>
  s.finish (BitVec.ofNat 64 a.length)

/-- `WADDL wd` (R59). -/
def execWaddl (rd : RegField) (s : State) : Result :=
  s.whenLegal (regOk rd) <|
  s.withWide rd fun a =>
  s.finishWide rd (addLimb a s.din)

/-- `WMULL wd` (R60). -/
def execWmull (rd : RegField) (s : State) : Result :=
  s.whenLegal (regOk rd) <|
  s.withWide rd fun a =>
  s.finishWide rd (mulLimb a s.din)

/-- `WADD wd, wa, wb` (R61): the destination differs from both sources. -/
def execWadd (rd ra rb : RegField) (s : State) : Result :=
  s.whenLegal (regOk rd && regOk ra && regOk rb && rd != ra && rd != rb) <|
  s.withWide ra fun a =>
  s.withWide rb fun b =>
  s.finishWide rd (addWide a b)

/-- `WMUL wd, wa, wb` (R62): the destination differs from both sources. -/
def execWmul (rd ra rb : RegField) (s : State) : Result :=
  s.whenLegal (regOk rd && regOk ra && regOk rb && rd != ra && rd != rb) <|
  s.withWide ra fun a =>
  s.withWide rb fun b =>
  s.finishWide rd (mulWide a b)

end Sys2Proof.Machine
end

