-- ==== Sys2Proof/Machine/DecimalArith.lean ====
section
/-! DEFINITION. The double-and-add binary-to-decimal conversion of `to_decimal` (spec/41_wide_decimal.md rule R68). Digit
arrays hold the units first; a digit of the accumulator may exceed 9 until the carries are propagated. -/

namespace Sys2Proof.Machine

/-- Adds one digit array into another, digit by digit, with no carry. -/
def addDigitwise : List Nat → List Nat → List Nat
  | [], ws => ws
  | as, [] => as
  | a :: as, w :: ws => (a + w) :: addDigitwise as ws

/-- Doubles a digit array digit by digit with decimal carry; a last carry becomes a new digit. -/
def doubleDigits : List Nat → (carry : Nat) → List Nat
  | [], carry => if carry = 0 then [] else [carry]
  | d :: ds, carry => (2 * d + carry) % 10 :: doubleDigits ds ((2 * d + carry) / 10)

/-- The pass over the bits, least significant first: a set bit adds `weight` into the accumulator, and `weight` is
doubled after every bit. -/
def accumulateBits : List Bool → (weight acc : List Nat) → List Nat
  | [], _, acc => acc
  | bit :: bits, weight, acc =>
    accumulateBits bits (doubleDigits weight 0) (if bit then addDigitwise acc weight else acc)

/-- The 64 bits of a limb, least significant first. -/
def limbBits (x : WideLimb) : List Bool := (List.range 64).map x.getLsbD

/-- The digits of a last carry: `while c != 0: append (c mod 10); c = floor(c / 10)`. The first argument bounds the
number of rounds; `c` rounds are always enough. -/
def carryDigits : (rounds : Nat) → (c : Nat) → List Nat
  | 0, _ => []
  | rounds + 1, c => if c = 0 then [] else c % 10 :: carryDigits rounds (c / 10)

/-- Propagates the decimal carries of the accumulator once. -/
def normalizeDigits : List Nat → (carry : Nat) → List Nat
  | [], carry => carryDigits carry carry
  | d :: ds, carry => (d + carry) % 10 :: normalizeDigits ds ((d + carry) / 10)

/-- Drops the zero digits at the high end. -/
def dropHighZeroDigits : List Nat → List Nat
  | [] => []
  | d :: ds =>
    match dropHighZeroDigits ds with
    | [] => if d = 0 then [] else [d]
    | y :: ys => d :: y :: ys

/-- The decimal digits of a limb array, units first, at least one (R68). -/
def decimalDigits (limbs : List WideLimb) : List Nat :=
  match dropHighZeroDigits (normalizeDigits (accumulateBits (limbs.flatMap limbBits) [1] [0]) 0) with
  | [] => [0]
  | y :: ys => y :: ys

/-- The character of a decimal digit: `0x30 + digit` (R35). -/
def digitChar (d : Nat) : Character := BitVec.ofNat 8 (0x30 + d)

/-- The rendered string, the most significant digit first (R67, R68). -/
def toDecimal (limbs : List WideLimb) : List Character := (decimalDigits limbs).reverse.map digitChar

end Sys2Proof.Machine
end

