-- ==== Sys2Proof/Machine/WideDecimal.lean ====
section
/-! DEFINITION. The WideUnsigned decimal codec (spec/41_wide_decimal.md): `WDACC`, `WTODEC`, `DLEN`, `DGET`. -/

namespace Sys2Proof.Machine

/-- `WDACC wd` (R65): a non-digit leaves the register as it is. -/
def execWdacc (rd : RegField) (s : State) : Result :=
  s.whenLegal (regOk rd) <|
  s.withWide rd fun a =>
  s.withDigit fun digit =>
  s.finishWide rd (wideDigitStep a digit)

/-- `WTODEC wa` (R67): writes the digit buffer as a whole. -/
def execWtodec (ra : RegField) (s : State) : Result :=
  s.whenLegal (regOk ra) <|
  s.withWide ra fun a =>
  State.finish { s with digits := toDecimal a } 0

/-- `DLEN` (R69). -/
def execDlen (s : State) : Result := s.finish (BitVec.ofNat 64 s.digits.length)

/-- `DGET #idx` (R70): an index of the buffer at or above `dlen` is `INVALID_OPERAND`. -/
def execDget (imm : Immediate) (s : State) : Result :=
  s.whenLegal (charIndexOk imm) <|
  match s.digits[imm.toNat]? with
  | some c => s.finish (c.setWidth 64)
  | none => s.raise .invalidOperand []

end Sys2Proof.Machine
end

