-- ==== Sys2Proof/Machine/Dispatch.lean ====
section
/-! DEFINITION. The meaning of every command, one arm per row of the opcode map (spec/30_encoding.md rule R44). -/

namespace Sys2Proof.Machine

def exec (i : Instr) (s : State) : Host.Outcome State Fault Refusal :=
  match i with
  | .rdcfg => Sys2Proof.Machine.execRdcfg s
  | .rdflags => Sys2Proof.Machine.execRdflags s
  | .wzero rd => Sys2Proof.Machine.execWzero rd s
  | .wldl rd imm => Sys2Proof.Machine.execWldl rd imm s
  | .wstl ra imm => Sys2Proof.Machine.execWstl ra imm s
  | .wlen ra => Sys2Proof.Machine.execWlen ra s
  | .waddl rd => Sys2Proof.Machine.execWaddl rd s
  | .wmull rd => Sys2Proof.Machine.execWmull rd s
  | .wadd rd ra rb => Sys2Proof.Machine.execWadd rd ra rb s
  | .wmul rd ra rb => Sys2Proof.Machine.execWmul rd ra rb s
  | .wdacc rd => Sys2Proof.Machine.execWdacc rd s
  | .wtodec ra => Sys2Proof.Machine.execWtodec ra s
  | .dlen => Sys2Proof.Machine.execDlen s
  | .dget imm => Sys2Proof.Machine.execDget imm s
  | .szero rd => Sys2Proof.Machine.execSzero rd s
  | .sldl rd imm => Sys2Proof.Machine.execSldl rd imm s
  | .sstl ra imm => Sys2Proof.Machine.execSstl ra imm s
  | .sinfo ra => Sys2Proof.Machine.execSinfo ra s
  | .smov rd ra => Sys2Proof.Machine.execSmov rd ra s
  | .sneg rd ra => Sys2Proof.Machine.execSneg rd ra s
  | .sabs rd ra => Sys2Proof.Machine.execSabs rd ra s
  | .scmpm ra rb => Sys2Proof.Machine.execScmpm ra rb s
  | .scmp ra rb => Sys2Proof.Machine.execScmp ra rb s
  | .sadd rd ra rb => Sys2Proof.Machine.execSadd rd ra rb s
  | .ssub rd ra rb => Sys2Proof.Machine.execSsub rd ra rb s
  | .smul rd ra rb => Sys2Proof.Machine.execSmul rd ra rb s
  | .smuls rd ra rb => Sys2Proof.Machine.execSmuls rd ra rb s
  | .sshld rd imm => Sys2Proof.Machine.execSshld rd imm s
  | .sshrd rd imm => Sys2Proof.Machine.execSshrd rd imm s
  | .smuld rd ra => Sys2Proof.Machine.execSmuld rd ra s
  | .saddd rd ra => Sys2Proof.Machine.execSaddd rd ra s
  | .sdivp rd ra imm => Sys2Proof.Machine.execSdivp rd ra imm s
  | .sdivpr rd ra rb imm => Sys2Proof.Machine.execSdivpr rd ra rb imm s
  | .smodp rd ra imm => Sys2Proof.Machine.execSmodp rd ra imm s
  | .smulp rd ra imm => Sys2Proof.Machine.execSmulp rd ra imm s
  | .sdacc rd => Sys2Proof.Machine.execSdacc rd s
  | .sfromd rd => Sys2Proof.Machine.execSfromd rd s
  | .sfromf rd => Sys2Proof.Machine.execSfromf rd s
  | .stod ra => Sys2Proof.Machine.execStod ra s
  | .stof ra => Sys2Proof.Machine.execStof ra s

end Sys2Proof.Machine
end

