-- ==== Sys2Proof/Machine/Transaction.lean ====
section
/-! DEFINITION. One transaction at the host interface (spec/30_encoding.md rule R41): the core takes the next action of
the host, a command with its data operand or a reset, and completes it. -/

namespace Sys2Proof.Machine

/-- Runs one command word with the data operand `s.din`: a word that selects no command ends `ILLEGAL_COMMAND` (R45,
R49), and any other runs its command. -/
def runWord (cmd : CommandWord) (s : State) : Result :=
  match decode cmd with
  | .ok i => exec i s
  | .error _ => s.raise .illegalCommand []

/-- The reset the host asserts (R146): the reset state of the same core. What the host will do next is not the core's
state and stays. -/
def State.afterReset (s : State) (rest : List HostAction) : State :=
  { State.resetWith s.config with host := rest }

/-- Takes the host's next action. With none there is no transaction: the core waits, changes nothing, and gives no
response. -/
def takeAction (s : State) : Result :=
  match s.host with
  | [] => .next { s with response := none }
  | .reset :: rest => .next (s.afterReset rest)
  | .issue cmd din :: rest => runWord cmd { s with host := rest, din := din }

/-- The host action that issues an instruction whose low `nbits` bits are `w`, with a data operand of 0. -/
def issueWord (nbits w : Nat) : HostAction := .issue (BitVec.ofNat 32 (w % 2 ^ nbits)) 0

end Sys2Proof.Machine
end

