-- ==== Sys2Proof/Machine/Step.lean ====
section
/-! DEFINITION. One step of the machine is one transaction with the host (spec/30_encoding.md rule R41). -/

namespace Sys2Proof.Machine

/-- One step: the host's next action, completed (R13, R38, R41). -/
def step (s : State) : Host.Outcome State Fault Refusal := takeAction s

/-- The state `s` with the given instruction issued by the host before anything else it will do, so that the next step
runs it. The core fetches no instructions (R29): a command reaches it only so (notes/assumptions/2.md). -/
def State.withFetchWord (s : State) (nbits w : Nat) : State := { s with host := issueWord nbits w :: s.host }

end Sys2Proof.Machine
end

