-- ==== Sys2Proof/Machine/Assembler.lean ====
section
/-! DEFINITION. The way spec/30_encoding.md rule R51 writes a command and a response: `MNEMONIC operands ; din=value`,
destination first, and `-> status` or `-> status, dout=value`. The source defines no assembler; nothing of the machine
depends on this file. -/

namespace Sys2Proof.Machine

/-- A number in hexadecimal. -/
def hexText (n : Nat) : String := "0x" ++ String.ofList ((Nat.toDigits 16 n).map Char.toUpper)

/-- A WideUnsigned register, `w0` to `w7`. -/
def wideName (r : RegField) : String := "w" ++ toString r.toNat
/-- A ScaledInt register, `s0` to `s7`. -/
def scaledName (r : RegField) : String := "s" ++ toString r.toNat
/-- The immediate, `#n` in decimal. -/
def immText (imm : Immediate) : String := "#" ++ toString imm.toNat

/-- A mnemonic and its operands. -/
def line (mnemonic : String) (operands : List String) : String :=
  if operands.isEmpty then mnemonic else mnemonic ++ " " ++ String.intercalate ", " operands

/-- A command without its data operand; `SDIVPR` is written quotient, remainder, source, count. -/
def commandText : Instr → String
  | .rdcfg => line "RDCFG" []
  | .rdflags => line "RDFLAGS" []
  | .wzero rd => line "WZERO" [wideName rd]
  | .wldl rd imm => line "WLDL" [wideName rd, immText imm]
  | .wstl ra imm => line "WSTL" [wideName ra, immText imm]
  | .wlen ra => line "WLEN" [wideName ra]
  | .waddl rd => line "WADDL" [wideName rd]
  | .wmull rd => line "WMULL" [wideName rd]
  | .wadd rd ra rb => line "WADD" [wideName rd, wideName ra, wideName rb]
  | .wmul rd ra rb => line "WMUL" [wideName rd, wideName ra, wideName rb]
  | .wdacc rd => line "WDACC" [wideName rd]
  | .wtodec ra => line "WTODEC" [wideName ra]
  | .dlen => line "DLEN" []
  | .dget imm => line "DGET" [immText imm]
  | .szero rd => line "SZERO" [scaledName rd]
  | .sldl rd imm => line "SLDL" [scaledName rd, immText imm]
  | .sstl ra imm => line "SSTL" [scaledName ra, immText imm]
  | .sinfo ra => line "SINFO" [scaledName ra]
  | .smov rd ra => line "SMOV" [scaledName rd, scaledName ra]
  | .sneg rd ra => line "SNEG" [scaledName rd, scaledName ra]
  | .sabs rd ra => line "SABS" [scaledName rd, scaledName ra]
  | .scmpm ra rb => line "SCMPM" [scaledName ra, scaledName rb]
  | .scmp ra rb => line "SCMP" [scaledName ra, scaledName rb]
  | .sadd rd ra rb => line "SADD" [scaledName rd, scaledName ra, scaledName rb]
  | .ssub rd ra rb => line "SSUB" [scaledName rd, scaledName ra, scaledName rb]
  | .smul rd ra rb => line "SMUL" [scaledName rd, scaledName ra, scaledName rb]
  | .smuls rd ra rb => line "SMULS" [scaledName rd, scaledName ra, scaledName rb]
  | .sshld rd imm => line "SSHLD" [scaledName rd, immText imm]
  | .sshrd rd imm => line "SSHRD" [scaledName rd, immText imm]
  | .smuld rd ra => line "SMULD" [scaledName rd, scaledName ra]
  | .saddd rd ra => line "SADDD" [scaledName rd, scaledName ra]
  | .sdivp rd ra imm => line "SDIVP" [scaledName rd, scaledName ra, immText imm]
  | .sdivpr rd ra rb imm => line "SDIVPR" [scaledName rd, scaledName rb, scaledName ra, immText imm]
  | .smodp rd ra imm => line "SMODP" [scaledName rd, scaledName ra, immText imm]
  | .smulp rd ra imm => line "SMULP" [scaledName rd, scaledName ra, immText imm]
  | .sdacc rd => line "SDACC" [scaledName rd]
  | .sfromd rd => line "SFROMD" [scaledName rd]
  | .sfromf rd => line "SFROMF" [scaledName rd]
  | .stod ra => line "STOD" [scaledName ra]
  | .stof ra => line "STOF" [scaledName ra]

/-- What a command takes in `din` (R44, R48). -/
inductive DinUse where
  | none
  | number
  | character
deriving DecidableEq, Repr

/-- The `din` column of the opcode map (R44). -/
def dinUse : Instr → DinUse
  | .rdcfg => .none
  | .rdflags => .none
  | .wzero _ => .none
  | .wldl _ _ => .number
  | .wstl _ _ => .none
  | .wlen _ => .none
  | .waddl _ => .number
  | .wmull _ => .number
  | .wadd _ _ _ => .none
  | .wmul _ _ _ => .none
  | .wdacc _ => .character
  | .wtodec _ => .none
  | .dlen => .none
  | .dget _ => .none
  | .szero _ => .none
  | .sldl _ _ => .number
  | .sstl _ _ => .none
  | .sinfo _ => .none
  | .smov _ _ => .none
  | .sneg _ _ => .none
  | .sabs _ _ => .none
  | .scmpm _ _ => .none
  | .scmp _ _ => .none
  | .sadd _ _ _ => .none
  | .ssub _ _ _ => .none
  | .smul _ _ _ => .none
  | .smuls _ _ _ => .none
  | .sshld _ _ => .none
  | .sshrd _ _ => .none
  | .smuld _ _ => .number
  | .saddd _ _ => .number
  | .sdivp _ _ _ => .none
  | .sdivpr _ _ _ _ => .none
  | .smodp _ _ _ => .none
  | .smulp _ _ _ => .none
  | .sdacc _ => .character
  | .sfromd _ => .number
  | .sfromf _ => .number
  | .stod _ => .none
  | .stof _ => .none

/-- A character operand, `'c'` where the code is a printable ASCII one, else a number. -/
def characterText (din : DataWord) : String :=
  if 0x20 ≤ din.toNat ∧ din.toNat < 0x7F then "'" ++ String.singleton (Char.ofNat din.toNat) ++ "'" else hexText din.toNat

/-- A command with its data operand, which is left out where the command ignores it. -/
def assembly (i : Instr) (din : DataWord) : String :=
  match dinUse i with
  | .none => commandText i
  | .number => commandText i ++ " ; din=" ++ hexText din.toNat
  | .character => commandText i ++ " ; din=" ++ characterText din

/-- The name of a status (R132). -/
def statusText : Status → String
  | .ok => "OK"
  | .raised .capacityOverflow => "CAPACITY_OVERFLOW"
  | .raised .malformedInput => "MALFORMED_INPUT"
  | .raised .domainError => "DOMAIN_ERROR"
  | .raised .illegalCommand => "ILLEGAL_COMMAND"
  | .raised .invalidOperand => "INVALID_OPERAND"

/-- A response: the status, and `dout` where the command ended `OK`. -/
def responseText (r : Response) : String :=
  match r.status with
  | .ok => "-> OK, dout=" ++ hexText r.dout.toNat
  | .raised f => "-> " ++ statusText (.raised f)

end Sys2Proof.Machine
end

