-- ==== Sys2Proof/Machine/Pseudo.lean ====
section
/-! DEFINITION. The pseudo-operations of spec/30_encoding.md rule R52: sequences of host actions that stand for the
string-level and value-level functions. None has an opcode; the core sees the commands only. -/

namespace Sys2Proof.Machine

/-- The host action that issues a command with a data operand. A command that uses no operand takes any (R48). -/
def send (i : Instr) (din : DataWord) : HostAction := .issue (encode i) din

/-- `WFROMDEC wd, "c1 … cn"`: `WZERO wd`, then one `WDACC wd` for each character (R52, R66). -/
def wfromdec (rd : RegField) (chars : List DataWord) : List HostAction :=
  send (.wzero rd) 0 :: chars.map (send (.wdacc rd))

/-- `WTOSTR wa`, for a host that has read `n` from `DLEN`: `WTODEC wa`, `DLEN`, then `DGET #0` to `DGET #(n − 1)` (R52,
R71). -/
def wtostr (ra : RegField) (n : Nat) : List HostAction :=
  send (.wtodec ra) 0 :: send .dlen 0 :: (List.range n).map fun k => send (.dget (BitVec.ofNat 12 k)) 0

/-- `SFROMDEC sd, "[-] c1 … cn"`: `SZERO sd`, one `SDACC sd` for each digit character, then `SNEG sd, sd` only if the
string began with `-` (R52, R112). -/
def sfromdec (rd : RegField) (minus : Bool) (chars : List DataWord) : List HostAction :=
  send (.szero rd) 0 :: chars.map (send (.sdacc rd)) ++ (if minus then [send (.sneg rd rd) 0] else [])

/-- `WLOADI wd, n`: `WZERO wd`, then `WLDL wd, #k` for each nonzero limb `k` of `n` (R52). -/
def wloadi (rd : RegField) (n : Nat) : List HostAction :=
  send (.wzero rd) 0 ::
    ((List.range Config.wCap).filter fun k => n / 2 ^ (64 * k) % 2 ^ 64 != 0).map fun k =>
      send (.wldl rd (BitVec.ofNat 12 k)) (BitVec.ofNat 64 (n / 2 ^ (64 * k)))

/-- `SLOADI sd, ±m`: `SZERO sd`, then `SLDL sd, #k` for each nonzero limb `k` of `m`, then `SNEG sd, sd` if the sign is
`−` and `m ≠ 0` (R52). DESIGN CHOICE (notes/assumptions/17.md): R52 bounds neither `k` nor `m`; the limbs sent are those
below `S_CAP`, so for `m` of `2^(32·S_CAP)` or more the nonzero limbs above are not sent. -/
def sloadi (c : Config) (rd : RegField) (sign : Sign) (m : Nat) : List HostAction :=
  send (.szero rd) 0 ::
    (((List.range c.sCap).filter fun k => m / 2 ^ (32 * k) % 2 ^ 32 != 0).map fun k =>
      send (.sldl rd (BitVec.ofNat 12 k)) (BitVec.ofNat 64 (m / 2 ^ (32 * k) % 2 ^ 32))) ++
    (if sign = .negative ∧ m ≠ 0 then [send (.sneg rd rd) 0] else [])

end Sys2Proof.Machine
end

