-- ==== Sys2Proof/Safety.lean ====
section
/-! DEFINITION. The words the statements about MLAC are made in: the invariants spec/10_state.md gives the registers and
the digit buffer (rules R16, R21, R25), which registers a command reads and writes, and the numbers and texts the
results are described by. -/

namespace Sys2Proof.Machine

/-- The invariant of a valid WideUnsigned register (R16): one to eight limbs, the highest not zero unless the register
is canonical zero. -/
abbrev WideCanonical (a : List WideLimb) : Prop :=
  1 ≤ a.length ∧ a.length ≤ Config.wCap ∧ (a.getLast? = some 0 → a = [0])

/-- The invariant of a valid ScaledInt register of a core with capacity `cap` (R21): at most `cap` limbs, the highest
not zero, and no negative zero. -/
abbrev ScaledCanonical (cap : Nat) (a : ScaledValue) : Prop :=
  a.limbs.length ≤ cap ∧ a.limbs.getLast? ≠ some 0 ∧ (a.limbs = [] → a.sign = .positive)

/-- The decimal text of a number (R67): its decimal digits, most significant first, as ASCII codes; `"0"` for zero. -/
def decimalText (n : Nat) : List Character :=
  (if n = 0 then [0] else Nat.digits 10 n).reverse.map digitChar

/-- The digit buffer (R25, R67): empty before the first `WTODEC`; else 1 to 155 digit characters, with no leading zero
unless the text is `"0"`. -/
abbrev DigitsCanonical (d : List Character) : Prop :=
  d.length ≤ Config.dCap ∧ (∀ c ∈ d, 0x30 ≤ c.toNat ∧ c.toNat ≤ 0x39) ∧ (d.head? = some 0x30 → d = [0x30])

/-- The invariants of the state, which hold at every command boundary (R16, R21, R25). -/
structure State.Inv (s : State) : Prop where
  wide : ∀ r a, s.wideReg r = some a → WideCanonical a
  scaled : ∀ r a, s.scaledReg r = some a → ScaledCanonical s.config.sCap a
  digits : DigitsCanonical s.digits

/-- The integer a ScaledInt register holds, `(−1)^sign · mag` (R20, R91). -/
def ScaledValue.toInt (a : ScaledValue) : Int :=
  match a.sign with
  | .positive => a.mag
  | .negative => -a.mag

/-- `S[rd] <- ` the sign-magnitude form of an integer (R87, R91). -/
def State.writeScaledInt (s : State) (r : RegField) (n : Int) : State :=
  s.writeScaledNat r n.natAbs (Sign.ofBit (decide (n < 0)))

/-- The state in which the command has written one WideUnsigned register and ended `OK`. -/
def State.wroteWide (s : State) (r : RegField) (n : Nat) : State := (s.writeWideNat r n).respond .ok 0

/-- The state in which the command has written one ScaledInt register and ended `OK`. -/
def State.wroteScaled (s : State) (r : RegField) (m : Nat) (sign : Sign) : State :=
  (s.writeScaledNat r m sign).respond .ok 0

/-- The destination registers of a command: what an overflow or a domain error invalidates (R137). -/
def destsOf : Instr → List Dest
  | .rdcfg => []
  | .rdflags => []
  | .wzero rd => [.wide rd]
  | .wldl rd _ => [.wide rd]
  | .wstl _ _ => []
  | .wlen _ => []
  | .waddl rd => [.wide rd]
  | .wmull rd => [.wide rd]
  | .wadd rd _ _ => [.wide rd]
  | .wmul rd _ _ => [.wide rd]
  | .wdacc rd => [.wide rd]
  | .wtodec _ => []
  | .dlen => []
  | .dget _ => []
  | .szero rd => [.scaled rd]
  | .sldl rd _ => [.scaled rd]
  | .sstl _ _ => []
  | .sinfo _ => []
  | .smov rd _ => [.scaled rd]
  | .sneg rd _ => [.scaled rd]
  | .sabs rd _ => [.scaled rd]
  | .scmpm _ _ => []
  | .scmp _ _ => []
  | .sadd rd _ _ => [.scaled rd]
  | .ssub rd _ _ => [.scaled rd]
  | .smul rd _ _ => [.scaled rd]
  | .smuls rd _ _ => [.scaled rd]
  | .sshld rd _ => [.scaled rd]
  | .sshrd rd _ => [.scaled rd]
  | .smuld rd _ => [.scaled rd]
  | .saddd rd _ => [.scaled rd]
  | .sdivp rd _ _ => [.scaled rd]
  | .sdivpr rd _ rb _ => [.scaled rd, .scaled rb]
  | .smodp rd _ _ => [.scaled rd]
  | .smulp rd _ _ => [.scaled rd]
  | .sdacc rd => [.scaled rd]
  | .sfromd rd => [.scaled rd]
  | .sfromf rd => [.scaled rd]
  | .stod _ => []
  | .stof _ => []

/-- The source registers of a command: what must be valid for it to run (R138). An in-place command reads its
destination. -/
def sourcesOf : Instr → List Dest
  | .rdcfg => []
  | .rdflags => []
  | .wzero _ => []
  | .wldl rd _ => [.wide rd]
  | .wstl ra _ => [.wide ra]
  | .wlen ra => [.wide ra]
  | .waddl rd => [.wide rd]
  | .wmull rd => [.wide rd]
  | .wadd _ ra rb => [.wide ra, .wide rb]
  | .wmul _ ra rb => [.wide ra, .wide rb]
  | .wdacc rd => [.wide rd]
  | .wtodec ra => [.wide ra]
  | .dlen => []
  | .dget _ => []
  | .szero _ => []
  | .sldl rd _ => [.scaled rd]
  | .sstl ra _ => [.scaled ra]
  | .sinfo ra => [.scaled ra]
  | .smov _ ra => [.scaled ra]
  | .sneg _ ra => [.scaled ra]
  | .sabs _ ra => [.scaled ra]
  | .scmpm ra rb => [.scaled ra, .scaled rb]
  | .scmp ra rb => [.scaled ra, .scaled rb]
  | .sadd _ ra rb => [.scaled ra, .scaled rb]
  | .ssub _ ra rb => [.scaled ra, .scaled rb]
  | .smul _ ra rb => [.scaled ra, .scaled rb]
  | .smuls _ ra rb => [.scaled ra, .scaled rb]
  | .sshld rd _ => [.scaled rd]
  | .sshrd rd _ => [.scaled rd]
  | .smuld _ ra => [.scaled ra]
  | .saddd _ ra => [.scaled ra]
  | .sdivp _ ra _ => [.scaled ra]
  | .sdivpr _ ra _ _ => [.scaled ra]
  | .smodp _ ra _ => [.scaled ra]
  | .smulp _ ra _ => [.scaled ra]
  | .sdacc rd => [.scaled rd]
  | .sfromd _ => []
  | .sfromf _ => []
  | .stod ra => [.scaled ra]
  | .stof ra => [.scaled ra]

/-- The valid bit `v` of a register (R24). -/
def State.valid (s : State) : Dest → Bool
  | .wide r => (s.wideReg r).isSome
  | .scaled r => (s.scaledReg r).isSome

/-- The number in a WideUnsigned register, 0 for one that holds none. -/
def State.wideNat (s : State) (r : RegField) : Nat :=
  match s.wideReg r with
  | some a => wval a
  | none => 0

/-- The magnitude in a ScaledInt register, 0 for one that holds none. -/
def State.scaledMag (s : State) (r : RegField) : Nat :=
  match s.scaledReg r with
  | some a => a.mag
  | none => 0

/-- The integer in a ScaledInt register, 0 for one that holds none. -/
def State.scaledInt (s : State) (r : RegField) : Int :=
  match s.scaledReg r with
  | some a => a.toInt
  | none => 0

/-- The register is valid and `Negative`. -/
def State.isNegative (s : State) (r : RegField) : Bool :=
  match s.scaledReg r with
  | some a => a.sign == .negative
  | none => false

/-- The restriction a command puts on its operands beyond the valid bits (R138): `SADDD` and `SDACC` take no `Negative`
source, `DGET` no index at or above `dlen`. -/
def restrictionHolds (i : Instr) (s : State) : Bool :=
  match i with
  | .saddd _ ra => !s.isNegative ra
  | .sdacc rd => !s.isNegative rd
  | .dget imm => decide (imm.toNat < s.digits.length)
  | _ => true

/-- Every register operand, and the digit buffer, can be used by the command: no cause of `INVALID_OPERAND` (R138). -/
def operandsUsable (i : Instr) (s : State) : Bool := (sourcesOf i).all s.valid && restrictionHolds i s

/-- `din` is a decimal digit (R48, R134). -/
def dinIsDigit (din : DataWord) : Bool := decide (0x30 ≤ din.toNat) && decide (din.toNat ≤ 0x39)

/-- The fault of step 3 of R53, if the input data has one (R134, R135). -/
def inputFault (i : Instr) (s : State) : Option FaultClass :=
  match i with
  | .wdacc _ => if dinIsDigit s.din then none else some .malformedInput
  | .sdacc _ => if dinIsDigit s.din then none else some .malformedInput
  | .sfromd _ => if binary64.outOfDomain s.config.sCap s.din then some .domainError else none
  | .sfromf _ => if binary32.outOfDomain s.config.sCap s.din then some .domainError else none
  | _ => none

/-- The exact result does not fit the destination (the table of R133). -/
def resultOverflows (i : Instr) (s : State) : Bool :=
  let wideLimit := 2 ^ (Config.limbW * Config.wCap)
  let scaledLimit := 2 ^ (Config.digitW * s.config.sCap)
  let productLimit := 2 ^ (Config.digitW * (s.config.sCap - 1))
  let digit := s.din.toNat - 0x30
  match i with
  | .waddl rd => decide (wideLimit ≤ s.wideNat rd + s.din.toNat)
  | .wmull rd => decide (wideLimit ≤ s.wideNat rd * s.din.toNat)
  | .wadd _ ra rb => decide (wideLimit ≤ s.wideNat ra + s.wideNat rb)
  | .wmul _ ra rb => decide (wideLimit ≤ s.wideNat ra * s.wideNat rb)
  | .wdacc rd => decide (wideLimit ≤ 10 * s.wideNat rd + digit)
  | .sadd _ ra rb => decide (scaledLimit ≤ (s.scaledInt ra + s.scaledInt rb).natAbs)
  | .ssub _ ra rb => decide (scaledLimit ≤ (s.scaledInt ra - s.scaledInt rb).natAbs)
  | .saddd _ ra => decide (scaledLimit ≤ s.scaledMag ra + s.din.toNat)
  | .smuld _ ra => decide (scaledLimit ≤ s.scaledMag ra * s.din.toNat)
  | .smulp _ ra imm => decide (scaledLimit ≤ s.scaledMag ra * 2 ^ imm.toNat)
  | .sdacc rd => decide (scaledLimit ≤ 10 * s.scaledMag rd + digit)
  | .sshld rd imm => decide (scaledLimit ≤ s.scaledMag rd * 2 ^ (Config.digitW * imm.toNat))
  | .smul _ ra rb => decide (productLimit ≤ s.scaledMag ra * s.scaledMag rb)
  | .smuls _ ra rb => decide (productLimit ≤ s.scaledMag ra * s.scaledMag rb)
  | _ => false

/-- The status of a command by the priority of R139: the first cause that applies, else `OK`. -/
def statusOf (i : Instr) (s : State) : Status :=
  if i.legal s.config s.din then
    if operandsUsable i s then
      match inputFault i s with
      | some f => .raised f
      | none => if resultOverflows i s then .raised .capacityOverflow else .ok
    else .raised .invalidOperand
  else .raised .illegalCommand

/-- The magnitude a float pattern denotes in Q64, truncated toward zero: the value form of R118. -/
def FloatFormat.magnitudeOf (f : FloatFormat) (b : DataWord) : Nat :=
  if 0 ≤ f.shiftOf b then f.significandOf b * 2 ^ (f.shiftOf b).toNat
  else f.significandOf b / 2 ^ (-f.shiftOf b).toNat

/-- The state with the host about to issue this word with this data operand. -/
def State.issuing (s : State) (cmd : CommandWord) (din : DataWord) (rest : List HostAction) : State :=
  { s with host := .issue cmd din :: rest }

/-- The state the command of a transaction starts from: the host's action taken, the data operand at hand. -/
def State.executing (s : State) (din : DataWord) (rest : List HostAction) : State :=
  { s with host := rest, din := din }

/-- The effect of a command refused in decode or for its operands: the sticky flag of the class and the response, and
nothing else (R136, R138). -/
def State.refusedWith (s : State) (f : FaultClass) : State :=
  { s with flags := setSticky s.flags f, response := some ⟨.raised f, 0⟩ }

/-- `bitlen`-based count of significant limbs of `n` bits each: `ceil(bitlen(m) / n)` (R17, R22). -/
def limbCount (n m : Nat) : Nat := (bitlen m + n - 1) / n

/-- The number a list of decimal digits spells, the most significant first (R66, R112). -/
def spelled (digits : List Nat) : Nat := digits.foldl (fun n d => 10 * n + d) 0

/-- The data operand that sends a decimal digit as a character (R35). -/
def digitDin (d : Nat) : DataWord := BitVec.ofNat 64 (0x30 + d)

/-- The commands that only read (R37). -/
def isReadOnly : Instr → Bool
  | .rdcfg => true
  | .rdflags => true
  | .wstl _ _ => true
  | .wlen _ => true
  | .dlen => true
  | .dget _ => true
  | .sstl _ _ => true
  | .sinfo _ => true
  | .scmpm _ _ => true
  | .scmp _ _ => true
  | .stod _ => true
  | .stof _ => true
  | _ => false

/-- The pair of word and data operand is a command of a core with parameter `c` (R136). -/
def isCommand (c : Config) (cmd : CommandWord) (din : DataWord) : Bool :=
  match decode cmd with
  | .ok i => i.legal c din
  | .error _ => false

/-- The state after a number of steps of the core: `Host.Core.run` of it. -/
def runFor (k : Nat) (s : State) : Result := Host.Core.run Sys2Proof.core k s

/-- A run is safe when no step of it stops the machine: every step answers a next state. -/
def isNext : Result → Bool
  | .next _ => true
  | .fault _ => false
  | .refused _ => false

end Sys2Proof.Machine
end

