-- ==== Sys2Proof/Certificates/Slice0/Obligations.lean ====
section
/-! DEFINITION. The statements for the provers, from the numbered rules of spec/. They are about every state, command
and operand; where the arithmetic of a register is read by value, the premise `s.Inv` (the invariants of R16, R21 and
R25, themselves kept by every step: `StepKeepsInv`) rules out states no run reaches. -/

open Sys2Proof Sys2Proof.Machine

/-! ### Encoding and decoding -/

/-- Decode and encode agree on every command, with every operand at every value its field has (R42 to R45). -/
def Obligations.DecodeOfEncode : Prop := ∀ i : Instr, decode (encode i) = .ok i

/-- A word has one meaning: the word of the command it decodes to is the word itself (R42 to R45). -/
def Obligations.EncodeOfDecode : Prop := ∀ (cmd : CommandWord) (i : Instr), decode cmd = .ok i → encode i = cmd

/-- R43: a word selects the command of a row of R44 exactly when the masked word is the row's opcode pattern; and no
word selects two rows. -/
def Obligations.DecodeSelectsByMask : Prop := ∀ cmd : CommandWord,
  (∀ i, decode cmd = .ok i →
    ∃ row ∈ opcodeMap, row.op = i.opcode ∧ cmd &&& row.format.mask = pack row.op 0 0 0 0) ∧
  (∀ row ∈ opcodeMap, cmd &&& row.format.mask = pack row.op 0 0 0 0 →
    ∃ i, decode cmd = .ok i ∧ i.opcode = row.op) ∧
  (∀ row ∈ opcodeMap, ∀ row' ∈ opcodeMap, cmd &&& row.format.mask = pack row.op 0 0 0 0 →
    cmd &&& row'.format.mask = pack row'.op 0 0 0 0 → row = row')

/-- The example words the rules of files 40 to 48 print decode to the commands they stand for. -/
def Obligations.WordsOfTheSpecDecode : Prop :=
  decode 0x01000000#32 = .ok .rdcfg ∧
  decode 0x10300000#32 = .ok (.wzero 3) ∧
  decode 0x11000007#32 = .ok (.wldl 0 7) ∧
  decode 0x12000001#32 = .ok (.wstl 0 1) ∧
  decode 0x17201000#32 = .ok (.wmul 2 0 1) ∧
  decode 0x1B000013#32 = .ok (.dget 19) ∧
  decode 0x24100000#32 = .ok (.smov 1 0) ∧
  decode 0x28023000#32 = .ok (.scmp 2 3) ∧
  decode 0x29201000#32 = .ok (.sadd 2 0 1) ∧
  decode 0x32102004#32 = .ok (.sdivpr 1 0 2 4) ∧
  decode 0x33100028#32 = .ok (.smodp 1 0 40) ∧
  decode 0x40000000#32 = .ok (.sfromd 0)

/-- R49: the opcodes outside the map are the listed ranges, and a word with one of them changes nothing but `FLAGS.IL`
(and the host's side: its action is taken, its operand was sent, the response is given). -/
def Obligations.ReservedOpcodeIsIllegal : Prop :=
  (∀ op : BitVec 8, (∀ row ∈ opcodeMap, row.op ≠ op) ↔
    op = 0 ∨ (0x03#8 ≤ op ∧ op ≤ 0x0F#8) ∨ (0x1C#8 ≤ op ∧ op ≤ 0x1F#8) ∨ (0x36#8 ≤ op ∧ op ≤ 0x3F#8) ∨ 0x44#8 ≤ op) ∧
  ∀ (s : State) (cmd : CommandWord) (din : DataWord) (rest : List HostAction),
    (∀ row ∈ opcodeMap, row.op ≠ opOf cmd) →
    step (s.issuing cmd din rest) = .next
      { s with host := rest, din := din, flags := s.flags ||| 0b01000#5,
               response := some ⟨.raised .illegalCommand, 0⟩ }

/-- R45: a word whose opcode is in the map, with a bit set in a field its format does not use, matches no row and is
`ILLEGAL_COMMAND`. -/
def Obligations.UnusedFieldNonzeroIsIllegal : Prop :=
  ∀ (s : State) (cmd : CommandWord) (din : DataWord) (rest : List HostAction), ∀ row ∈ opcodeMap,
    opOf cmd = row.op → cmd &&& row.format.mask &&& 0x00FFFFFF#32 ≠ 0 →
    (∀ row' ∈ opcodeMap, cmd &&& row'.format.mask ≠ pack row'.op 0 0 0 0) ∧
    step (s.issuing cmd din rest) = .next
      { s with host := rest, din := din, flags := s.flags ||| 0b01000#5,
               response := some ⟨.raised .illegalCommand, 0⟩ }

/-- R136: a transaction ends `ILLEGAL_COMMAND` exactly when the pair of word and data operand is not a command of the
core (`isCommand`, which reads no register), and then nothing changes but `FLAGS.IL`. -/
def Obligations.IllegalCommandIsRefused : Prop :=
  ∀ (s : State) (cmd : CommandWord) (din : DataWord) (rest : List HostAction), ∃ t,
    step (s.issuing cmd din rest) = .next t ∧
    (t.response = some ⟨.raised .illegalCommand, 0⟩ ↔ isCommand s.config cmd din = false) ∧
    (isCommand s.config cmd din = false → t =
      { s with host := rest, din := din, flags := s.flags ||| 0b01000#5,
               response := some ⟨.raised .illegalCommand, 0⟩ })

/-! ### The step, reset and the invariants -/

/-- R41, R53: a step in which the host issues a word that decodes to `i` runs `i`, on the state with the host's action
taken and its data operand at hand. -/
def Obligations.StepRunsTheDecodedCommand : Prop :=
  ∀ (s : State) (cmd : CommandWord) (din : DataWord) (rest : List HostAction) (i : Instr), decode cmd = .ok i →
    step (s.issuing cmd din rest) = exec i (s.executing din rest)

/-- R30: what the host's reset leaves, and the state after reset of the model. -/
def Obligations.ResetLeavesTheResetState : Prop :=
  (∀ (s : State) (rest : List HostAction), ∃ t, step { s with host := .reset :: rest } = .next t ∧
    (∀ r : RegField, r.toNat < 8 → t.wideReg r = some [0] ∧ t.scaledReg r = some ⟨[], .positive⟩) ∧
    t.digits = [] ∧ t.flags = 0 ∧ t.config = s.config ∧ configWord t.config = configWord s.config) ∧
  (∀ r : RegField, r.toNat < 8 →
    State.reset.wideReg r = some [0] ∧ State.reset.scaledReg r = some ⟨[], .positive⟩) ∧
  State.reset.digits = [] ∧ State.reset.flags = 0 ∧ configWord State.reset.config = 0x00009B0208080608#64

/-- The model's choice (notes/assumptions/3.md): with no action of the host there is no transaction, and a step changes
nothing of the core and gives no response. -/
def Obligations.IdleStep : Prop := ∀ s : State, s.host = [] → step s = .next { s with response := none }

/-- R30 against R16, R21, R25: the reset state of every core satisfies the invariants. -/
def Obligations.InvAtReset : Prop := State.reset.Inv ∧ ∀ c : Config, (State.resetWith c).Inv

/-- R16, R21, R25: the invariants hold at every command boundary. Every step keeps them, from every state that has
them. -/
def Obligations.StepKeepsInv : Prop := ∀ s t : State, s.Inv → step s = .next t → t.Inv

/-- R131, R141, R153: no command stops the machine; every step answers a next state. -/
def Obligations.EveryStepAnswersNext : Prop := ∀ s : State, ∃ t, step s = .next t

/-- R26, R28, R53: every command gives a response; one that ends `OK` changes no flag, one that ends with a fault
gives `dout = 0` and sets the one flag of its status code. A set flag stays set until reset, which clears all. -/
def Obligations.FlagsRecordTheStatus : Prop :=
  (∀ (i : Instr) (s t : State), exec i s = .next t → ∃ r, t.response = some r ∧
    match r.status with
    | .ok => t.flags = s.flags
    | .raised f => r.dout = 0 ∧ t.flags = s.flags ||| (1#5 <<< ((Status.raised f).code.toNat - 1))) ∧
  (∀ (s t : State) (k : Nat), step s = .next t → (∀ rest, s.host ≠ .reset :: rest) →
    s.flags.getLsbD k = true → t.flags.getLsbD k = true) ∧
  (∀ (s t : State) (rest : List HostAction), s.host = .reset :: rest → step s = .next t → t.flags = 0)

/-! ### What every command changes, and its status -/

/-- R137: the effect of a fault, for every command and every fault class. -/
def Obligations.RaiseEffect : Prop :=
  ∀ (i : Instr) (s t : State) (f : FaultClass) (d : DataWord), exec i s = .next t → t.response = some ⟨.raised f, d⟩ →
    d = 0 ∧ t.flags = s.flags ||| (1#5 <<< ((Status.raised f).code.toNat - 1)) ∧
    (∀ r, t.wideReg r =
      if (f = .capacityOverflow ∨ f = .domainError) ∧ Dest.wide r ∈ destsOf i then none else s.wideReg r) ∧
    (∀ r, t.scaledReg r =
      if (f = .capacityOverflow ∨ f = .domainError) ∧ Dest.scaled r ∈ destsOf i then none else s.scaledReg r) ∧
    t.digits = s.digits ∧ t.config = s.config ∧ t.host = s.host ∧ t.din = s.din

/-- The frame of every command, whatever its status: every register that is not a destination of the command keeps its
value and its valid bit, the digit buffer is written by `WTODEC` only, and the parameter, the host's further actions
and the data operand are untouched. The flags are in `FlagsRecordTheStatus`. -/
def Obligations.FrameOfEveryCommand : Prop :=
  ∀ (i : Instr) (s t : State), exec i s = .next t →
    (∀ r, Dest.wide r ∉ destsOf i → t.wideReg r = s.wideReg r) ∧
    (∀ r, Dest.scaled r ∉ destsOf i → t.scaledReg r = s.scaledReg r) ∧
    ((∀ ra, i ≠ .wtodec ra) → t.digits = s.digits) ∧
    t.config = s.config ∧ t.host = s.host ∧ t.din = s.din

/-- R24: what sets and clears the valid bit, and what it is for. -/
def Obligations.ValidBit : Prop :=
  ∀ (i : Instr) (s t : State), exec i s = .next t →
    (∀ d, t.response = some ⟨.ok, d⟩ → ∀ x ∈ destsOf i, t.valid x = true) ∧
    (∀ x, s.valid x = true → t.valid x = false →
      x ∈ destsOf i ∧
      (t.response = some ⟨.raised .capacityOverflow, 0⟩ ∨ t.response = some ⟨.raised .domainError, 0⟩)) ∧
    (i.legal s.config s.din = true → (∃ x ∈ sourcesOf i, s.valid x = false) →
      t.response = some ⟨.raised .invalidOperand, 0⟩)

/-- R37: the twelve reading commands change no state when they succeed, and repeating one gives the same response. -/
def Obligations.ReadsChangeNothing : Prop :=
  ∀ (i : Instr) (s t : State) (d : DataWord), isReadOnly i = true → exec i s = .next t → t.response = some ⟨.ok, d⟩ →
    t = { s with response := some ⟨.ok, d⟩ } ∧ exec i t = .next t

/-- R138: a legal command ends `INVALID_OPERAND` exactly when one of its register operands, or the digit buffer, cannot
be used, and then nothing changes but `FLAGS.IV`. -/
def Obligations.UnusableOperandIsRefused : Prop :=
  ∀ (i : Instr) (s : State), i.legal s.config s.din = true →
    (operandsUsable i s = false → exec i s = .next
      { s with flags := s.flags ||| 0b10000#5, response := some ⟨.raised .invalidOperand, 0⟩ }) ∧
    (operandsUsable i s = true → ∃ t, exec i s = .next t ∧ t.response ≠ some ⟨.raised .invalidOperand, 0⟩)

/-- R139, with the causes of R133 to R136 and R138: the status of every command is the first cause that applies, in
the order illegal command, invalid operand, malformed input or domain error, capacity overflow; else `OK`. -/
def Obligations.StatusOfEveryCommand : Prop :=
  ∀ (i : Instr) (s : State), s.Inv → ∃ t d, exec i s = .next t ∧ t.response = some ⟨statusOf i s, d⟩

/-- R26, R28, R48: nothing but its own operands decides what a command does. The flags matter to `RDFLAGS` only, the
last response and what the host will do next matter to none, and a command that does not use `din` ignores it. -/
def Obligations.ResultsDependOnOperandsOnly : Prop :=
  (∀ (i : Instr) (s t : State) (flags : BitVec 5) (host : List HostAction) (response : Option Response),
    i ≠ .rdflags → exec i s = .next t →
    ∃ t', exec i { s with flags := flags, host := host, response := response } = .next t' ∧
      t'.response = t.response ∧ t'.wide = t.wide ∧ t'.scaled = t.scaled ∧ t'.digits = t.digits) ∧
  (∀ (i : Instr) (s t : State) (din : DataWord), dinUse i = .none → exec i s = .next t →
    exec i { s with din := din } = .next { t with din := din })

/-! ### The register writes -/

/-- R18: what the write of a number into a WideUnsigned register stores, and that it touches nothing else. -/
def Obligations.WideWriteStoresTheNumber : Prop :=
  ∀ (s : State) (r : RegField) (n : Nat), r.toNat < 8 → n < 2 ^ 512 →
    (∃ l, (s.writeWideNat r n).wideReg r = some l ∧ l.length = max 1 (limbCount 64 n) ∧
      (∀ k < l.length, (limbAt l k).toNat = n / 2 ^ (64 * k) % 2 ^ 64) ∧ wval l = n ∧ WideCanonical l) ∧
    (∀ q, q ≠ r → (s.writeWideNat r n).wideReg q = s.wideReg q) ∧
    s.writeWideNat r n = { s with wide := (s.writeWideNat r n).wide }

/-- R22: what the write of a magnitude and a sign into a ScaledInt register stores, and that it touches nothing
else. -/
def Obligations.ScaledWriteStoresTheNumber : Prop :=
  ∀ (s : State) (r : RegField) (m : Nat) (sign : Sign), r.toNat < 8 → m < 2 ^ (32 * s.config.sCap) →
    (∃ a, (s.writeScaledNat r m sign).scaledReg r = some a ∧ a.limbs.length = limbCount 32 m ∧
      (∀ k < a.limbs.length, (limbAt a.limbs k).toNat = m / 2 ^ (32 * k) % 2 ^ 32) ∧
      a.sign = (if m = 0 then .positive else sign) ∧ a.mag = m ∧ ScaledCanonical s.config.sCap a) ∧
    (∀ q, q ≠ r → (s.writeScaledNat r m sign).scaledReg q = s.scaledReg q) ∧
    s.writeScaledNat r m sign = { s with scaled := (s.writeScaledNat r m sign).scaled }

/-! ### System commands -/

/-- R129, with the fields of R27: `RDCFG` reads the parameters; it can end `OK` only, and changes no state. -/
def Obligations.RdcfgReadsTheParameters : Prop := encode .rdcfg = 0x01000000#32 ∧ ∀ s : State, ∃ d : DataWord,
  exec .rdcfg s = .next (s.respond .ok d) ∧
  (d.extractLsb' 0 8).toNat = 8 ∧ (d.extractLsb' 8 8).toNat = s.config.sCap ∧ (d.extractLsb' 16 8).toNat = 8 ∧
  (d.extractLsb' 24 8).toNat = 8 ∧ (d.extractLsb' 32 8).toNat = 2 ∧ (d.extractLsb' 40 8).toNat = 155 ∧
  (d.extractLsb' 48 16).toNat = 0 ∧ (s.config.sCap = 6 → d = 0x00009B0208080608#64)

/-- R130: `RDFLAGS` reads the five flags, zero-extended, and does not clear them. -/
def Obligations.RdflagsReadsTheFlags : Prop := encode .rdflags = 0x02000000#32 ∧ ∀ s : State, ∃ d : DataWord,
  exec .rdflags s = .next (s.respond .ok d) ∧ d.extractLsb' 0 5 = s.flags ∧ d.extractLsb' 5 59 = 0

/-! ### WideUnsigned commands -/

/-- R54, R75: `WZERO` and `SZERO` make their register canonical zero and valid, whatever it was. -/
def Obligations.ZeroMakesCanonicalZero : Prop := ∀ (rd : RegField) (s : State),
  encode (.wzero rd) = pack 0x10 rd 0 0 0 ∧ encode (.szero rd) = pack 0x20 rd 0 0 0 ∧
  (rd.toNat < 8 →
    exec (.wzero rd) s = .next (s.wroteWide rd 0) ∧ (s.wroteWide rd 0).wideReg rd = some [0] ∧
    exec (.szero rd) s = .next (s.wroteScaled rd 0 .positive) ∧
    (s.wroteScaled rd 0 .positive).scaledReg rd = some ⟨[], .positive⟩) ∧
  (8 ≤ rd.toNat →
    exec (.wzero rd) s = .next (s.refusedWith .illegalCommand) ∧
    exec (.szero rd) s = .next (s.refusedWith .illegalCommand))

/-- R55: `WLDL` replaces limb `imm` of the number by `din` and no other limb; it cannot overflow. -/
def Obligations.WldlReplacesOneLimb : Prop := ∀ (rd : RegField) (imm : Immediate) (s : State), s.Inv → rd.toNat < 8 →
  encode (.wldl rd imm) = pack 0x11 rd 0 0 imm ∧
  (8 ≤ imm.toNat → exec (.wldl rd imm) s = .next (s.refusedWith .illegalCommand)) ∧
  (imm.toNat < 8 → s.wideReg rd = none → exec (.wldl rd imm) s = .next (s.refusedWith .invalidOperand)) ∧
  (∀ a, imm.toNat < 8 → s.wideReg rd = some a →
    ∃ n, n = wval a - wval a / 2 ^ (64 * imm.toNat) % 2 ^ 64 * 2 ^ (64 * imm.toNat) +
        s.din.toNat * 2 ^ (64 * imm.toNat) ∧
      n < 2 ^ 512 ∧
      (∀ k, n / 2 ^ (64 * k) % 2 ^ 64 = if k = imm.toNat then s.din.toNat else wval a / 2 ^ (64 * k) % 2 ^ 64) ∧
      exec (.wldl rd imm) s = .next (s.wroteWide rd n))

/-- R56, R77: `WSTL` and `SSTL` read one limb; a limb at or above `length` or `used` reads as 0. -/
def Obligations.LimbReads : Prop := ∀ (ra : RegField) (imm : Immediate) (s : State), ra.toNat < 8 →
  encode (.wstl ra imm) = pack 0x12 0 ra 0 imm ∧ encode (.sstl ra imm) = pack 0x22 0 ra 0 imm ∧
  (8 ≤ imm.toNat → exec (.wstl ra imm) s = .next (s.refusedWith .illegalCommand)) ∧
  (s.config.sCap ≤ imm.toNat → exec (.sstl ra imm) s = .next (s.refusedWith .illegalCommand)) ∧
  (imm.toNat < 8 → s.wideReg ra = none → exec (.wstl ra imm) s = .next (s.refusedWith .invalidOperand)) ∧
  (imm.toNat < s.config.sCap → s.scaledReg ra = none →
    exec (.sstl ra imm) s = .next (s.refusedWith .invalidOperand)) ∧
  (∀ a, imm.toNat < 8 → s.wideReg ra = some a → ∃ d : DataWord,
    exec (.wstl ra imm) s = .next (s.respond .ok d) ∧ d.toNat = wval a / 2 ^ (64 * imm.toNat) % 2 ^ 64 ∧
    (a.length ≤ imm.toNat → d = 0)) ∧
  (∀ a, imm.toNat < s.config.sCap → s.scaledReg ra = some a → ∃ d : DataWord,
    exec (.sstl ra imm) s = .next (s.respond .ok d) ∧ d.toNat = a.mag / 2 ^ (32 * imm.toNat) % 2 ^ 32 ∧
    (a.limbs.length ≤ imm.toNat → d = 0))

/-- R57, R78: `WLEN` reads `length`, `SINFO` reads `used` and `sign`; both counts follow from the value. -/
def Obligations.LengthReads : Prop := ∀ (ra : RegField) (s : State), s.Inv → ra.toNat < 8 →
  encode (.wlen ra) = pack 0x13 0 ra 0 0 ∧ encode (.sinfo ra) = pack 0x23 0 ra 0 0 ∧
  (s.wideReg ra = none → exec (.wlen ra) s = .next (s.refusedWith .invalidOperand)) ∧
  (s.scaledReg ra = none → exec (.sinfo ra) s = .next (s.refusedWith .invalidOperand)) ∧
  (∀ a, s.wideReg ra = some a → ∃ d : DataWord, exec (.wlen ra) s = .next (s.respond .ok d) ∧ d.toNat = a.length ∧
    a.length = max 1 (limbCount 64 (wval a)) ∧ 1 ≤ a.length ∧ a.length ≤ 8) ∧
  (∀ a, s.scaledReg ra = some a → ∃ d : DataWord, exec (.sinfo ra) s = .next (s.respond .ok d) ∧
    (d.extractLsb' 0 8).toNat = a.limbs.length ∧ d.getLsbD 8 = decide (a.sign = .negative) ∧ d.extractLsb' 9 55 = 0 ∧
    a.limbs.length = limbCount 32 a.mag ∧ d ≠ 0x100)

/-- The value form of R59 (the spec marks it as derived from the loop), with the overflow of R63. -/
def Obligations.WaddlAddsExactly : Prop := ∀ (rd : RegField) (s : State) (a : List WideLimb),
  s.Inv → rd.toNat < 8 → s.wideReg rd = some a →
  (wval a + s.din.toNat < 2 ^ 512 → exec (.waddl rd) s = .next (s.wroteWide rd (wval a + s.din.toNat))) ∧
  (2 ^ 512 ≤ wval a + s.din.toNat → exec (.waddl rd) s = .next (s.faulted .capacityOverflow [.wide rd])) ∧
  (s.din = 0 → (s.wroteWide rd (wval a + s.din.toNat)).wideReg rd = some a)

/-- The value form of R60 (the spec marks it as derived from the loop), with the overflow of R63. -/
def Obligations.WmullMultipliesExactly : Prop := ∀ (rd : RegField) (s : State) (a : List WideLimb),
  s.Inv → rd.toNat < 8 → s.wideReg rd = some a →
  (wval a * s.din.toNat < 2 ^ 512 → exec (.wmull rd) s = .next (s.wroteWide rd (wval a * s.din.toNat))) ∧
  (2 ^ 512 ≤ wval a * s.din.toNat → exec (.wmull rd) s = .next (s.faulted .capacityOverflow [.wide rd])) ∧
  (s.din = 0 → (s.wroteWide rd (wval a * s.din.toNat)).wideReg rd = some [0])

/-- The value form of R61 (the spec marks it as derived from the loop), with the overflow of R63. -/
def Obligations.WaddAddsExactly : Prop := ∀ (rd ra rb : RegField) (s : State) (a b : List WideLimb),
  s.Inv → rd.toNat < 8 → ra.toNat < 8 → rb.toNat < 8 → rd ≠ ra → rd ≠ rb →
  s.wideReg ra = some a → s.wideReg rb = some b →
  (wval a + wval b < 2 ^ 512 → exec (.wadd rd ra rb) s = .next (s.wroteWide rd (wval a + wval b))) ∧
  (2 ^ 512 ≤ wval a + wval b → exec (.wadd rd ra rb) s = .next (s.faulted .capacityOverflow [.wide rd]))

/-- The value form of R62 (the spec marks it as derived from the loops and R58), with the overflow of R63: overflow is
decided by the product, not by the lengths. -/
def Obligations.WmulMultipliesExactly : Prop := ∀ (rd ra rb : RegField) (s : State) (a b : List WideLimb),
  s.Inv → rd.toNat < 8 → ra.toNat < 8 → rb.toNat < 8 → rd ≠ ra → rd ≠ rb →
  s.wideReg ra = some a → s.wideReg rb = some b →
  (wval a * wval b < 2 ^ 512 → exec (.wmul rd ra rb) s = .next (s.wroteWide rd (wval a * wval b))) ∧
  (2 ^ 512 ≤ wval a * wval b → exec (.wmul rd ra rb) s = .next (s.faulted .capacityOverflow [.wide rd]))

/-- R64: swapping the sources of `WADD` or `WMUL` changes nothing, neither the status nor the register written, and a
result is in canonical form. -/
def Obligations.WideSumsAndProductsCommute : Prop := ∀ (rd ra rb : RegField) (s : State), s.Inv →
  exec (.wadd rd ra rb) s = exec (.wadd rd rb ra) s ∧ exec (.wmul rd ra rb) s = exec (.wmul rd rb ra) s ∧
  (∀ t d a, exec (.wadd rd ra rb) s = .next t → t.response = some ⟨.ok, d⟩ → t.wideReg rd = some a → WideCanonical a) ∧
  (∀ t d a, exec (.wmul rd ra rb) s = .next t → t.response = some ⟨.ok, d⟩ → t.wideReg rd = some a → WideCanonical a)

/-- The value form of R65 (the spec marks it as derived), with R134: a digit is accumulated exactly or overflows; any
other `din` is malformed, as 64 bits, and leaves every register as it is. -/
def Obligations.WdaccAccumulatesADigit : Prop := ∀ (rd : RegField) (s : State) (a : List WideLimb),
  s.Inv → rd.toNat < 8 → s.wideReg rd = some a →
  encode (.wdacc rd) = pack 0x18 rd 0 0 0 ∧
  (∀ digit < 10, s.din.toNat = 0x30 + digit →
    (10 * wval a + digit < 2 ^ 512 → exec (.wdacc rd) s = .next (s.wroteWide rd (10 * wval a + digit))) ∧
    (2 ^ 512 ≤ 10 * wval a + digit → exec (.wdacc rd) s = .next (s.faulted .capacityOverflow [.wide rd]))) ∧
  (s.din.toNat < 0x30 ∨ 0x39 < s.din.toNat → exec (.wdacc rd) s = .next
    { s with flags := s.flags ||| 0b00010#5, response := some ⟨.raised .malformedInput, 0⟩ })

/-- R67: `WTODEC` writes the decimal digits of the number into the digit buffer, most significant first, with no
leading zero, `"0"` for zero; refused, it leaves the buffer. -/
def Obligations.WtodecWritesTheDecimalText : Prop := ∀ (ra : RegField) (s : State), s.Inv → ra.toNat < 8 →
  encode (.wtodec ra) = pack 0x19 0 ra 0 0 ∧
  (∀ a, s.wideReg ra = some a →
    exec (.wtodec ra) s = .next { s with digits := decimalText (wval a), response := some ⟨.ok, 0⟩ } ∧
    1 ≤ (decimalText (wval a)).length ∧ (decimalText (wval a)).length ≤ 155) ∧
  (s.wideReg ra = none → exec (.wtodec ra) s = .next
    { s with flags := s.flags ||| 0b10000#5, response := some ⟨.raised .invalidOperand, 0⟩ })

/-- R69, R70: `DLEN` reads the number of characters, `DGET` one character; the three ranges of its index. -/
def Obligations.DigitBufferReads : Prop := ∀ s : State, s.Inv →
  encode .dlen = 0x1A000000#32 ∧ (∀ imm, encode (.dget imm) = pack 0x1B 0 0 0 imm) ∧
  (∃ d : DataWord, exec .dlen s = .next (s.respond .ok d) ∧ d.toNat = s.digits.length) ∧
  (∀ imm : Immediate,
    (155 ≤ imm.toNat → exec (.dget imm) s = .next
      { s with flags := s.flags ||| 0b01000#5, response := some ⟨.raised .illegalCommand, 0⟩ }) ∧
    (imm.toNat < 155 → s.digits.length ≤ imm.toNat → exec (.dget imm) s = .next
      { s with flags := s.flags ||| 0b10000#5, response := some ⟨.raised .invalidOperand, 0⟩ }) ∧
    (∀ c, s.digits[imm.toNat]? = some c → ∃ d : DataWord, exec (.dget imm) s = .next (s.respond .ok d) ∧
      d.toNat = c.toNat ∧ 0x30 ≤ d.toNat ∧ d.toNat ≤ 0x39))

/-! ### ScaledInt commands -/

/-- R76: `SLDL` replaces limb `imm` of the magnitude by `din` and no other limb, and keeps the sign; it cannot
overflow. -/
def Obligations.SldlReplacesOneLimb : Prop := ∀ (rd : RegField) (imm : Immediate) (s : State), s.Inv → rd.toNat < 8 →
  encode (.sldl rd imm) = pack 0x21 rd 0 0 imm ∧
  (s.config.sCap ≤ imm.toNat ∨ 2 ^ 32 ≤ s.din.toNat →
    exec (.sldl rd imm) s = .next (s.refusedWith .illegalCommand)) ∧
  (imm.toNat < s.config.sCap → s.din.toNat < 2 ^ 32 → s.scaledReg rd = none →
    exec (.sldl rd imm) s = .next (s.refusedWith .invalidOperand)) ∧
  (∀ a, imm.toNat < s.config.sCap → s.din.toNat < 2 ^ 32 → s.scaledReg rd = some a →
    ∃ m, m = a.mag - a.mag / 2 ^ (32 * imm.toNat) % 2 ^ 32 * 2 ^ (32 * imm.toNat) +
        s.din.toNat * 2 ^ (32 * imm.toNat) ∧
      m < 2 ^ (32 * s.config.sCap) ∧
      (∀ k, m / 2 ^ (32 * k) % 2 ^ 32 = if k = imm.toNat then s.din.toNat else a.mag / 2 ^ (32 * k) % 2 ^ 32) ∧
      exec (.sldl rd imm) s = .next (s.wroteScaled rd m a.sign))

/-- R79 to R81: `SMOV` copies, `SNEG` flips the sign, `SABS` makes it `Positive`; there is no negative zero. -/
def Obligations.SignMoves : Prop := ∀ (rd ra : RegField) (s : State), s.Inv → rd.toNat < 8 → ra.toNat < 8 →
  encode (.smov rd ra) = pack 0x24 rd ra 0 0 ∧ encode (.sneg rd ra) = pack 0x25 rd ra 0 0 ∧
  encode (.sabs rd ra) = pack 0x26 rd ra 0 0 ∧
  (s.scaledReg ra = none → ∀ i ∈ [Instr.smov rd ra, .sneg rd ra, .sabs rd ra],
    exec i s = .next (s.refusedWith .invalidOperand)) ∧
  (∀ a, s.scaledReg ra = some a →
    exec (.smov rd ra) s = .next (s.wroteScaled rd a.mag a.sign) ∧
    (s.wroteScaled rd a.mag a.sign).scaledReg rd = some a ∧
    exec (.sneg rd ra) s = .next (s.wroteScaled rd a.mag a.sign.flip) ∧
    exec (.sneg rd ra) s = .next ((s.writeScaledInt rd (-a.toInt)).respond .ok 0) ∧
    exec (.sabs rd ra) s = .next (s.wroteScaled rd a.mag .positive))

/-- R83, R84: the ordering is of the magnitudes for `SCMPM` and of the signed values for `SCMP`; `LT = 0`, `EQ = 1`,
`GT = 2`. The comparison by value is what the spec derives from R82 and R21. -/
def Obligations.ComparesByValue : Prop := ∀ (ra rb : RegField) (s : State) (a b : ScaledValue),
  s.Inv → ra.toNat < 8 → rb.toNat < 8 → s.scaledReg ra = some a → s.scaledReg rb = some b →
  exec (.scmpm ra rb) s = .next (s.respond .ok (if a.mag < b.mag then 0 else if a.mag = b.mag then 1 else 2)) ∧
  exec (.scmp ra rb) s = .next (s.respond .ok (if a.toInt < b.toInt then 0 else if a.toInt = b.toInt then 1 else 2))

/-- The value form of R87 (the spec marks it as derived), for `SADD` (R88) and `SSUB` (R89): exact signed addition and
subtraction, or overflow; any of the three registers may be the same. -/
def Obligations.SaddSsubAreExact : Prop := ∀ (rd ra rb : RegField) (s : State) (a b : ScaledValue),
  s.Inv → rd.toNat < 8 → ra.toNat < 8 → rb.toNat < 8 → s.scaledReg ra = some a → s.scaledReg rb = some b →
  ((a.toInt + b.toInt).natAbs < 2 ^ (32 * s.config.sCap) →
    exec (.sadd rd ra rb) s = .next ((s.writeScaledInt rd (a.toInt + b.toInt)).respond .ok 0)) ∧
  (2 ^ (32 * s.config.sCap) ≤ (a.toInt + b.toInt).natAbs →
    exec (.sadd rd ra rb) s = .next (s.faulted .capacityOverflow [.scaled rd])) ∧
  ((a.toInt - b.toInt).natAbs < 2 ^ (32 * s.config.sCap) →
    exec (.ssub rd ra rb) s = .next ((s.writeScaledInt rd (a.toInt - b.toInt)).respond .ok 0)) ∧
  (2 ^ (32 * s.config.sCap) ≤ (a.toInt - b.toInt).natAbs →
    exec (.ssub rd ra rb) s = .next (s.faulted .capacityOverflow [.scaled rd]))

/-- R90: `SADDD` adds the digit to a `Positive` source, overflows at `2^(32·S_CAP)`, and refuses a `Negative` or invalid
source. -/
def Obligations.SadddAddsADigit : Prop := ∀ (rd ra : RegField) (s : State), s.Inv → rd.toNat < 8 → ra.toNat < 8 →
  encode (.saddd rd ra) = pack 0x30 rd ra 0 0 ∧
  (2 ^ 32 ≤ s.din.toNat → exec (.saddd rd ra) s = .next (s.refusedWith .illegalCommand)) ∧
  (s.din.toNat < 2 ^ 32 →
    (s.scaledReg ra = none ∨ (∃ a, s.scaledReg ra = some a ∧ a.sign = .negative) →
      exec (.saddd rd ra) s = .next (s.refusedWith .invalidOperand)) ∧
    (∀ a, s.scaledReg ra = some a → a.sign = .positive →
      (a.mag + s.din.toNat < 2 ^ (32 * s.config.sCap) →
        exec (.saddd rd ra) s = .next (s.wroteScaled rd (a.mag + s.din.toNat) .positive)) ∧
      (2 ^ (32 * s.config.sCap) ≤ a.mag + s.din.toNat →
        exec (.saddd rd ra) s = .next (s.faulted .capacityOverflow [.scaled rd]))))

/-- R102: `SMULD` multiplies by the digit and keeps the sign; the limit is the full capacity. -/
def Obligations.SmuldMultipliesByADigit : Prop := ∀ (rd ra : RegField) (s : State), s.Inv → rd.toNat < 8 →
  ra.toNat < 8 →
  encode (.smuld rd ra) = pack 0x2F rd ra 0 0 ∧
  (2 ^ 32 ≤ s.din.toNat → exec (.smuld rd ra) s = .next (s.refusedWith .illegalCommand)) ∧
  (s.din.toNat < 2 ^ 32 →
    (s.scaledReg ra = none → exec (.smuld rd ra) s = .next (s.refusedWith .invalidOperand)) ∧
    (∀ a, s.scaledReg ra = some a →
      (a.mag * s.din.toNat < 2 ^ (32 * s.config.sCap) →
        exec (.smuld rd ra) s = .next (s.wroteScaled rd (a.mag * s.din.toNat) a.sign)) ∧
      (2 ^ (32 * s.config.sCap) ≤ a.mag * s.din.toNat →
        exec (.smuld rd ra) s = .next (s.faulted .capacityOverflow [.scaled rd]))))

/-- R100, with the sign of R97 and the limit of R99: `SMUL` is the exact integer product with the exclusive-or of the
signs; its limit is `S_CAP − 1` limbs. -/
def Obligations.SmulMultipliesExactly : Prop := ∀ (rd ra rb : RegField) (s : State), s.Inv → rd.toNat < 8 →
  ra.toNat < 8 → rb.toNat < 8 →
  encode (.smul rd ra rb) = pack 0x2B rd ra rb 0 ∧
  (s.scaledReg ra = none ∨ s.scaledReg rb = none →
    exec (.smul rd ra rb) s = .next (s.refusedWith .invalidOperand)) ∧
  (∀ a b, s.scaledReg ra = some a → s.scaledReg rb = some b →
    (a.mag * b.mag < 2 ^ (32 * (s.config.sCap - 1)) → exec (.smul rd ra rb) s =
      .next (s.wroteScaled rd (a.mag * b.mag) (if a.sign ≠ b.sign then .negative else .positive))) ∧
    (2 ^ (32 * (s.config.sCap - 1)) ≤ a.mag * b.mag →
      exec (.smul rd ra rb) s = .next (s.faulted .capacityOverflow [.scaled rd])))

/-- R101: `SMULS` is the product, which must fit first, without its low 64 bits: Q64 multiplication truncated toward
zero. -/
def Obligations.SmulsRescalesTheProduct : Prop := ∀ (rd ra rb : RegField) (s : State), s.Inv → rd.toNat < 8 →
  ra.toNat < 8 → rb.toNat < 8 →
  encode (.smuls rd ra rb) = pack 0x2C rd ra rb 0 ∧
  (s.scaledReg ra = none ∨ s.scaledReg rb = none →
    exec (.smuls rd ra rb) s = .next (s.refusedWith .invalidOperand)) ∧
  (∀ a b, s.scaledReg ra = some a → s.scaledReg rb = some b →
    (a.mag * b.mag < 2 ^ (32 * (s.config.sCap - 1)) → exec (.smuls rd ra rb) s =
      .next (s.wroteScaled rd (a.mag * b.mag / 2 ^ 64) (if a.sign ≠ b.sign then .negative else .positive))) ∧
    (2 ^ (32 * (s.config.sCap - 1)) ≤ a.mag * b.mag →
      exec (.smuls rd ra rb) s = .next (s.faulted .capacityOverflow [.scaled rd])))

/-- R103, R104: `SSHLD` and `SSHRD` shift the magnitude by whole limbs and keep the sign; zero shifts left by any count;
what a right shift drops is lost without a fault. -/
def Obligations.LimbShifts : Prop := ∀ (rd : RegField) (imm : Immediate) (s : State), s.Inv → rd.toNat < 8 →
  encode (.sshld rd imm) = pack 0x2D rd 0 0 imm ∧ encode (.sshrd rd imm) = pack 0x2E rd 0 0 imm ∧
  (s.scaledReg rd = none → exec (.sshld rd imm) s = .next (s.refusedWith .invalidOperand) ∧
    exec (.sshrd rd imm) s = .next (s.refusedWith .invalidOperand)) ∧
  (∀ a, s.scaledReg rd = some a →
    (a.mag = 0 ∨ a.limbs.length + imm.toNat ≤ s.config.sCap →
      exec (.sshld rd imm) s = .next (s.wroteScaled rd (a.mag * 2 ^ (32 * imm.toNat)) a.sign)) ∧
    (a.mag ≠ 0 ∧ s.config.sCap < a.limbs.length + imm.toNat →
      exec (.sshld rd imm) s = .next (s.faulted .capacityOverflow [.scaled rd])) ∧
    exec (.sshrd rd imm) s = .next (s.wroteScaled rd (a.mag / 2 ^ (32 * imm.toNat)) a.sign))

/-- R106, R107, R110: the modulus and the quotient by a power of two, on the magnitude, with the sign of the source. -/
def Obligations.DivideAndModuloByPowerOfTwo : Prop := ∀ (rd ra : RegField) (imm : Immediate) (s : State), s.Inv →
  rd.toNat < 8 → ra.toNat < 8 →
  encode (.sdivp rd ra imm) = pack 0x31 rd ra 0 imm ∧ encode (.smodp rd ra imm) = pack 0x33 rd ra 0 imm ∧
  (s.scaledReg ra = none → exec (.sdivp rd ra imm) s = .next (s.refusedWith .invalidOperand) ∧
    exec (.smodp rd ra imm) s = .next (s.refusedWith .invalidOperand)) ∧
  (∀ a, s.scaledReg ra = some a →
    exec (.sdivp rd ra imm) s = .next (s.wroteScaled rd (a.mag / 2 ^ imm.toNat) a.sign) ∧
    exec (.smodp rd ra imm) s = .next (s.wroteScaled rd (a.mag % 2 ^ imm.toNat) a.sign))

/-- R108: `SDIVPR` writes the quotient into `rd` and the remainder into `rb`, each with the sign of the source, read
before either write; together they give the source back. `rd = rb` is refused. -/
def Obligations.SdivprQuotientAndRemainder : Prop := ∀ (rd ra rb : RegField) (imm : Immediate) (s : State), s.Inv →
  rd.toNat < 8 → ra.toNat < 8 → rb.toNat < 8 →
  encode (.sdivpr rd ra rb imm) = pack 0x32 rd ra rb imm ∧
  (rd = rb → exec (.sdivpr rd ra rb imm) s = .next (s.refusedWith .illegalCommand)) ∧
  (rd ≠ rb → s.scaledReg ra = none → exec (.sdivpr rd ra rb imm) s = .next (s.refusedWith .invalidOperand)) ∧
  (∀ a, rd ≠ rb → s.scaledReg ra = some a → ∃ t q r, exec (.sdivpr rd ra rb imm) s = .next t ∧
    t = ((s.writeScaledNat rb (a.mag % 2 ^ imm.toNat) a.sign).writeScaledNat rd (a.mag / 2 ^ imm.toNat) a.sign).respond
      .ok 0 ∧
    t.scaledReg rd = some q ∧ t.scaledReg rb = some r ∧
    q.mag = a.mag / 2 ^ imm.toNat ∧ r.mag = a.mag % 2 ^ imm.toNat ∧
    q.mag * 2 ^ imm.toNat + r.mag = a.mag ∧ q.toInt * 2 ^ imm.toNat + r.toInt = a.toInt)

/-- R109: `SMULP` multiplies by a power of two and keeps the sign; overflow is decided by the value. -/
def Obligations.SmulpMultipliesByPowerOfTwo : Prop := ∀ (rd ra : RegField) (imm : Immediate) (s : State), s.Inv →
  rd.toNat < 8 → ra.toNat < 8 →
  encode (.smulp rd ra imm) = pack 0x34 rd ra 0 imm ∧
  (s.scaledReg ra = none → exec (.smulp rd ra imm) s = .next (s.refusedWith .invalidOperand)) ∧
  (∀ a, s.scaledReg ra = some a →
    (a.mag * 2 ^ imm.toNat < 2 ^ (32 * s.config.sCap) →
      exec (.smulp rd ra imm) s = .next (s.wroteScaled rd (a.mag * 2 ^ imm.toNat) a.sign)) ∧
    (2 ^ (32 * s.config.sCap) ≤ a.mag * 2 ^ imm.toNat →
      exec (.smulp rd ra imm) s = .next (s.faulted .capacityOverflow [.scaled rd])))

/-- R111: `SDACC` accumulates a digit into a `Positive` register, overflows at `2^(32·S_CAP)`, refuses a `Negative` or
invalid register before it looks at the character, and reports any other character as malformed. -/
def Obligations.SdaccAccumulatesADigit : Prop := ∀ (rd : RegField) (s : State), s.Inv → rd.toNat < 8 →
  encode (.sdacc rd) = pack 0x35 rd 0 0 0 ∧
  (∀ a, s.scaledReg rd = some a → a.sign = .positive →
    (∀ digit < 10, s.din.toNat = 0x30 + digit →
      (10 * a.mag + digit < 2 ^ (32 * s.config.sCap) →
        exec (.sdacc rd) s = .next (s.wroteScaled rd (10 * a.mag + digit) .positive)) ∧
      (2 ^ (32 * s.config.sCap) ≤ 10 * a.mag + digit →
        exec (.sdacc rd) s = .next (s.faulted .capacityOverflow [.scaled rd]))) ∧
    (s.din.toNat < 0x30 ∨ 0x39 < s.din.toNat → exec (.sdacc rd) s = .next
      { s with flags := s.flags ||| 0b00010#5, response := some ⟨.raised .malformedInput, 0⟩ })) ∧
  (s.scaledReg rd = none ∨ (∃ a, s.scaledReg rd = some a ∧ a.sign = .negative) → exec (.sdacc rd) s = .next
    { s with flags := s.flags ||| 0b10000#5, response := some ⟨.raised .invalidOperand, 0⟩ })

/-! ### The float codec -/

/-- R115, R116: the fields of a binary64 and a binary32 pattern. -/
def Obligations.FloatFieldsOfAPattern : Prop := ∀ b : DataWord,
  binary64.signOf b = Sign.ofBit (b.getLsbD 63) ∧ binary64.exponentOf b = (b.extractLsb' 52 11).toNat ∧
  binary64.unbiasedOf b = ((b.extractLsb' 52 11).toNat : Int) - 1023 ∧
  binary64.significandOf b = 2 ^ 52 + (b.extractLsb' 0 52).toNat ∧
  binary32.signOf b = Sign.ofBit (b.getLsbD 31) ∧ binary32.exponentOf b = (b.extractLsb' 23 8).toNat ∧
  binary32.unbiasedOf b = ((b.extractLsb' 23 8).toNat : Int) - 127 ∧
  binary32.significandOf b = 2 ^ 23 + (b.extractLsb' 0 23).toNat

/-- R121, R122 (with R117 to R120): a pattern in the domain is written as `sig · 2^ts`, truncated toward zero, with its
sign; one with an all-ones exponent field or its highest bit beyond the capacity is a domain error. `e` is the exponent
and `ts` the shift of the pattern. -/
def Obligations.FloatPatternsExtract : Prop := ∀ (rd : RegField) (s : State), rd.toNat < 8 →
  encode (.sfromd rd) = pack 0x40 rd 0 0 0 ∧ encode (.sfromf rd) = pack 0x41 rd 0 0 0 ∧
  (2 ^ 32 ≤ s.din.toNat → exec (.sfromf rd) s = .next (s.refusedWith .illegalCommand)) ∧
  (∀ e ts : Int, e = binary64.unbiasedOf s.din → ts = e + 12 →
    (binary64.exponentOf s.din = 0x7FF ∨ 32 * (s.config.sCap : Int) ≤ e + 64 →
      exec (.sfromd rd) s = .next (s.faulted .domainError [.scaled rd])) ∧
    (binary64.exponentOf s.din ≠ 0x7FF → e + 64 < 32 * (s.config.sCap : Int) →
      exec (.sfromd rd) s = .next (s.wroteScaled rd
        (if 0 ≤ ts then binary64.significandOf s.din * 2 ^ ts.toNat else binary64.significandOf s.din / 2 ^ (-ts).toNat)
        (binary64.signOf s.din)))) ∧
  (s.din.toNat < 2 ^ 32 → ∀ e ts : Int, e = binary32.unbiasedOf s.din → ts = e + 41 →
    (binary32.exponentOf s.din = 0xFF ∨ 32 * (s.config.sCap : Int) ≤ e + 64 →
      exec (.sfromf rd) s = .next (s.faulted .domainError [.scaled rd])) ∧
    (binary32.exponentOf s.din ≠ 0xFF → e + 64 < 32 * (s.config.sCap : Int) →
      exec (.sfromf rd) s = .next (s.wroteScaled rd
        (if 0 ≤ ts then binary32.significandOf s.din * 2 ^ ts.toNat else binary32.significandOf s.din / 2 ^ (-ts).toNat)
        (binary32.signOf s.din))))

/-- R125, R126 (with R123): `STOD` and `STOF` read the window `mag mod 2^96` rounded once, with the register's sign; a
zero window reads as a zero of that sign. -/
def Obligations.FloatPatternsAssemble : Prop := ∀ (ra : RegField) (s : State), ra.toNat < 8 →
  encode (.stod ra) = pack 0x42 0 ra 0 0 ∧ encode (.stof ra) = pack 0x43 0 ra 0 0 ∧
  (s.scaledReg ra = none → exec (.stod ra) s = .next (s.refusedWith .invalidOperand) ∧
    exec (.stof ra) s = .next (s.refusedWith .invalidOperand)) ∧
  (∀ (a : ScaledValue) (w sgn : Nat), s.scaledReg ra = some a → w = a.mag % 2 ^ 96 →
    sgn = (if a.sign = .negative then 1 else 0) →
    (∃ d : DataWord, exec (.stod ra) s = .next (s.respond .ok d) ∧
      d.toNat = if w = 0 then sgn * 2 ^ 63
        else sgn * 2 ^ 63 + (binary64.round w).1 * 2 ^ 52 + (binary64.round w).2) ∧
    (∃ d : DataWord, exec (.stof ra) s = .next (s.respond .ok d) ∧
      d.toNat = if w = 0 then sgn * 2 ^ 31
        else sgn * 2 ^ 31 + (binary32.round w).1 * 2 ^ 23 + (binary32.round w).2))

/-- R124: rounding is to nearest, ties to even, and exact where the window fits the mantissa. For a window value `w`
with fields `E`, `F`, the number read back is `(2^MB + F) · 2^(E − bias − MB)` and the number rounded `w · 2^-64`; both
are compared after multiplication by `2^(64 + MB)`. -/
def Obligations.RoundIsToNearestEven : Prop := ∀ f ∈ [binary64, binary32], ∀ w E F : Nat, 0 < w → w < 2 ^ 96 →
  f.round w = (E, F) →
  F < 2 ^ f.mantissaBits ∧ f.bias ≤ E + 64 ∧ E ≤ f.bias + 32 ∧
  ∀ v : Nat, v = (2 ^ f.mantissaBits + F) * 2 ^ (E + 64 - f.bias) →
    2 * ((v : Int) - w * 2 ^ f.mantissaBits).natAbs ≤ 2 ^ (bitlen w - 1) ∧
    (2 * ((v : Int) - w * 2 ^ f.mantissaBits).natAbs = 2 ^ (bitlen w - 1) → F % 2 = 0) ∧
    (∀ sig k : Nat, sig < 2 ^ (f.mantissaBits + 1) → w = sig * 2 ^ k → v = w * 2 ^ f.mantissaBits)

/-- R127 (the spec marks it as derived from R118, R123, R124): a pattern whose value is exactly representable in the
window comes back unchanged from the register it was extracted into. The condition is `−64 ≤ e ≤ 31` and, for a right
shift, enough trailing zeros of the significand. -/
def Obligations.FloatPatternsRoundTrip : Prop := ∀ (rd : RegField) (s : State), rd.toNat < 8 →
  (-64 ≤ binary64.unbiasedOf s.din → binary64.unbiasedOf s.din ≤ 31 →
    (binary64.shiftOf s.din < 0 → 2 ^ (-binary64.shiftOf s.din).toNat ∣ binary64.significandOf s.din) →
    ∃ t, exec (.sfromd rd) s = .next t ∧ exec (.stod rd) t = .next (t.respond .ok s.din)) ∧
  (s.din.toNat < 2 ^ 32 → -64 ≤ binary32.unbiasedOf s.din → binary32.unbiasedOf s.din ≤ 31 →
    (binary32.shiftOf s.din < 0 → 2 ^ (-binary32.shiftOf s.din).toNat ∣ binary32.significandOf s.din) →
    ∃ t, exec (.sfromf rd) s = .next t ∧ exec (.stof rd) t = .next (t.respond .ok s.din))

/-! ### Sequences of commands -/

/-- R66 (the spec marks it as derived from R65): the commands of `WFROMDEC` read a digit string. -/
def Obligations.WfromdecReadsTheNumber : Prop :=
  ∀ (rd : RegField) (s : State) (digits : List Nat) (rest : List HostAction), rd.toNat < 8 → (∀ d ∈ digits, d < 10) →
    s.host = wfromdec rd (digits.map digitDin) ++ rest →
    ∃ t, runFor (digits.length + 1) s = .next t ∧ t.host = rest ∧
      (spelled digits < 2 ^ 512 → t.wideReg rd = some (wideOfNat (spelled digits)) ∧ t.flags = s.flags) ∧
      (2 ^ 512 ≤ spelled digits → t.wideReg rd = none ∧ t.flags.getLsbD 0 = true)

/-- R112: the commands of `SFROMDEC` read a signed digit string; the sign is set last, so there is no negative zero. -/
def Obligations.SfromdecReadsTheNumber : Prop :=
  ∀ (rd : RegField) (s : State) (minus : Bool) (digits : List Nat) (rest : List HostAction), rd.toNat < 8 →
    (∀ d ∈ digits, d < 10) → s.host = sfromdec rd minus (digits.map digitDin) ++ rest →
    ∃ t, runFor (digits.length + 1 + if minus then 1 else 0) s = .next t ∧ t.host = rest ∧
      (spelled digits < 2 ^ (32 * s.config.sCap) →
        t.scaledReg rd = some (scaledOfNat s.config (spelled digits) (if minus then .negative else .positive)) ∧
        t.flags = s.flags) ∧
      (2 ^ (32 * s.config.sCap) ≤ spelled digits → t.scaledReg rd = none ∧ t.flags.getLsbD 0 = true)

/-- R72: reading a digit string and rendering it gives the string without its leading zeros, or `"0"`. -/
def Obligations.DecimalTextRoundTrips : Prop :=
  ∀ (rd : RegField) (s : State) (digits : List Nat) (rest : List HostAction), rd.toNat < 8 → (∀ d ∈ digits, d < 10) →
    spelled digits < 2 ^ 512 → s.host = wfromdec rd (digits.map digitDin) ++ send (.wtodec rd) 0 :: rest →
    ∃ t, runFor (digits.length + 2) s = .next t ∧ t.host = rest ∧
      t.digits = (match digits.dropWhile (· == 0) with
        | [] => [0]
        | d :: ds => d :: ds).map digitChar
end

