-- ==== Sys2Proof/Laws/Limbs.lean ====
section
/-! SUPPORT. Limb arrays as numbers: the value of the arrays the operations build, and that the canonical forms of
spec/10_state.md rules R16 and R21 are determined by the value. -/

namespace Sys2Proof.Machine

variable {n : Nat}

@[simp] theorem limbsVal_nil : limbsVal ([] : List (BitVec n)) = 0 := rfl

theorem limbsVal_cons (x : BitVec n) (xs : List (BitVec n)) : limbsVal (x :: xs) = x.toNat + 2 ^ n * limbsVal xs := rfl

theorem limbsVal_lt (l : List (BitVec n)) : limbsVal l < 2 ^ (n * l.length) := by
  induction l with
  | nil => simp
  | cons x xs ih =>
    have hx := x.isLt
    have : (x.toNat : ℕ) + 2 ^ n * limbsVal xs < 2 ^ n * 2 ^ (n * xs.length) := by nlinarith
    simpa [limbsVal_cons, Nat.mul_add, pow_add, Nat.mul_comm] using this

/-- At most eight 64-bit limbs hold a number below `2^512`. -/
theorem limbsVal_lt_of_length_le {l : List WideLimb} (h : l.length ≤ 8) : limbsVal l < 2 ^ 512 :=
  lt_of_lt_of_le (limbsVal_lt l) (Nat.pow_le_pow_right (by decide) (by omega : 64 * l.length ≤ 512))

theorem limbsVal_append (a b : List (BitVec n)) : limbsVal (a ++ b) = limbsVal a + 2 ^ (n * a.length) * limbsVal b := by
  induction a with
  | nil => simp
  | cons x xs ih =>
    simp only [List.cons_append, limbsVal_cons, ih, List.length_cons, Nat.mul_add, Nat.mul_one, pow_add]
    ring

@[simp] theorem limbsVal_replicate_zero (k : Nat) : limbsVal (List.replicate k (0 : BitVec n)) = 0 := by
  induction k with
  | zero => rfl
  | succ k ih => rw [List.replicate_succ, limbsVal_cons, ih]; simp

@[simp] theorem length_limbsOfNat (k v : Nat) : (limbsOfNat n k v).length = k := by
  induction k generalizing v with
  | zero => rfl
  | succ k ih => simp [limbsOfNat, ih]

theorem limbsVal_limbsOfNat (k v : Nat) : limbsVal (limbsOfNat n k v) = v % 2 ^ (n * k) := by
  induction k generalizing v with
  | zero => simp [limbsOfNat, Nat.mod_one]
  | succ k ih =>
    rw [limbsOfNat, limbsVal_cons, ih, BitVec.toNat_ofNat, Nat.mul_add, Nat.mul_one, Nat.add_comm (n * k), pow_add,
      Nat.mod_mul]

theorem limbsVal_limbsOfNat_of_lt {k v : Nat} (h : v < 2 ^ (n * k)) : limbsVal (limbsOfNat n k v) = v := by
  rw [limbsVal_limbsOfNat, Nat.mod_eq_of_lt h]

/-- A limb of an array, by value. -/
theorem limbAt_toNat (l : List (BitVec n)) (k : Nat) : (limbAt l k).toNat = limbsVal l / 2 ^ (n * k) % 2 ^ n := by
  induction l generalizing k with
  | nil => simp [limbAt]
  | cons x xs ih =>
    cases k with
    | zero =>
      have hx := x.isLt
      simp [limbAt, limbsVal_cons, Nat.add_mul_mod_self_left, Nat.mod_eq_of_lt hx]
    | succ k =>
      have hx := x.isLt
      have h0 : 0 < 2 ^ n := Nat.two_pow_pos n
      have : limbsVal (x :: xs) / 2 ^ n = limbsVal xs := by
        rw [limbsVal_cons, Nat.add_mul_div_left _ _ h0, Nat.div_eq_of_lt hx, Nat.zero_add]
      rw [show n * (k + 1) = n + n * k by ring, pow_add, ← Nat.div_div_eq_div_mul, this]
      simpa [limbAt] using ih k

theorem limbsVal_drop (l : List (BitVec n)) (k : Nat) : limbsVal (l.drop k) = limbsVal l / 2 ^ (n * k) := by
  induction k generalizing l with
  | zero => simp
  | succ k ih =>
    cases l with
    | nil => simp
    | cons x xs =>
      have hx := x.isLt
      have h0 : 0 < 2 ^ n := Nat.two_pow_pos n
      rw [List.drop_succ_cons, ih, limbsVal_cons, show n * (k + 1) = n + n * k by ring, pow_add,
        ← Nat.div_div_eq_div_mul, Nat.add_mul_div_left _ _ h0, Nat.div_eq_of_lt hx, Nat.zero_add]

theorem limbsVal_take (l : List (BitVec n)) (k : Nat) : limbsVal (l.take k) = limbsVal l % 2 ^ (n * k) := by
  induction k generalizing l with
  | zero => simp [Nat.mod_one]
  | succ k ih =>
    cases l with
    | nil => simp
    | cons x xs =>
      have hx := x.isLt
      rw [List.take_succ_cons, limbsVal_cons, ih, limbsVal_cons, show n * (k + 1) = n + n * k by ring, pow_add,
        Nat.mod_mul, Nat.add_mul_mod_self_left, Nat.mod_eq_of_lt hx, Nat.add_mul_div_left _ _ (Nat.two_pow_pos n),
        Nat.div_eq_of_lt hx, Nat.zero_add]

/-! ### Canonical forms -/

/-- What dropping the zero limbs at the high end keeps and leaves. -/
theorem dropHighZeros_cons_val (x : BitVec n) (xs : List (BitVec n)) :
    limbsVal (dropHighZeros (x :: xs)) = x.toNat + 2 ^ n * limbsVal (dropHighZeros xs) := by
  rw [dropHighZeros]
  cases h : dropHighZeros xs with
  | nil => dsimp only; split <;> simp_all [limbsVal_cons]
  | cons y ys => simp [limbsVal_cons]

@[simp] theorem limbsVal_dropHighZeros (l : List (BitVec n)) : limbsVal (dropHighZeros l) = limbsVal l := by
  induction l with
  | nil => rfl
  | cons x xs ih => rw [dropHighZeros_cons_val, ih, limbsVal_cons]

theorem length_dropHighZeros_le (l : List (BitVec n)) : (dropHighZeros l).length ≤ l.length := by
  induction l with
  | nil => simp [dropHighZeros]
  | cons x xs ih =>
    rw [dropHighZeros]
    cases h : dropHighZeros xs with
    | nil => dsimp only; split <;> simp_all
    | cons y ys => rw [h] at ih; simpa using ih

theorem getLast?_dropHighZeros (l : List (BitVec n)) : (dropHighZeros l).getLast? ≠ some 0 := by
  induction l with
  | nil => simp [dropHighZeros]
  | cons x xs ih =>
    rw [dropHighZeros]
    cases h : dropHighZeros xs with
    | nil => dsimp only; split <;> simp_all
    | cons y ys => rw [h] at ih; simpa using ih

/-- The only array with value 0 whose highest limb is not zero is the empty one. -/
theorem eq_nil_of_limbsVal_eq_zero : ∀ {l : List (BitVec n)}, l.getLast? ≠ some 0 → limbsVal l = 0 → l = []
  | [], _, _ => rfl
  | y :: ys, hl, h => by
    exfalso
    have hv : y.toNat + 2 ^ n * limbsVal ys = 0 := h
    have hys : limbsVal ys = 0 := by
      rcases Nat.eq_zero_or_pos (limbsVal ys) with h0 | h0
      · exact h0
      · have := Nat.mul_pos (Nat.two_pow_pos n) h0; omega
    have hy : y = 0 := BitVec.eq_of_toNat_eq (by simp; omega)
    cases ys with
    | nil => exact hl (by simp [hy])
    | cons z zs =>
      have := eq_nil_of_limbsVal_eq_zero (l := z :: zs) (by simpa using hl) hys
      simp at this

/-- An array whose highest limb is not zero is determined by its value. -/
theorem eq_of_limbsVal_eq : ∀ {a b : List (BitVec n)}, a.getLast? ≠ some 0 → b.getLast? ≠ some 0 →
    limbsVal a = limbsVal b → a = b
  | [], _, _, hb, h => (eq_nil_of_limbsVal_eq_zero hb h.symm).symm
  | x :: xs, [], ha, _, h => eq_nil_of_limbsVal_eq_zero ha h
  | x :: xs, y :: ys, ha, hb, h => by
    have hx := x.isLt
    have hy := y.isLt
    have hv : x.toNat + 2 ^ n * limbsVal xs = y.toNat + 2 ^ n * limbsVal ys := h
    have hxy : x.toNat = y.toNat := by
      have := congrArg (· % 2 ^ n) hv
      simpa [Nat.add_mul_mod_self_left, Nat.mod_eq_of_lt hx, Nat.mod_eq_of_lt hy] using this
    have hr : limbsVal xs = limbsVal ys :=
      Nat.eq_of_mul_eq_mul_left (Nat.two_pow_pos n) (by omega)
    have tail : ∀ {z : BitVec n} {zs : List (BitVec n)}, (z :: zs).getLast? ≠ some 0 → zs.getLast? ≠ some 0 := by
      intro z zs hz
      cases zs with
      | nil => simp
      | cons w ws => simpa using hz
    rw [BitVec.eq_of_toNat_eq hxy, eq_of_limbsVal_eq (tail ha) (tail hb) hr]

theorem dropHighZeros_eq_iff {a b : List (BitVec n)} : dropHighZeros a = dropHighZeros b ↔ limbsVal a = limbsVal b := by
  constructor
  · intro h; rw [← limbsVal_dropHighZeros a, h, limbsVal_dropHighZeros]
  · intro h
    exact eq_of_limbsVal_eq (getLast?_dropHighZeros a) (getLast?_dropHighZeros b) (by simpa using h)

theorem dropHighZeros_of_canonical {a : List (BitVec n)} (h : a.getLast? ≠ some 0) : dropHighZeros a = a :=
  eq_of_limbsVal_eq (getLast?_dropHighZeros a) h (by simp)

@[simp] theorem limbsVal_canonicalWide (l : List WideLimb) : limbsVal (canonicalWide l) = limbsVal l := by
  rw [← limbsVal_dropHighZeros l, canonicalWide]
  cases dropHighZeros l <;> simp [limbsVal_cons]

theorem canonicalWide_eq_of_val {a b : List WideLimb} (h : limbsVal a = limbsVal b) :
    canonicalWide a = canonicalWide b := by
  rw [canonicalWide, canonicalWide, dropHighZeros_eq_iff.mpr h]

@[simp] theorem clamp_mag (l : List Digit) (sg : Sign) : (clamp l sg).mag = limbsVal l := by
  rw [← limbsVal_dropHighZeros l, clamp, ScaledValue.mag]
  cases dropHighZeros l <;> rfl

theorem clamp_limbs (l : List Digit) (sg : Sign) : (clamp l sg).limbs = dropHighZeros l := by
  rw [clamp]
  cases h : dropHighZeros l <;> rfl

theorem clamp_eq_of_val {a b : List Digit} (sg : Sign) (h : limbsVal a = limbsVal b) : clamp a sg = clamp b sg := by
  rw [clamp, clamp, dropHighZeros_eq_iff.mpr h]

/-- The sign of a clamped value: the given one, or `Positive` where the magnitude is zero. -/
theorem clamp_sign (l : List Digit) (sg : Sign) : (clamp l sg).sign = if limbsVal l = 0 then .positive else sg := by
  have key : dropHighZeros l = [] ↔ limbsVal l = 0 := by
    rw [← limbsVal_dropHighZeros l]
    constructor
    · intro h; rw [h]; rfl
    · intro h; exact eq_of_limbsVal_eq (getLast?_dropHighZeros l) (by simp) h
  rw [clamp]
  cases h : dropHighZeros l with
  | nil => simp [key.mp h]
  | cons y ys => simp [show limbsVal l ≠ 0 from fun h0 => by simp [key.mpr h0] at h]

/-- The value alone determines a clamped write, also in the sign where it is zero. -/
theorem clamp_zero (sg sg' : Sign) {l : List Digit} (h : limbsVal l = 0) : clamp l sg = clamp l sg' := by
  have : dropHighZeros l = [] := eq_of_limbsVal_eq (getLast?_dropHighZeros l) (by simp) (by simpa using h)
  simp [clamp, this]

/-- A write of a limb array is the write of its number (R18). -/
theorem writeWide_eq_nat (s : State) (r : RegField) {l : List WideLimb} (h : limbsVal l < 2 ^ 512) :
    s.writeWide r l = s.writeWideNat r (limbsVal l) := by
  rw [State.writeWideNat, State.writeWide, State.writeWide,
    canonicalWide_eq_of_val (limbsVal_limbsOfNat_of_lt (n := 64) (k := 8) (v := limbsVal l)
      (by rw [show 64 * 8 = 512 from rfl]; exact h)).symm]

/-- A write of a limb array and a sign is the write of its magnitude and the sign (R22). -/
theorem writeScaled_eq_nat (s : State) (r : RegField) {l : List Digit} (sg : Sign)
    (h : limbsVal l < 2 ^ (32 * s.config.sCap)) : s.writeScaled r l sg = s.writeScaledNat r (limbsVal l) sg := by
  rw [State.writeScaledNat, State.writeScaled, State.writeScaled,
    clamp_eq_of_val sg (limbsVal_limbsOfNat_of_lt (k := s.config.sCap) h).symm]

end Sys2Proof.Machine
end

