-- ==== Sys2Proof/Laws/DecimalArith.lean ====
section
/-! SUPPORT. The double-and-add conversion (spec/41_wide_decimal.md rule R68) gives the decimal digits of the number: its
invariant on the weight and the accumulator, and the rendering. Digit arrays are read with `Nat.ofDigits 10`. -/

namespace Sys2Proof.Machine

/-- The number a list of bits stands for, least significant first. -/
def bitsVal : List Bool → Nat
  | [] => 0
  | b :: bs => b.toNat + 2 * bitsVal bs

theorem bitsVal_append (a b : List Bool) : bitsVal (a ++ b) = bitsVal a + 2 ^ a.length * bitsVal b := by
  induction a with
  | nil => simp [bitsVal]
  | cons x xs ih => simp only [List.cons_append, bitsVal, ih, List.length_cons, pow_succ]; ring

theorem bitsVal_range (x : WideLimb) (k : Nat) : bitsVal ((List.range k).map x.getLsbD) = x.toNat % 2 ^ k := by
  induction k with
  | zero => simp [bitsVal, Nat.mod_one]
  | succ k ih =>
    rw [List.range_succ, List.map_append, bitsVal_append, ih, Nat.mod_pow_succ]
    have : (x.toNat.testBit k).toNat = x.toNat / 2 ^ k % 2 := by
      rw [Nat.testBit_eq_decide_div_mod_eq]
      rcases Nat.mod_two_eq_zero_or_one (x.toNat / 2 ^ k) with h | h <;> simp [h]
    simp [bitsVal, BitVec.getLsbD, this]

theorem bitsVal_limbBits (x : WideLimb) : bitsVal (limbBits x) = x.toNat := by
  rw [limbBits, bitsVal_range, Nat.mod_eq_of_lt x.isLt]

theorem bitsVal_flatMap (l : List WideLimb) : bitsVal (l.flatMap limbBits) = limbsVal l := by
  induction l with
  | nil => rfl
  | cons x xs ih =>
    rw [List.flatMap_cons, bitsVal_append, ih, bitsVal_limbBits, limbsVal_cons]
    simp [limbBits]

theorem ofDigits_addDigitwise : ∀ a w : List Nat,
    Nat.ofDigits 10 (addDigitwise a w) = Nat.ofDigits 10 a + Nat.ofDigits 10 w
  | [], w => by simp [addDigitwise]
  | a :: as, [] => by simp [addDigitwise]
  | a :: as, w :: ws => by
    simp only [addDigitwise, Nat.ofDigits_cons, ofDigits_addDigitwise as ws]; ring

theorem ofDigits_doubleDigits (ds : List Nat) (c : Nat) :
    Nat.ofDigits 10 (doubleDigits ds c) = 2 * Nat.ofDigits 10 ds + c := by
  induction ds generalizing c with
  | nil =>
    rw [doubleDigits]
    split <;> simp_all
  | cons d ds ih =>
    simp only [doubleDigits, Nat.ofDigits_cons, ih]
    omega

/-- The invariant of the pass (R68): the weight is `2^(bits processed)`, the accumulator the number of the bits. -/
theorem ofDigits_accumulateBits (bits : List Bool) (weight acc : List Nat) :
    Nat.ofDigits 10 (accumulateBits bits weight acc) = Nat.ofDigits 10 acc + Nat.ofDigits 10 weight * bitsVal bits := by
  induction bits generalizing weight acc with
  | nil => simp [accumulateBits, bitsVal]
  | cons b bs ih =>
    rw [accumulateBits, ih, ofDigits_doubleDigits]
    cases b
    · simp [bitsVal]; ring
    · simp [bitsVal, ofDigits_addDigitwise]; ring

theorem ofDigits_carryDigits (rounds c : Nat) (h : c ≤ rounds) : Nat.ofDigits 10 (carryDigits rounds c) = c := by
  induction rounds generalizing c with
  | zero => simp [carryDigits]; omega
  | succ rounds ih =>
    rw [carryDigits]
    split
    · simp_all
    · rw [Nat.ofDigits_cons, ih _ (by omega)]; omega

theorem carryDigits_lt (rounds c : Nat) : ∀ d ∈ carryDigits rounds c, d < 10 := by
  induction rounds generalizing c with
  | zero => simp [carryDigits]
  | succ rounds ih =>
    rw [carryDigits]
    split
    · simp
    · intro d hd
      rcases List.mem_cons.mp hd with rfl | hd
      · exact Nat.mod_lt _ (by omega)
      · exact ih _ _ hd

theorem ofDigits_normalizeDigits (ds : List Nat) (c : Nat) :
    Nat.ofDigits 10 (normalizeDigits ds c) = Nat.ofDigits 10 ds + c := by
  induction ds generalizing c with
  | nil => simp [normalizeDigits, ofDigits_carryDigits]
  | cons d ds ih =>
    simp only [normalizeDigits, Nat.ofDigits_cons, ih]
    omega

theorem normalizeDigits_lt (ds : List Nat) (c : Nat) : ∀ d ∈ normalizeDigits ds c, d < 10 := by
  induction ds generalizing c with
  | nil => exact carryDigits_lt _ _
  | cons d ds ih =>
    intro e he
    rcases List.mem_cons.mp he with rfl | he
    · exact Nat.mod_lt _ (by omega)
    · exact ih _ _ he

theorem dropHighZeroDigits_spec (ds : List Nat) :
    Nat.ofDigits 10 (dropHighZeroDigits ds) = Nat.ofDigits 10 ds ∧ (∀ d ∈ dropHighZeroDigits ds, d ∈ ds) ∧
    (dropHighZeroDigits ds).getLast? ≠ some 0 := by
  induction ds with
  | nil => simp [dropHighZeroDigits]
  | cons d ds ih =>
    obtain ⟨hv, hm, hl⟩ := ih
    rw [dropHighZeroDigits]
    cases h : dropHighZeroDigits ds with
    | nil =>
      rw [h] at hv
      by_cases hd : d = 0
      · subst hd
        simp only [if_true, Nat.ofDigits_cons, ← hv]
        simp
      · simp only [hd, if_false, Nat.ofDigits_cons, ← hv]
        simp [hd]
    | cons y ys =>
      rw [h] at hv hm hl
      refine ⟨by simp only [Nat.ofDigits_cons, ← hv], ?_, by simpa using hl⟩
      intro e he
      rcases List.mem_cons.mp he with rfl | he
      · simp
      · exact List.mem_cons_of_mem _ (hm e he)

/-- The digits the conversion gives are the decimal digits of the number (R68). -/
theorem decimalDigits_eq (l : List WideLimb) :
    decimalDigits l = if limbsVal l = 0 then [0] else Nat.digits 10 (limbsVal l) := by
  obtain ⟨hv, hm, hl⟩ := dropHighZeroDigits_spec (normalizeDigits (accumulateBits (l.flatMap limbBits) [1] [0]) 0)
  rw [ofDigits_normalizeDigits, ofDigits_accumulateBits, bitsVal_flatMap] at hv
  simp only [decimalDigits]
  set r := dropHighZeroDigits (normalizeDigits (accumulateBits (l.flatMap limbBits) [1] [0]) 0)
  have hval : Nat.ofDigits 10 r = limbsVal l := by simpa using hv
  have hdig : Nat.digits 10 (limbsVal l) = r := by
    rw [← hval]
    refine Nat.digits_ofDigits 10 (by omega) r (fun d hd => normalizeDigits_lt _ _ d (hm d hd)) ?_
    intro hne h0
    exact hl (by rw [List.getLast?_eq_getLast_of_ne_nil hne, h0])
  cases hr : r with
  | nil => rw [hr] at hval; simp at hval; simp [← hval]
  | cons y ys =>
    have : limbsVal l ≠ 0 := by intro h0; rw [h0, hr] at hdig; simp at hdig
    simp [this, hdig, hr]

/-- The string `to_decimal` gives is the decimal text of the number (R67). -/
theorem toDecimal_eq (l : List WideLimb) : toDecimal l = decimalText (limbsVal l) := by
  rw [toDecimal, decimalText, decimalDigits_eq]

end Sys2Proof.Machine
end

