-- ==== Sys2Proof/Laws/State.lean ====
section
/-! SUPPORT. What each named update of the state changes and what it leaves: one lemma per field and update, and what a
register reads as after a write. -/

namespace Sys2Proof.Machine

section Updates
variable (s : State) (r r' : RegField) (v : Option (List WideLimb)) (u : Option ScaledValue) (st : Status)
  (d : DataWord) (l : List WideLimb) (ds : List Digit) (sg : Sign) (n : Nat)

@[simp] theorem setWide_config : (s.setWide r v).config = s.config := rfl
@[simp] theorem setWide_scaled : (s.setWide r v).scaled = s.scaled := rfl
@[simp] theorem setWide_digits : (s.setWide r v).digits = s.digits := rfl
@[simp] theorem setWide_flags : (s.setWide r v).flags = s.flags := rfl
@[simp] theorem setWide_host : (s.setWide r v).host = s.host := rfl
@[simp] theorem setWide_din : (s.setWide r v).din = s.din := rfl
@[simp] theorem setWide_response : (s.setWide r v).response = s.response := rfl

@[simp] theorem setScaled_config : (s.setScaled r u).config = s.config := rfl
@[simp] theorem setScaled_wide : (s.setScaled r u).wide = s.wide := rfl
@[simp] theorem setScaled_digits : (s.setScaled r u).digits = s.digits := rfl
@[simp] theorem setScaled_flags : (s.setScaled r u).flags = s.flags := rfl
@[simp] theorem setScaled_host : (s.setScaled r u).host = s.host := rfl
@[simp] theorem setScaled_din : (s.setScaled r u).din = s.din := rfl
@[simp] theorem setScaled_response : (s.setScaled r u).response = s.response := rfl

@[simp] theorem respond_config : (s.respond st d).config = s.config := rfl
@[simp] theorem respond_wide : (s.respond st d).wide = s.wide := rfl
@[simp] theorem respond_scaled : (s.respond st d).scaled = s.scaled := rfl
@[simp] theorem respond_digits : (s.respond st d).digits = s.digits := rfl
@[simp] theorem respond_flags : (s.respond st d).flags = s.flags := rfl
@[simp] theorem respond_host : (s.respond st d).host = s.host := rfl
@[simp] theorem respond_din : (s.respond st d).din = s.din := rfl
@[simp] theorem respond_response : (s.respond st d).response = some ⟨st, d⟩ := rfl

@[simp] theorem writeWide_config : (s.writeWide r l).config = s.config := rfl
@[simp] theorem writeWide_scaled : (s.writeWide r l).scaled = s.scaled := rfl
@[simp] theorem writeWide_digits : (s.writeWide r l).digits = s.digits := rfl
@[simp] theorem writeWide_flags : (s.writeWide r l).flags = s.flags := rfl
@[simp] theorem writeWide_host : (s.writeWide r l).host = s.host := rfl
@[simp] theorem writeWide_din : (s.writeWide r l).din = s.din := rfl
@[simp] theorem writeWide_response : (s.writeWide r l).response = s.response := rfl

@[simp] theorem writeScaled_config : (s.writeScaled r ds sg).config = s.config := rfl
@[simp] theorem writeScaled_wide : (s.writeScaled r ds sg).wide = s.wide := rfl
@[simp] theorem writeScaled_digits : (s.writeScaled r ds sg).digits = s.digits := rfl
@[simp] theorem writeScaled_flags : (s.writeScaled r ds sg).flags = s.flags := rfl
@[simp] theorem writeScaled_host : (s.writeScaled r ds sg).host = s.host := rfl
@[simp] theorem writeScaled_din : (s.writeScaled r ds sg).din = s.din := rfl
@[simp] theorem writeScaled_response : (s.writeScaled r ds sg).response = s.response := rfl

@[simp] theorem respond_wideReg : (s.respond st d).wideReg r = s.wideReg r := rfl
@[simp] theorem respond_scaledReg : (s.respond st d).scaledReg r = s.scaledReg r := rfl
@[simp] theorem setWide_scaledReg : (s.setWide r v).scaledReg r' = s.scaledReg r' := rfl
@[simp] theorem setScaled_wideReg : (s.setScaled r u).wideReg r' = s.wideReg r' := rfl
@[simp] theorem writeWide_scaledReg : (s.writeWide r l).scaledReg r' = s.scaledReg r' := rfl
@[simp] theorem writeScaled_wideReg : (s.writeScaled r ds sg).wideReg r' = s.wideReg r' := rfl

/-- A WideUnsigned register after a write of one: the written value in the register written, the old one in every
other. A field above 7 names no register and reads as none. -/
theorem wideReg_setWide : (s.setWide r v).wideReg r' = if r' = r ∧ r.toNat < 8 then v else s.wideReg r' := by
  unfold State.wideReg State.setWide
  simp only [Vector.getElem?_setIfInBounds]
  by_cases h : r = r'
  · subst h
    by_cases h8 : r.toNat < 8
    · simp [h8]
    · simp [h8]
  · have : r.toNat ≠ r'.toNat := fun e => h (BitVec.eq_of_toNat_eq e)
    simp [this, Ne.symm h]

/-- A ScaledInt register after a write of one. -/
theorem scaledReg_setScaled : (s.setScaled r u).scaledReg r' = if r' = r ∧ r.toNat < 8 then u else s.scaledReg r' := by
  unfold State.scaledReg State.setScaled
  simp only [Vector.getElem?_setIfInBounds]
  by_cases h : r = r'
  · subst h
    by_cases h8 : r.toNat < 8
    · simp [h8]
    · simp [h8]
  · have : r.toNat ≠ r'.toNat := fun e => h (BitVec.eq_of_toNat_eq e)
    simp [this, Ne.symm h]

theorem wideReg_writeWide : (s.writeWide r l).wideReg r' =
    if r' = r ∧ r.toNat < 8 then some (canonicalWide l) else s.wideReg r' := wideReg_setWide ..

theorem scaledReg_writeScaled : (s.writeScaled r ds sg).scaledReg r' =
    if r' = r ∧ r.toNat < 8 then some (clamp ds sg) else s.scaledReg r' := scaledReg_setScaled ..

end Updates

section Faults
variable (s : State) (f : FaultClass) (dests : List Dest)

/-- Invalidating registers changes no field but the two register files. -/
theorem foldl_invalidate_frame : ∀ (dests : List Dest) (s : State),
    (dests.foldl State.invalidate s).config = s.config ∧ (dests.foldl State.invalidate s).digits = s.digits ∧
    (dests.foldl State.invalidate s).flags = s.flags ∧ (dests.foldl State.invalidate s).host = s.host ∧
    (dests.foldl State.invalidate s).din = s.din
  | [], _ => ⟨rfl, rfl, rfl, rfl, rfl⟩
  | .wide r :: ds, s => foldl_invalidate_frame ds (s.setWide r none)
  | .scaled r :: ds, s => foldl_invalidate_frame ds (s.setScaled r none)

@[simp] theorem faulted_config : (s.faulted f dests).config = s.config := by
  unfold State.faulted; cases f.invalidates <;> simp [foldl_invalidate_frame, State.respond]
@[simp] theorem faulted_digits : (s.faulted f dests).digits = s.digits := by
  unfold State.faulted; cases f.invalidates <;> simp [foldl_invalidate_frame, State.respond]
@[simp] theorem faulted_host : (s.faulted f dests).host = s.host := by
  unfold State.faulted; cases f.invalidates <;> simp [foldl_invalidate_frame, State.respond]
@[simp] theorem faulted_din : (s.faulted f dests).din = s.din := by
  unfold State.faulted; cases f.invalidates <;> simp [foldl_invalidate_frame, State.respond]
@[simp] theorem faulted_flags : (s.faulted f dests).flags = setSticky s.flags f := rfl
@[simp] theorem faulted_response : (s.faulted f dests).response = some ⟨.raised f, 0⟩ := rfl

/-- A fault that invalidates nothing changes the flags and the response only. -/
theorem faulted_of_not_invalidates (h : f.invalidates = false) :
    s.faulted f dests = State.respond { s with flags := setSticky s.flags f } (.raised f) 0 := by
  simp [State.faulted, h]

/-- A WideUnsigned register after a fault: none if the fault invalidates and the register is a destination. -/
theorem faulted_wideReg (r : RegField) : (s.faulted f dests).wideReg r =
    if f.invalidates ∧ Dest.wide r ∈ dests then none else s.wideReg r := by
  have key : ∀ (dests : List Dest) (s : State), (dests.foldl State.invalidate s).wideReg r =
      if Dest.wide r ∈ dests then none else s.wideReg r := by
    intro dests
    induction dests with
    | nil => intro s; simp
    | cons d ds ih =>
      intro s
      rw [List.foldl_cons, ih]
      cases d with
      | wide q =>
        simp only [State.invalidate, wideReg_setWide, List.mem_cons, Dest.wide.injEq]
        by_cases hm : Dest.wide r ∈ ds
        · simp [hm]
        · by_cases hq : r = q
          · subst hq
            by_cases h8 : r.toNat < 8
            · simp [h8]
            · simp [h8, State.wideReg]
          · simp [hm, hq]
      | scaled q => simp [State.invalidate]
  unfold State.faulted
  cases hf : f.invalidates
  · simp [State.respond, State.wideReg]
  · simpa [State.respond, State.wideReg] using key dests s

/-- A ScaledInt register after a fault. -/
theorem faulted_scaledReg (r : RegField) : (s.faulted f dests).scaledReg r =
    if f.invalidates ∧ Dest.scaled r ∈ dests then none else s.scaledReg r := by
  have key : ∀ (dests : List Dest) (s : State), (dests.foldl State.invalidate s).scaledReg r =
      if Dest.scaled r ∈ dests then none else s.scaledReg r := by
    intro dests
    induction dests with
    | nil => intro s; simp
    | cons d ds ih =>
      intro s
      rw [List.foldl_cons, ih]
      cases d with
      | scaled q =>
        simp only [State.invalidate, scaledReg_setScaled, List.mem_cons, Dest.scaled.injEq]
        by_cases hm : Dest.scaled r ∈ ds
        · simp [hm]
        · by_cases hq : r = q
          · subst hq
            by_cases h8 : r.toNat < 8
            · simp [h8]
            · simp [h8, State.scaledReg]
          · simp [hm, hq]
      | wide q => simp [State.invalidate]
  unfold State.faulted
  cases hf : f.invalidates
  · simp [State.respond, State.scaledReg]
  · simpa [State.respond, State.scaledReg] using key dests s

end Faults

section Ends
variable (s t : State) (rd : RegField)

/-- What `finishWide` can do: a canonical write with `OK`, or an overflow that invalidates the destination. -/
theorem finishWide_cases (o : Option (List WideLimb)) :
    (∃ l, o = some l ∧ s.finishWide rd o = .next ((s.writeWide rd l).respond .ok 0)) ∨
    (o = none ∧ s.finishWide rd o = .next (s.faulted .capacityOverflow [.wide rd])) := by
  cases o with
  | some l => exact .inl ⟨l, rfl, rfl⟩
  | none => exact .inr ⟨rfl, rfl⟩

/-- What `finishScaled` can do: a clamped write with `OK`, or an overflow that invalidates the destination. -/
theorem finishScaled_cases (o : Option (List Digit × Sign)) :
    (∃ l sg, o = some (l, sg) ∧ s.finishScaled rd o = .next ((s.writeScaled rd l sg).respond .ok 0)) ∨
    (o = none ∧ s.finishScaled rd o = .next (s.faulted .capacityOverflow [.scaled rd])) := by
  cases o with
  | some p => exact .inl ⟨p.1, p.2, rfl, rfl⟩
  | none => exact .inr ⟨rfl, rfl⟩

end Ends

end Sys2Proof.Machine
end

