-- ==== Sys2Proof/Laws/Canonical.lean ====
section
/-! SUPPORT. Every named write makes the canonical form of its register (spec/10_state.md rules R16, R21, R25), and
keeps the form of every other one. -/

namespace Sys2Proof.Machine

theorem limbsVal_lt_of_wideCanonical {a : List WideLimb} (h : WideCanonical a) : limbsVal a < 2 ^ 512 :=
  limbsVal_lt_of_length_le h.2.1

theorem mag_lt_of_scaledCanonical {cap : Nat} {a : ScaledValue} (h : ScaledCanonical cap a) : a.mag < 2 ^ (32 * cap) :=
  lt_of_lt_of_le (limbsVal_lt a.limbs) (Nat.pow_le_pow_right (by omega) (by have := h.1; omega))

/-- The canonical form of at most eight limbs satisfies R16. -/
theorem wideCanonical_canonicalWide {l : List WideLimb} (h : l.length ≤ 8) : WideCanonical (canonicalWide l) := by
  have hl := length_dropHighZeros_le l
  have hg := getLast?_dropHighZeros l
  rw [canonicalWide]
  cases hd : dropHighZeros l with
  | nil => simp [WideCanonical]
  | cons y ys =>
    rw [hd] at hl hg
    refine ⟨by simp, by simp only [Config.wCap]; omega, fun h => absurd h hg⟩

/-- The clamped form of at most `cap` limbs satisfies R21. -/
theorem scaledCanonical_clamp {cap : Nat} {l : List Digit} (h : l.length ≤ cap) (sg : Sign) :
    ScaledCanonical cap (clamp l sg) := by
  have hl := length_dropHighZeros_le l
  have hg := getLast?_dropHighZeros l
  rw [clamp]
  cases hd : dropHighZeros l with
  | nil => simp [ScaledCanonical]
  | cons y ys =>
    rw [hd] at hl hg
    exact ⟨by simpa using hl.trans h, hg, by simp⟩

/-- A canonical array is its own canonical form. -/
theorem canonicalWide_of_canonical {a : List WideLimb} (h : WideCanonical a) : canonicalWide a = a := by
  by_cases h0 : a.getLast? = some 0
  · rw [h.2.2 h0]; rfl
  · rw [canonicalWide, dropHighZeros_of_canonical h0]
    cases a with
    | nil => simp [WideCanonical] at h
    | cons x xs => rfl

/-- A clamped value is its own clamped form. -/
theorem clamp_of_canonical {cap : Nat} {a : ScaledValue} (h : ScaledCanonical cap a) : clamp a.limbs a.sign = a := by
  obtain ⟨l, sg⟩ := a
  rw [clamp, dropHighZeros_of_canonical h.2.1]
  cases l with
  | nil => have := h.2.2 rfl; simp_all
  | cons x xs => rfl

/-- Two canonical WideUnsigned records of one number are equal: zero has one form (R16). -/
theorem wide_eq_of_wval_eq {a b : List WideLimb} (ha : WideCanonical a) (hb : WideCanonical b) (h : wval a = wval b) :
    a = b := by
  rw [← canonicalWide_of_canonical ha, ← canonicalWide_of_canonical hb, canonicalWide_eq_of_val h]

/-- The decimal text of a number below `2^512` satisfies R25. -/
theorem digitsCanonical_decimalText {n : Nat} (h : n < 2 ^ 512) : DigitsCanonical (decimalText n) := by
  have hchar : ∀ d < 10, (digitChar d).toNat = 0x30 + d := by decide
  by_cases h0 : n = 0
  · subst h0; decide
  · have hdig : ∀ d ∈ Nat.digits 10 n, d < 10 := fun d hd => Nat.digits_lt_base (by omega) hd
    rw [decimalText, if_neg h0]
    refine ⟨?_, ?_, ?_⟩
    · rw [List.length_map, List.length_reverse]
      exact (Nat.digits_length_le_iff (by omega) n).mpr (lt_trans h (by decide +kernel))
    · intro c hc
      obtain ⟨d, hd, rfl⟩ := List.mem_map.mp hc
      have := hdig d (List.mem_reverse.mp hd)
      rw [hchar d this]
      omega
    · intro hh
      exfalso
      rw [List.head?_map, List.head?_reverse] at hh
      obtain ⟨d, hd, hc⟩ := Option.map_eq_some_iff.mp hh
      have hd10 := hdig d (List.mem_of_getLast? hd)
      have : d = 0 := by
        have h1 := hchar d hd10
        rw [hc] at h1
        simp at h1
        omega
      subst this
      have hne := Nat.digits_ne_nil_iff_ne_zero (b := 10) |>.mpr h0
      have := Nat.getLast_digit_ne_zero 10 h0
      rw [List.getLast?_eq_some_getLast hne] at hd
      exact this (by simpa using hd)

namespace State.Inv

variable {s : State}

/-- A state with the registers and digits of another keeps its invariants. -/
theorem of_same {t : State} (h : s.Inv) (hc : t.config = s.config) (hw : t.wide = s.wide) (hs : t.scaled = s.scaled)
    (hd : t.digits = s.digits) : t.Inv where
  wide r a ha := h.wide r a (by rw [← ha, State.wideReg, State.wideReg, hw])
  scaled r a ha := by rw [hc]; exact h.scaled r a (by rw [← ha, State.scaledReg, State.scaledReg, hs])
  digits := by rw [hd]; exact h.digits

theorem respond (h : s.Inv) (st : Status) (d : DataWord) : (s.respond st d).Inv := h.of_same rfl rfl rfl rfl

theorem writeWide (h : s.Inv) (r : RegField) {l : List WideLimb} (hl : l.length ≤ 8) : (s.writeWide r l).Inv where
  wide q a ha := by
    rw [wideReg_writeWide] at ha
    split at ha
    · cases ha; exact wideCanonical_canonicalWide hl
    · exact h.wide q a ha
  scaled := h.scaled
  digits := h.digits

theorem writeScaled (h : s.Inv) (r : RegField) {l : List Digit} (sg : Sign) (hl : l.length ≤ s.config.sCap) :
    (s.writeScaled r l sg).Inv where
  wide := h.wide
  scaled q a ha := by
    rw [scaledReg_writeScaled] at ha
    split at ha
    · cases ha; exact scaledCanonical_clamp hl sg
    · exact h.scaled q a ha
  digits := h.digits

theorem faulted (h : s.Inv) (f : FaultClass) (dests : List Dest) : (s.faulted f dests).Inv where
  wide q a ha := by
    rw [faulted_wideReg] at ha
    split at ha
    · exact absurd ha (by simp)
    · exact h.wide q a ha
  scaled q a ha := by
    rw [faulted_scaledReg] at ha
    rw [faulted_config]
    split at ha
    · exact absurd ha (by simp)
    · exact h.scaled q a ha
  digits := by rw [faulted_digits]; exact h.digits

theorem withDigits (h : s.Inv) {n : Nat} (hn : n < 2 ^ 512) : State.Inv { s with digits := decimalText n } where
  wide := h.wide
  scaled := h.scaled
  digits := digitsCanonical_decimalText hn

end State.Inv

end Sys2Proof.Machine
end

