-- ==== Sys2Proof/Laws/WideArith.lean ====
section
/-! SUPPORT. The limb algorithms of the WideUnsigned commands give the values of their rules (spec/40_wide_unsigned.md
rules R58 to R62 and spec/41_wide_decimal.md rule R65): one lemma per algorithm says what it answers and when it
overflows. -/

namespace Sys2Proof.Machine

theorem lowHalf_toNat (x : WideLimb) : (lowHalf x).toNat = x.toNat % 2 ^ 32 := by
  simp only [lowHalf, BitVec.toNat_setWidth]
  omega

theorem highHalf_toNat (x : WideLimb) : (highHalf x).toNat = x.toNat / 2 ^ 32 := by
  simp [highHalf, BitVec.toNat_ushiftRight, Nat.shiftRight_eq_div_pow]

/-- The sum of two limbs and its wrap, as numbers. -/
theorem wrapped_add (x y : WideLimb) : (x + y).toNat + 2 ^ 64 * (wrapped (x + y) y).toNat = x.toNat + y.toNat := by
  have hx := x.isLt
  have hy := y.isLt
  unfold wrapped
  simp only [BitVec.lt_def]
  have hs : (x + y).toNat = (x.toNat + y.toNat) % 2 ^ 64 := BitVec.toNat_add x y
  split <;> simp <;> omega

theorem wrapped_le (x y : WideLimb) : (wrapped x y).toNat ≤ 1 := by
  unfold wrapped; split <;> simp

theorem wrapped_add_left (x y : WideLimb) : (x + y).toNat + 2 ^ 64 * (wrapped (x + y) x).toNat = x.toNat + y.toNat := by
  have := wrapped_add y x
  rw [BitVec.add_comm] at this
  omega

/-- `MulWide64` is exact (R58). -/
theorem mulWide64_exact (x v : WideLimb) :
    (mulWide64 x v).1.toNat * 2 ^ 64 + (mulWide64 x v).2.toNat = x.toNat * v.toNat := by
  have hx := x.isLt
  have hv := v.isLt
  obtain ⟨xl, hxl⟩ : ∃ a, a = x.toNat % 2 ^ 32 := ⟨_, rfl⟩
  obtain ⟨xh, hxh⟩ : ∃ a, a = x.toNat / 2 ^ 32 := ⟨_, rfl⟩
  obtain ⟨vl, hvl⟩ : ∃ a, a = v.toNat % 2 ^ 32 := ⟨_, rfl⟩
  obtain ⟨vh, hvh⟩ : ∃ a, a = v.toNat / 2 ^ 32 := ⟨_, rfl⟩
  have bound : ∀ a b : Nat, a ≤ 2 ^ 32 - 1 → b ≤ 2 ^ 32 - 1 → a * b ≤ (2 ^ 32 - 1) * (2 ^ 32 - 1) :=
    fun a b ha hb => Nat.mul_le_mul ha hb
  have b0 := bound xl vl (by omega) (by omega)
  have b1 := bound xl vh (by omega) (by omega)
  have b2 := bound xh vl (by omega) (by omega)
  have b3 := bound xh vh (by omega) (by omega)
  have e0 : (lowHalf x * lowHalf v).toNat = xl * vl := by
    rw [BitVec.toNat_mul, lowHalf_toNat, lowHalf_toNat, ← hxl, ← hvl]; exact Nat.mod_eq_of_lt (by omega)
  have e1 : (lowHalf x * highHalf v).toNat = xl * vh := by
    rw [BitVec.toNat_mul, lowHalf_toNat, highHalf_toNat, ← hxl, ← hvh]; exact Nat.mod_eq_of_lt (by omega)
  have e2 : (highHalf x * lowHalf v).toNat = xh * vl := by
    rw [BitVec.toNat_mul, highHalf_toNat, lowHalf_toNat, ← hxh, ← hvl]; exact Nat.mod_eq_of_lt (by omega)
  have e3 : (highHalf x * highHalf v).toNat = xh * vh := by
    rw [BitVec.toNat_mul, highHalf_toNat, highHalf_toNat, ← hxh, ← hvh]; exact Nat.mod_eq_of_lt (by omega)
  have eprod : x.toNat * v.toNat = xl * vl + 2 ^ 32 * (xl * vh + xh * vl) + 2 ^ 64 * (xh * vh) := by
    rw [show x.toNat = xl + 2 ^ 32 * xh by omega, show v.toNat = vl + 2 ^ 32 * vh by omega]; ring
  set p0 := lowHalf x * lowHalf v with hp0
  set p1 := lowHalf x * highHalf v with hp1
  set p2 := highHalf x * lowHalf v with hp2
  set p3 := highHalf x * highHalf v with hp3
  have hmid := wrapped_add_left p1 p2
  set mid := p1 + p2 with hm
  have hshift : (lowHalf mid <<< 32).toNat = mid.toNat % 2 ^ 32 * 2 ^ 32 := by
    rw [BitVec.toNat_shiftLeft, lowHalf_toNat, Nat.shiftLeft_eq]; omega
  have hlo := wrapped_add_left p0 (lowHalf mid <<< 32)
  set lo := p0 + (lowHalf mid <<< 32) with hl
  have hc1 := wrapped_le mid p1
  have hc2 := wrapped_le lo p0
  have hc : (wrapped mid p1 <<< 32).toNat = (wrapped mid p1).toNat * 2 ^ 32 := by
    rw [BitVec.toNat_shiftLeft, Nat.shiftLeft_eq]; omega
  have hhi : (mulWide64 x v).1.toNat =
      (xh * vh + mid.toNat / 2 ^ 32 + (wrapped mid p1).toNat * 2 ^ 32 + (wrapped lo p0).toNat) % 2 ^ 64 := by
    show (p3 + highHalf mid + (wrapped mid p1 <<< 32) + wrapped lo p0).toNat = _
    rw [BitVec.toNat_add, BitVec.toNat_add, BitVec.toNat_add, hc, highHalf_toNat, e3]; omega
  have hlo2 : (mulWide64 x v).2.toNat = lo.toNat := rfl
  have hmidlt := mid.isLt
  have hlolt := lo.isLt
  rw [hhi, hlo2, eprod]
  omega

/-- The high word of a product leaves room for two carries (R60, R62). -/
theorem mulWide64_hi_le (x v : WideLimb) : (mulWide64 x v).1.toNat ≤ 2 ^ 64 - 2 := by
  have h := mulWide64_exact x v
  have hx := x.isLt
  have hv := v.isLt
  have hb : x.toNat * v.toNat ≤ (2 ^ 64 - 1) * (2 ^ 64 - 1) := Nat.mul_le_mul (by omega) (by omega)
  omega

theorem toNat_zero' {n : Nat} : (0 : BitVec n).toNat = 0 := by simp

theorem toNat_ne_zero {n : Nat} {x : BitVec n} (h : x ≠ 0) : x.toNat ≠ 0 :=
  fun e => h (BitVec.eq_of_toNat_eq (by simpa using e))

theorem limbsVal_head_tail {n : Nat} (l : List (BitVec n)) :
    limbsVal l = (l.headD 0).toNat + 2 ^ n * limbsVal l.tail := by
  cases l <;> simp [limbsVal_cons]

/-! ### Add one limb -/

/-- The carry loop (R59): the limbs of the sum, or overflow where the sum does not fit the limbs there are. -/
theorem addLimbLoop_spec (room : Nat) (l : List WideLimb) (carry : WideLimb) (hl : l.length ≤ room) :
    match addLimbLoop room l carry with
    | some r => limbsVal r = limbsVal l + carry.toNat ∧ r.length ≤ room
    | none => 2 ^ (64 * room) ≤ limbsVal l + carry.toNat := by
  induction room generalizing l carry with
  | zero =>
    have : l = [] := List.length_eq_zero_iff.mp (by omega)
    subst this
    by_cases hc : carry = 0
    · simp [addLimbLoop, hc]
    · have := toNat_ne_zero hc
      simp only [addLimbLoop, hc, if_false]
      simp; omega
  | succ room ih =>
    rw [addLimbLoop]
    by_cases hc : carry = 0
    · simp [hc, hl]
    · simp only [hc, if_false]
      have hsum := wrapped_add (l.headD 0) carry
      have ht : l.tail.length ≤ room := by rw [List.length_tail]; omega
      have := ih l.tail (wrapped (l.headD 0 + carry) carry) ht
      have hv := limbsVal_head_tail l
      cases hr : addLimbLoop room l.tail (wrapped (l.headD 0 + carry) carry) with
      | some r =>
        rw [hr] at this
        simp only [Option.map_some, limbsVal_cons, List.length_cons]
        omega
      | none =>
        rw [hr] at this
        simp only [Option.map_none]
        rw [show 64 * (room + 1) = 64 + 64 * room by ring, pow_add]
        have h2 : 2 ^ 64 * 2 ^ (64 * room) ≤ 2 ^ 64 * (limbsVal l.tail + (wrapped (l.headD 0 + carry) carry).toNat) :=
          Nat.mul_le_mul_left _ this
        omega

/-- `add_limb` answers the sum, or overflow where the sum is `2^512` or more (R59). -/
theorem addLimb_spec (a : List WideLimb) (v : WideLimb) (ha : a.length ≤ 8) :
    match addLimb a v with
    | some r => limbsVal r = limbsVal a + v.toNat ∧ r.length ≤ 8
    | none => 2 ^ 512 ≤ limbsVal a + v.toNat := by
  have h := addLimbLoop_spec 8 a v ha
  rw [show 64 * 8 = 512 from rfl] at h
  exact h

/-! ### Multiply by one limb -/

theorem mulLimbLoop_spec (v : WideLimb) (l : List WideLimb) (carry : WideLimb) :
    limbsVal (mulLimbLoop v l carry).1 + 2 ^ (64 * l.length) * (mulLimbLoop v l carry).2.toNat =
      limbsVal l * v.toNat + carry.toNat ∧ (mulLimbLoop v l carry).1.length = l.length := by
  induction l generalizing carry with
  | nil => simp [mulLimbLoop]
  | cons x xs ih =>
    have hm := mulWide64_exact x v
    have hh := mulWide64_hi_le x v
    simp only [mulLimbLoop]
    set hi := (mulWide64 x v).1
    set lo := (mulWide64 x v).2
    have hw := wrapped_add_left lo carry
    have hc := wrapped_le (lo + carry) lo
    have hcarry : (hi + wrapped (lo + carry) lo).toNat = hi.toNat + (wrapped (lo + carry) lo).toNat := by
      rw [BitVec.toNat_add]; exact Nat.mod_eq_of_lt (by omega)
    have := ih (hi + wrapped (lo + carry) lo)
    rw [hcarry] at this
    set rest := mulLimbLoop v xs (hi + wrapped (lo + carry) lo)
    refine ⟨?_, by simp [this.2]⟩
    rw [limbsVal_cons, limbsVal_cons, List.length_cons, show 64 * (xs.length + 1) = 64 + 64 * xs.length by ring,
      pow_add, Nat.add_mul, ← hm]
    have h1 := this.1
    have : 2 ^ 64 * (limbsVal rest.1 + 2 ^ (64 * xs.length) * rest.2.toNat) =
        2 ^ 64 * (limbsVal xs * v.toNat + (hi.toNat + (wrapped (lo + carry) lo).toNat)) := by rw [h1]
    nlinarith

/-- `multiply_limb` answers the product, or overflow where the product is `2^512` or more (R60). -/
theorem mulLimb_spec (a : List WideLimb) (v : WideLimb) (ha : a.length ≤ 8) :
    match mulLimb a v with
    | some r => limbsVal r = limbsVal a * v.toNat ∧ r.length ≤ 8
    | none => 2 ^ 512 ≤ limbsVal a * v.toNat := by
  have h := mulLimbLoop_spec v a 0
  simp only [mulLimb]
  set p := mulLimbLoop v a 0
  obtain ⟨hv, hl⟩ := h
  rw [toNat_zero', Nat.add_zero] at hv
  by_cases hc : p.2 = 0
  · simp only [hc, if_true]
    rw [hc] at hv
    exact ⟨by simpa using hv, by omega⟩
  · have hne := toNat_ne_zero hc
    simp only [hc, if_false]
    by_cases h8 : a.length = Config.wCap
    · simp only [h8, if_true]
      rw [h8] at hv
      have h1 : 2 ^ (64 * Config.wCap) * 1 ≤ 2 ^ (64 * Config.wCap) * p.2.toNat := Nat.mul_le_mul_left _ (by omega)
      rw [show 64 * Config.wCap = 512 from rfl] at h1 hv
      omega
    · simp only [h8, if_false]
      refine ⟨?_, ?_⟩
      · rw [limbsVal_append, hl, limbsVal_cons, limbsVal_nil, Nat.mul_zero, Nat.add_zero, hv]
      · simp only [List.length_append, hl, List.length_cons, List.length_nil]
        simp only [Config.wCap] at h8
        omega

/-! ### Add two numbers -/

theorem addLoop_spec (room : Nat) (a b : List WideLimb) (carry : Nat) (ha : a.length ≤ room) (hb : b.length ≤ room)
    (hc : carry ≤ 1) :
    match addLoop room a b carry with
    | some r => limbsVal r = limbsVal a + limbsVal b + carry ∧ r.length ≤ room
    | none => 2 ^ (64 * room) ≤ limbsVal a + limbsVal b + carry := by
  induction room generalizing a b carry with
  | zero =>
    have ha' : a = [] := List.length_eq_zero_iff.mp (by omega)
    have hb' : b = [] := List.length_eq_zero_iff.mp (by omega)
    subst ha' hb'
    by_cases h : carry = 0
    · simp [addLoop, h]
    · simp [addLoop, h]; omega
  | succ room ih =>
    rw [addLoop]
    by_cases h : a = [] ∧ b = [] ∧ carry = 0
    · obtain ⟨rfl, rfl, rfl⟩ := h
      simp
    · simp only [h, if_false]
      have hx := (a.headD 0).isLt
      have hy := (b.headD 0).isLt
      set t := (a.headD 0).toNat + (b.headD 0).toNat + carry with ht
      have hta : a.tail.length ≤ room := by rw [List.length_tail]; omega
      have htb : b.tail.length ≤ room := by rw [List.length_tail]; omega
      have := ih a.tail b.tail (t / 2 ^ 64) hta htb (by omega)
      have hva := limbsVal_head_tail a
      have hvb := limbsVal_head_tail b
      cases hr : addLoop room a.tail b.tail (t / 2 ^ 64) with
      | some r =>
        rw [hr] at this
        simp only [Option.map_some, limbsVal_cons, List.length_cons, BitVec.toNat_ofNat]
        omega
      | none =>
        rw [hr] at this
        simp only [Option.map_none]
        rw [show 64 * (room + 1) = 64 + 64 * room by ring, pow_add]
        have h2 : 2 ^ 64 * 2 ^ (64 * room) ≤ 2 ^ 64 * (limbsVal a.tail + limbsVal b.tail + t / 2 ^ 64) :=
          Nat.mul_le_mul_left _ this
        omega

/-- `add` answers the sum, or overflow where the sum is `2^512` or more (R61). -/
theorem addWide_spec (a b : List WideLimb) (ha : a.length ≤ 8) (hb : b.length ≤ 8) :
    match addWide a b with
    | some r => limbsVal r = limbsVal a + limbsVal b ∧ r.length ≤ 8
    | none => 2 ^ 512 ≤ limbsVal a + limbsVal b := by
  have h := addLoop_spec 8 a b 0 ha hb (by omega)
  rw [show 64 * 8 = 512 from rfl] at h
  exact h

/-! ### Multiply two numbers -/

/-- One row (R62): adds `a · y` into the array, where the limb after the last one added to is still zero. -/
theorem mulRow_spec (y : WideLimb) (r a : List WideLimb) (carry : WideLimb) (hl : a.length < r.length)
    (hz : ∀ k, a.length ≤ k → limbAt r k = 0) :
    limbsVal (mulRow y r a carry) = limbsVal r + limbsVal a * y.toNat + carry.toNat ∧
    (mulRow y r a carry).length = r.length ∧ (∀ k, a.length < k → limbAt (mulRow y r a carry) k = 0) := by
  induction a generalizing r carry with
  | nil =>
    cases r with
    | nil => simp at hl
    | cons r0 rs =>
      have h0 : r0 = 0 := by simpa [limbAt] using hz 0 (by simp)
      refine ⟨?_, by simp [mulRow], ?_⟩
      · simp [mulRow, limbsVal_cons, h0]; omega
      · intro k hk
        cases k with
        | zero => simp at hk
        | succ k => simpa [mulRow, limbAt] using hz (k + 1) (by simp)
  | cons x xs ih =>
    cases r with
    | nil => simp at hl
    | cons r0 rs =>
      have hm := mulWide64_exact x y
      have hh := mulWide64_hi_le x y
      simp only [mulRow]
      set hi := (mulWide64 x y).1
      set lo := (mulWide64 x y).2
      have hr0 := r0.isLt
      have hlo := lo.isLt
      have hca := carry.isLt
      set t := r0.toNat + lo.toNat with ht
      set t2 := t % 2 ^ 64 + carry.toNat with ht2
      set c' : WideLimb := hi + BitVec.ofNat 64 (t / 2 ^ 64) + BitVec.ofNat 64 (t2 / 2 ^ 64) with hc'
      have hprod : x.toNat * y.toNat ≤ (2 ^ 64 - 1) * (2 ^ 64 - 1) := by
        have := x.isLt; have := y.isLt; exact Nat.mul_le_mul (by omega) (by omega)
      have hcv : c'.toNat = hi.toNat + t / 2 ^ 64 + t2 / 2 ^ 64 := by
        rw [hc', BitVec.toNat_add, BitVec.toNat_add, BitVec.toNat_ofNat, BitVec.toNat_ofNat]; omega
      have hlen : xs.length < rs.length := by simpa using hl
      have hz' : ∀ k, xs.length ≤ k → limbAt rs k = 0 := by
        intro k hk
        simpa [limbAt] using hz (k + 1) (by simpa using hk)
      obtain ⟨hv, hlr, hzr⟩ := ih rs c' hlen hz'
      refine ⟨?_, by simp [hlr], ?_⟩
      · rw [limbsVal_cons, limbsVal_cons, limbsVal_cons, hv, hcv, BitVec.toNat_ofNat, Nat.add_mul, ← hm]
        have h1 : r0.toNat + lo.toNat + carry.toNat = t2 % 2 ^ 64 + 2 ^ 64 * (t / 2 ^ 64 + t2 / 2 ^ 64) := by omega
        nlinarith
      · intro k hk
        cases k with
        | zero => simp at hk
        | succ k => simpa [limbAt] using hzr k (by simpa using hk)

/-- All rows (R62): the array ends as the sum of what it held and the product. -/
theorem mulRows_spec (a r b : List WideLimb) (hl : a.length + b.length ≤ r.length)
    (hz : ∀ k, a.length ≤ k → limbAt r k = 0) (ha : 0 < a.length) :
    limbsVal (mulRows a r b) = limbsVal r + limbsVal a * limbsVal b ∧ (mulRows a r b).length = r.length := by
  induction b generalizing r with
  | nil => simp [mulRows]
  | cons y ys ih =>
    simp only [List.length_cons] at hl
    obtain ⟨hv, hlr, hzr⟩ := mulRow_spec y r a 0 (by omega) hz
    simp only [mulRows]
    cases hrow : mulRow y r a 0 with
    | nil => rw [hrow] at hlr; simp at hlr; omega
    | cons low rest =>
      rw [hrow] at hv hlr hzr
      simp only [List.length_cons] at hlr
      have hz' : ∀ k, a.length ≤ k → limbAt rest k = 0 := by
        intro k hk
        simpa [limbAt] using hzr (k + 1) (by omega)
      obtain ⟨hv', hl'⟩ := ih rest (by omega) hz'
      refine ⟨?_, by simp [hl', hlr]⟩
      simp only [limbsVal_cons, toNat_zero', Nat.add_zero] at hv ⊢
      rw [hv']
      nlinarith

/-- `multiply` answers the product, or overflow where the product is `2^512` or more (R62). -/
theorem mulWide_spec (a b : List WideLimb) (ha : a.length ≤ 8) (hb : b.length ≤ 8) (ha0 : 0 < a.length) :
    match mulWide a b with
    | some r => limbsVal r = limbsVal a * limbsVal b ∧ r.length ≤ 8
    | none => 2 ^ 512 ≤ limbsVal a * limbsVal b := by
  obtain ⟨hv, hl⟩ := mulRows_spec a (List.replicate 16 0) b (by simp; omega)
    (fun k _ => by simp only [limbAt, List.getD_eq_getElem?_getD, List.getElem?_replicate]; split <;> rfl) ha0
  rw [limbsVal_replicate_zero, Nat.zero_add] at hv
  simp only [mulWide]
  set r := mulRows a (List.replicate 16 0) b
  have hd := limbsVal_drop r 8
  have ht := limbsVal_take r 8
  rw [show 64 * 8 = 512 from rfl] at hd ht
  have hall : (r.drop Config.wCap).all (· == 0) = true ↔ limbsVal r / 2 ^ 512 = 0 := by
    rw [← hd]
    constructor
    · intro h
      have hrep : r.drop 8 = List.replicate (r.drop 8).length 0 :=
        List.eq_replicate_of_mem fun x hx => by simpa using List.all_eq_true.mp h x hx
      rw [hrep, limbsVal_replicate_zero]
    · intro h
      have : ∀ {l : List WideLimb}, limbsVal l = 0 → l.all (· == 0) = true := by
        intro l
        induction l with
        | nil => simp
        | cons x xs ih =>
          intro hx
          rw [limbsVal_cons] at hx
          have hx0 : x = 0 := BitVec.eq_of_toNat_eq (by simp; omega)
          rw [List.all_cons, ih (by omega), hx0]; rfl
      exact this h
  by_cases hc : (r.drop Config.wCap).all (· == 0) = true
  · simp only [hc, if_true]
    have h0 := hall.mp hc
    refine ⟨?_, by simp⟩
    rw [ht, ← hv]
    omega
  · simp only [hc]
    have : limbsVal r / 2 ^ 512 ≠ 0 := fun h => hc (hall.mpr h)
    rw [← hv]
    simp only [Bool.false_eq_true, if_false]
    by_contra hlt
    exact this (Nat.div_eq_of_lt (by omega))

/-! ### One decimal digit -/

/-- One Horner step answers `10·n + digit`, or overflow where that is `2^512` or more (R65). -/
theorem wideDigitStep_spec (a : List WideLimb) (d : Nat) (ha : a.length ≤ 8) (hd : d < 10) :
    match wideDigitStep a d with
    | some r => limbsVal r = 10 * limbsVal a + d ∧ r.length ≤ 8
    | none => 2 ^ 512 ≤ 10 * limbsVal a + d := by
  have hm := mulLimb_spec a 10 ha
  have h10 : (10 : WideLimb).toNat = 10 := rfl
  have hdv : (BitVec.ofNat 64 d).toNat = d := by rw [BitVec.toNat_ofNat]; omega
  simp only [wideDigitStep]
  cases h : mulLimb a 10 with
  | none =>
    rw [h] at hm
    simp only [h10] at hm
    simp only [Option.bind_none]
    omega
  | some t =>
    rw [h] at hm
    simp only [h10] at hm
    have hs := addLimb_spec t (BitVec.ofNat 64 d) hm.2
    simp only [Option.bind_some]
    cases h2 : addLimb t (BitVec.ofNat 64 d) with
    | none => rw [h2] at hs; simp only [hdv] at hs ⊢; omega
    | some r => rw [h2] at hs; simp only [hdv] at hs ⊢; omega

end Sys2Proof.Machine
end

