-- ==== Sys2Proof/Laws/ScaledArith.lean ====
section
/-! SUPPORT. The limb algorithms of the ScaledInt adder, comparer, shifts and one-digit operations give the values of
their rules (spec/42_scaled_basic.md R82, spec/43_scaled_addsub.md R85 to R90, spec/44_scaled_mul.md R102,
spec/45_scaled_shift.md R103 to R109): one lemma per algorithm says what it answers and when it overflows. -/

namespace Sys2Proof.Machine

/-! ### Compare -/

/-- A canonical nonempty array is at least the weight of its highest limb. -/
theorem pow_le_limbsVal {n : Nat} : ∀ {l : List (BitVec n)}, l ≠ [] → l.getLast? ≠ some 0 →
    2 ^ (n * (l.length - 1)) ≤ limbsVal l
  | [], h, _ => absurd rfl h
  | [x], _, hl => by
    have : x ≠ 0 := fun h => hl (by simp [h])
    have := toNat_ne_zero this
    simp [limbsVal_cons]; omega
  | x :: y :: ys, _, hl => by
    have ih := pow_le_limbsVal (l := y :: ys) (by simp) (by simpa using hl)
    rw [limbsVal_cons, show (x :: y :: ys).length - 1 = (y :: ys).length - 1 + 1 by simp, Nat.mul_add, Nat.mul_one,
      pow_add, Nat.mul_comm (2 ^ (n * _))]
    exact le_trans (Nat.mul_le_mul_left _ ih) (Nat.le_add_left _ _)

theorem cmpFromTop_spec : ∀ (xs ys : List Digit), xs.length = ys.length →
    cmpFromTop xs ys = compare (limbsVal xs.reverse) (limbsVal ys.reverse)
  | [], [], _ => rfl
  | x :: xs, y :: ys, h => by
    have hl : xs.length = ys.length := by simpa using h
    have hx := limbsVal_lt xs.reverse
    have hy := limbsVal_lt ys.reverse
    rw [cmpFromTop, List.reverse_cons, List.reverse_cons, limbsVal_append, limbsVal_append, limbsVal_cons, limbsVal_cons,
      limbsVal_nil, Nat.mul_zero, Nat.add_zero, Nat.add_zero, List.length_reverse, List.length_reverse, hl]
    rw [List.length_reverse, hl] at hx
    rw [List.length_reverse] at hy
    set B := 2 ^ (32 * ys.length)
    by_cases h1 : y < x
    · have h1' : y.toNat + 1 ≤ x.toNat := h1
      have := Nat.mul_le_mul_left B h1'
      simp only [h1, if_true]
      exact (Nat.compare_eq_gt.mpr (by rw [Nat.mul_add] at this; omega)).symm
    · by_cases h2 : x < y
      · have h2' : x.toNat + 1 ≤ y.toNat := h2
        have := Nat.mul_le_mul_left B h2'
        simp only [h1, h2, if_true, if_false]
        exact (Nat.compare_eq_lt.mpr (by rw [Nat.mul_add] at this; omega)).symm
      · have hxy : x.toNat = y.toNat := by
          have h1' : ¬ y.toNat < x.toNat := h1
          have h2' : ¬ x.toNat < y.toNat := h2
          omega
        simp only [h1, h2, if_false]
        rw [cmpFromTop_spec xs ys hl, hxy]
        rcases Nat.lt_trichotomy (limbsVal xs.reverse) (limbsVal ys.reverse) with h | h | h
        · rw [Nat.compare_eq_lt.mpr h, Nat.compare_eq_lt.mpr (by omega)]
        · rw [h]; simp
        · rw [Nat.compare_eq_gt.mpr h, Nat.compare_eq_gt.mpr (by omega)]

/-- `CmpMag` compares the magnitudes of clamped values (R82). -/
theorem cmpMag_spec {a b : List Digit} (ha : a.getLast? ≠ some 0) (hb : b.getLast? ≠ some 0) :
    cmpMag a b = compare (limbsVal a) (limbsVal b) := by
  have longer : ∀ {a b : List Digit}, b.getLast? ≠ some 0 → a.length < b.length → limbsVal a < limbsVal b := by
    intro a b hb h
    have hne : b ≠ [] := by intro h0; simp [h0] at h
    calc limbsVal a < 2 ^ (32 * a.length) := limbsVal_lt a
      _ ≤ 2 ^ (32 * (b.length - 1)) := Nat.pow_le_pow_right (by omega) (by omega)
      _ ≤ limbsVal b := pow_le_limbsVal hne hb
  rw [cmpMag]
  split
  · next h => exact (Nat.compare_eq_gt.mpr (longer ha h)).symm
  · split
    · next h => exact (Nat.compare_eq_lt.mpr (longer hb h)).symm
    · rw [cmpFromTop_spec _ _ (by simp; omega), List.reverse_reverse, List.reverse_reverse]

/-! ### Magnitude add and subtract -/

theorem uAddLoop_spec (n : Nat) (x y : List Digit) (carry : Nat) (hx : x.length ≤ n) (hy : y.length ≤ n)
    (hc : carry ≤ 1) :
    limbsVal (uAddLoop n x y carry).1 + 2 ^ (32 * n) * (uAddLoop n x y carry).2 = limbsVal x + limbsVal y + carry ∧
    (uAddLoop n x y carry).1.length = n ∧ (uAddLoop n x y carry).2 ≤ 1 := by
  induction n generalizing x y carry with
  | zero =>
    have hx' : x = [] := List.length_eq_zero_iff.mp (by omega)
    have hy' : y = [] := List.length_eq_zero_iff.mp (by omega)
    subst hx' hy'
    simp [uAddLoop, hc]
  | succ n ih =>
    have hx0 := (x.headD 0).isLt
    have hy0 := (y.headD 0).isLt
    simp only [uAddLoop]
    set t := (x.headD 0).toNat + (y.headD 0).toNat + carry with ht
    obtain ⟨hv, hl, ho⟩ := ih x.tail y.tail (t / 2 ^ 32) (by rw [List.length_tail]; omega)
      (by rw [List.length_tail]; omega) (by omega)
    have hvx := limbsVal_head_tail x
    have hvy := limbsVal_head_tail y
    refine ⟨?_, by simp only [List.length_cons, hl], ho⟩
    rw [limbsVal_cons, BitVec.toNat_ofNat, show 32 * (n + 1) = 32 + 32 * n by ring, pow_add, Nat.mul_assoc]
    omega

/-- `UAddMag` answers the sum, or overflow where it needs more than `cap` limbs (R85). -/
theorem uAddMag_spec {cap : Nat} {x y : List Digit} (hx : x.length ≤ cap) (hy : y.length ≤ cap) :
    match uAddMag cap x y with
    | some r => limbsVal r = limbsVal x + limbsVal y ∧ r.length ≤ cap
    | none => 2 ^ (32 * cap) ≤ limbsVal x + limbsVal y := by
  obtain ⟨hv, hl, ho⟩ := uAddLoop_spec (max x.length y.length) x y 0 (le_max_left _ _) (le_max_right _ _) (by omega)
  simp only [uAddMag]
  set p := uAddLoop (max x.length y.length) x y 0
  by_cases h1 : p.2 = 1
  · simp only [h1, if_true]
    rw [h1] at hv
    by_cases hcap : max x.length y.length = cap
    · simp only [hcap, if_true]
      rw [hcap] at hv
      omega
    · simp only [hcap, if_false]
      refine ⟨?_, by simp [hl]; omega⟩
      rw [limbsVal_append, hl, limbsVal_cons, limbsVal_nil, Nat.mul_zero, Nat.add_zero,
        show (1 : Digit).toNat = 1 from rfl]
      omega
  · simp only [h1, if_false]
    have h0 : p.2 = 0 := by omega
    rw [h0] at hv
    exact ⟨by omega, by omega⟩

theorem uSubLoop_spec (x y : List Digit) (b : Int) (hb : b = 0 ∨ b = 1) :
    ∃ out : Int, (out = 0 ∨ out = 1) ∧
      (limbsVal (uSubLoop x y b) : Int) + (limbsVal (y.take x.length) : Int) + b =
        limbsVal x + 2 ^ (32 * x.length) * out ∧
      (uSubLoop x y b).length = x.length := by
  induction x generalizing y b with
  | nil => exact ⟨b, hb, by simp [uSubLoop], rfl⟩
  | cons x0 xs ih =>
    have hx0 := x0.isLt
    have hy0 := (y.headD 0).isLt
    have htake : (limbsVal (y.take (xs.length + 1)) : Int) =
        ((y.headD 0).toNat : Int) + 2 ^ 32 * (limbsVal (y.tail.take xs.length) : Int) := by
      cases y with
      | nil => simp
      | cons y0 ys => simp [limbsVal_cons]
    have hval : ∀ t : Int, 0 ≤ t → t < 2 ^ 32 → ((BitVec.ofInt 32 t).toNat : Int) = t := by
      intro t h0 h1
      rw [BitVec.toNat_ofInt]
      omega
    rw [uSubLoop, List.length_cons, htake, limbsVal_cons, show 32 * (xs.length + 1) = 32 + 32 * xs.length by ring,
      pow_add]
    set t : Int := (x0.toNat : Int) - ((y.headD 0).toNat : Int) - b with ht
    by_cases hneg : t < 0
    · simp only [hneg, if_true]
      obtain ⟨out, ho, hv, hl⟩ := ih y.tail 1 (by omega)
      refine ⟨out, ho, ?_, by simp [hl]⟩
      rw [limbsVal_cons]
      simp only [Nat.cast_add, Nat.cast_mul, Nat.cast_pow, Nat.cast_ofNat]
      rw [hval _ (by omega) (by omega)]
      linear_combination (2 ^ 32 : ℤ) * hv + ht
    · simp only [hneg, if_false]
      obtain ⟨out, ho, hv, hl⟩ := ih y.tail 0 (by omega)
      refine ⟨out, ho, ?_, by simp [hl]⟩
      rw [limbsVal_cons]
      simp only [Nat.cast_add, Nat.cast_mul, Nat.cast_pow, Nat.cast_ofNat]
      rw [hval _ (by omega) (by omega)]
      linear_combination (2 ^ 32 : ℤ) * hv + ht

/-- `USubMag` answers the difference, for `x ≥ y` (R86). -/
theorem uSubMag_spec {x y : List Digit} (h : limbsVal y ≤ limbsVal x) :
    limbsVal (uSubMag x y) = limbsVal x - limbsVal y ∧ (uSubMag x y).length = x.length := by
  obtain ⟨out, ho, hv, hl⟩ := uSubLoop_spec x y 0 (by omega)
  refine ⟨?_, hl⟩
  have hx := limbsVal_lt x
  have htake : limbsVal (y.take x.length) = limbsVal y := by
    rw [limbsVal_take, Nat.mod_eq_of_lt (by omega)]
  have hr := limbsVal_lt (uSubLoop x y 0)
  rw [hl] at hr
  rw [htake] at hv
  rw [uSubMag]
  rcases ho with rfl | rfl
  · omega
  · exfalso
    have hr' : (limbsVal (uSubLoop x y 0) : Int) < 2 ^ (32 * x.length) := by exact_mod_cast hr
    have hx' : (limbsVal x : Int) < 2 ^ (32 * x.length) := by exact_mod_cast hx
    omega

/-! ### One digit -/

theorem addDigitLoop_spec (l : List Digit) (c : Nat) (hc : c < 2 ^ 32) :
    limbsVal (addDigitLoop l c).1 + 2 ^ (32 * l.length) * (addDigitLoop l c).2 = limbsVal l + c ∧
    (addDigitLoop l c).1.length = l.length ∧ (addDigitLoop l c).2 < 2 ^ 32 := by
  induction l generalizing c with
  | nil => exact ⟨by simp [addDigitLoop], rfl, hc⟩
  | cons x xs ih =>
    have hx := x.isLt
    simp only [addDigitLoop]
    obtain ⟨hv, hl, ho⟩ := ih ((x.toNat + c) / 2 ^ 32) (by omega)
    refine ⟨?_, by simp only [List.length_cons, hl], ho⟩
    rw [limbsVal_cons, limbsVal_cons, BitVec.toNat_ofNat, List.length_cons,
      show 32 * (xs.length + 1) = 32 + 32 * xs.length by ring, pow_add, Nat.mul_assoc]
    omega

theorem mulDigitLoop_spec (d : Nat) (l : List Digit) (c : Nat) (hd : d < 2 ^ 32) (hc : c < 2 ^ 32) :
    limbsVal (mulDigitLoop d l c).1 + 2 ^ (32 * l.length) * (mulDigitLoop d l c).2 = limbsVal l * d + c ∧
    (mulDigitLoop d l c).1.length = l.length ∧ (mulDigitLoop d l c).2 < 2 ^ 32 := by
  induction l generalizing c with
  | nil => exact ⟨by simp [mulDigitLoop], rfl, hc⟩
  | cons x xs ih =>
    have hx := x.isLt
    have hxd : x.toNat * d ≤ (2 ^ 32 - 1) * (2 ^ 32 - 1) := Nat.mul_le_mul (by omega) (by omega)
    simp only [mulDigitLoop]
    set t := x.toNat * d + c with ht
    obtain ⟨hv, hl, ho⟩ := ih (t / 2 ^ 32) (by omega)
    refine ⟨?_, by simp only [List.length_cons, hl], ho⟩
    rw [limbsVal_cons, limbsVal_cons, BitVec.toNat_ofNat, List.length_cons,
      show 32 * (xs.length + 1) = 32 + 32 * xs.length by ring, pow_add, Nat.mul_assoc, Nat.add_mul,
      Nat.mul_assoc (2 ^ 32) (limbsVal xs) d]
    omega

/-- What appending the last carry answers (R90, R102). -/
theorem appendCarry_spec {cap used : Nat} {r : List Digit × Nat} (hl : r.1.length = used) (hu : used ≤ cap)
    (ho : r.2 < 2 ^ 32) :
    match appendCarry cap used r with
    | some l => limbsVal l = limbsVal r.1 + 2 ^ (32 * used) * r.2 ∧ l.length ≤ cap
    | none => 2 ^ (32 * cap) ≤ limbsVal r.1 + 2 ^ (32 * used) * r.2 := by
  rw [appendCarry]
  by_cases h0 : r.2 = 0
  · simp only [h0, if_true]
    exact ⟨by simp, by omega⟩
  · simp only [h0, if_false]
    by_cases hcap : used = cap
    · simp only [hcap, if_true]
      have : 2 ^ (32 * cap) * 1 ≤ 2 ^ (32 * cap) * r.2 := Nat.mul_le_mul_left _ (by omega)
      omega
    · simp only [hcap, if_false]
      refine ⟨?_, by simp [hl]; omega⟩
      rw [limbsVal_append, hl, limbsVal_cons, limbsVal_nil, BitVec.toNat_ofNat, Nat.mod_eq_of_lt ho]
      simp

/-- `add_digit` answers the sum, or overflow where it needs more than `cap` limbs (R90). -/
theorem addDigit_spec {cap d : Nat} {a : List Digit} (ha : a.length ≤ cap) (hd : d < 2 ^ 32) :
    match addDigit cap a d with
    | some r => limbsVal r = limbsVal a + d ∧ r.length ≤ cap
    | none => 2 ^ (32 * cap) ≤ limbsVal a + d := by
  obtain ⟨hv, hl, ho⟩ := addDigitLoop_spec a d hd
  have := appendCarry_spec hl ha ho
  rw [hv] at this
  exact this

/-- `mul_by_digit` answers the product, or overflow where it needs more than `cap` limbs (R102). -/
theorem mulDigit_spec {cap d : Nat} {a : List Digit} (ha : a.length ≤ cap) (hd : d < 2 ^ 32) :
    match mulDigit cap a d with
    | some r => limbsVal r = limbsVal a * d ∧ r.length ≤ cap
    | none => 2 ^ (32 * cap) ≤ limbsVal a * d := by
  obtain ⟨hv, hl, ho⟩ := mulDigitLoop_spec d a 0 hd (by omega)
  have := appendCarry_spec hl ha ho
  rw [hv] at this
  exact this

/-- One Horner step answers `10·m + digit`, or overflow where that needs more than `cap` limbs (R111). -/
theorem scaledDigitStep_spec {cap d : Nat} {a : List Digit} (ha : a.length ≤ cap) (hd : d < 10) :
    match scaledDigitStep cap a d with
    | some r => limbsVal r = 10 * limbsVal a + d ∧ r.length ≤ cap
    | none => 2 ^ (32 * cap) ≤ 10 * limbsVal a + d := by
  have hm := mulDigit_spec (d := 10) ha (by omega)
  simp only [scaledDigitStep]
  cases h : mulDigit cap a 10 with
  | none => rw [h] at hm; simp only at hm; simp only [Option.bind_none]; omega
  | some t =>
    rw [h] at hm
    simp only at hm
    have hs := addDigit_spec (d := d) hm.2 (by omega)
    simp only [Option.bind_some]
    cases h2 : addDigit cap t d with
    | none => rw [h2] at hs; simp only at hs ⊢; omega
    | some r => rw [h2] at hs; simp only at hs ⊢; omega

/-! ### Shifts and powers of two -/

/-- `shift_left_digits` answers the magnitude times `2^(32·n)`, or overflow where that needs more than `cap` limbs
(R103). -/
theorem shiftLeftDigits_spec {cap n : Nat} {a : List Digit} (ha : a.length ≤ cap) (hc : a.getLast? ≠ some 0) :
    match shiftLeftDigits cap a n with
    | some r => limbsVal r = limbsVal a * 2 ^ (32 * n) ∧ r.length ≤ cap
    | none => 2 ^ (32 * cap) ≤ limbsVal a * 2 ^ (32 * n) := by
  rw [shiftLeftDigits]
  by_cases h0 : a = [] ∨ n = 0
  · simp only [h0, if_true]
    rcases h0 with rfl | rfl
    · simp
    · exact ⟨by simp, ha⟩
  · simp only [h0, if_false]
    rw [not_or] at h0
    by_cases hcap : cap < a.length + n
    · simp only [hcap, if_true]
      have h1 := pow_le_limbsVal h0.1 hc
      calc 2 ^ (32 * cap) ≤ 2 ^ (32 * (a.length - 1) + 32 * n) := Nat.pow_le_pow_right (by omega) (by omega)
        _ = 2 ^ (32 * (a.length - 1)) * 2 ^ (32 * n) := pow_add _ _ _
        _ ≤ _ := Nat.mul_le_mul_right _ h1
    · simp only [hcap, if_false]
      refine ⟨?_, by simp; omega⟩
      rw [limbsVal_append, limbsVal_replicate_zero, List.length_replicate, Nat.zero_add, Nat.mul_comm]

/-- `shift_right_digits` answers the magnitude divided by `2^(32·n)` (R104). -/
theorem shiftRightDigits_spec (a : List Digit) (n : Nat) :
    limbsVal (shiftRightDigits a n) = limbsVal a / 2 ^ (32 * n) ∧ (shiftRightDigits a n).length ≤ a.length := by
  rw [shiftRightDigits]
  split
  · next h =>
    have := limbsVal_lt a
    refine ⟨?_, by simp⟩
    rw [limbsVal_nil, Nat.div_eq_of_lt]
    exact lt_of_lt_of_le this (Nat.pow_le_pow_right (by omega) (by omega))
  · exact ⟨limbsVal_drop a n, by simp⟩

theorem modPow2Loop_spec (q r : Nat) (hr : r < 32) (k : Nat) (l : List Digit) :
    limbsVal (modPow2Loop q r k l) = (if k ≤ q then limbsVal l % 2 ^ (32 * (q - k) + r) else 0) ∧
    (modPow2Loop q r k l).length = l.length := by
  induction l generalizing k with
  | nil => simp [modPow2Loop]
  | cons x xs ih =>
    obtain ⟨hv, hl⟩ := ih (k + 1)
    have hx := x.isLt
    refine ⟨?_, by simp [modPow2Loop, hl]⟩
    rw [modPow2Loop, limbsVal_cons, hv]
    by_cases h1 : k < q
    · rw [if_pos h1, if_pos (show k + 1 ≤ q by omega), if_pos (show k ≤ q by omega), limbsVal_cons,
        show 32 * (q - k) + r = 32 + (32 * (q - (k + 1)) + r) by omega]
      generalize 32 * (q - (k + 1)) + r = e
      rw [pow_add 2 32 e, Nat.mod_mul (a := 2 ^ 32), Nat.add_mul_mod_self_left, Nat.mod_eq_of_lt hx, Nat.add_mul_div_left _ _ (by omega), Nat.div_eq_of_lt hx,
        Nat.zero_add]
    · rw [if_neg h1, if_neg (show ¬ k + 1 ≤ q by omega), Nat.mul_zero, Nat.add_zero]
      by_cases h2 : k = q
      · subst h2
        rw [if_pos (le_refl k), Nat.sub_self, Nat.mul_zero, Nat.zero_add, limbsVal_cons]
        have hdvd : 2 ^ r ∣ 2 ^ 32 * limbsVal xs := Dvd.dvd.mul_right (pow_dvd_pow 2 (by omega)) _
        rw [Nat.add_mod, Nat.mod_eq_zero_of_dvd hdvd, Nat.add_zero, Nat.mod_mod]
        by_cases h3 : 0 < r
        · rw [if_pos ⟨rfl, h3⟩, BitVec.toNat_and, BitVec.toNat_ofNat, Nat.mod_eq_of_lt
            (show 2 ^ r - 1 < 2 ^ 32 from lt_of_le_of_lt (Nat.sub_le _ _) (Nat.pow_lt_pow_right (by omega) hr)),
            Nat.and_two_pow_sub_one_eq_mod]
        · have : r = 0 := by omega
          subst this
          simp [Nat.mod_one]
      · rw [if_neg (by omega), if_neg (by omega)]
        simp

/-- `ModPow2` answers the magnitude modulo `2^bits` (R105). -/
theorem modPow2_spec (a : List Digit) (bits : Nat) :
    limbsVal (modPow2 a bits) = limbsVal a % 2 ^ bits ∧ (modPow2 a bits).length = a.length := by
  have h := modPow2Loop_spec (bits / 32) (bits % 32) (Nat.mod_lt _ (by omega)) 0 a
  rw [if_pos (Nat.zero_le _), Nat.sub_zero, show 32 * (bits / 32) + bits % 32 = bits by omega] at h
  exact h

theorem shiftRightSub_spec (r : Nat) (hr : r < 32) (l : List Digit) :
    limbsVal (shiftRightSub r l) = limbsVal l / 2 ^ r ∧ (shiftRightSub r l).length = l.length := by
  induction l with
  | nil => simp [shiftRightSub]
  | cons x xs ih =>
    obtain ⟨hv, hl⟩ := ih
    refine ⟨?_, by simp [shiftRightSub, hl]⟩
    rw [shiftRightSub, limbsVal_cons, hv, limbsVal_cons]
    by_cases h0 : r = 0
    · subst h0; simp
    · rw [if_neg h0]
      have hx := x.isLt
      have hxr : x.toNat / 2 ^ r < 2 ^ (32 - r) := by
        rw [Nat.div_lt_iff_lt_mul (Nat.two_pow_pos r), ← pow_add, show 32 - r + r = 32 by omega]; exact hx
      have hhead : (xs.headD 0).toNat % 2 ^ r = limbsVal xs % 2 ^ r := by
        have hdvd : 2 ^ r ∣ 2 ^ 32 * limbsVal xs.tail := Dvd.dvd.mul_right (pow_dvd_pow 2 (by omega)) _
        rw [limbsVal_head_tail xs, Nat.add_mod, Nat.mod_eq_zero_of_dvd hdvd, Nat.add_zero, Nat.mod_mod]
      have hlimb : (x >>> r ||| (xs.headD 0 <<< (32 - r))).toNat =
          x.toNat / 2 ^ r + 2 ^ (32 - r) * (limbsVal xs % 2 ^ r) := by
        rw [BitVec.toNat_or, BitVec.toNat_ushiftRight, BitVec.toNat_shiftLeft, Nat.shiftRight_eq_div_pow,
          Nat.shiftLeft_eq, ← hhead]
        have : (xs.headD 0).toNat * 2 ^ (32 - r) % 2 ^ 32 = 2 ^ (32 - r) * ((xs.headD 0).toNat % 2 ^ r) := by
          rw [show (2 : ℕ) ^ 32 = 2 ^ (32 - r) * 2 ^ r by rw [← pow_add]; congr 1; omega, Nat.mul_comm,
            Nat.mul_mod_mul_left]
        rw [this, Nat.or_comm, ← Nat.two_pow_add_eq_or_of_lt hxr, Nat.add_comm]
      rw [hlimb]
      have hsplit : 2 ^ 32 * limbsVal xs = 2 ^ r * (2 ^ (32 - r) * limbsVal xs) := by
        rw [← Nat.mul_assoc, ← pow_add, show r + (32 - r) = 32 by omega]
      rw [hsplit, Nat.add_mul_div_left _ _ (Nat.two_pow_pos r), Nat.add_assoc]
      congr 1
      conv_rhs => rw [← Nat.mod_add_div (limbsVal xs) (2 ^ r)]
      rw [Nat.mul_add, ← Nat.mul_assoc (2 ^ (32 - r)) (2 ^ r), ← pow_add, show 32 - r + r = 32 by omega]

/-- `div_pow2` answers the magnitude divided by `2^bits` (R107). -/
theorem divPow2_spec (a : List Digit) (bits : Nat) :
    limbsVal (divPow2 a bits) = limbsVal a / 2 ^ bits ∧ (divPow2 a bits).length ≤ a.length := by
  obtain ⟨h1, h2⟩ := shiftRightDigits_spec a (bits / 32)
  obtain ⟨h3, h4⟩ := shiftRightSub_spec (bits % 32) (Nat.mod_lt _ (by omega)) (shiftRightDigits a (bits / 32))
  refine ⟨?_, by rw [divPow2, h4]; exact h2⟩
  rw [divPow2, h3, h1, Nat.div_div_eq_div_mul, ← pow_add, show 32 * (bits / 32) + bits % 32 = bits by omega]

/-- The left shift by bits answers the magnitude times `2^bits`, or overflow where that needs more than `cap` limbs
(R109). -/
theorem mulPow2_spec (cap bits : Nat) (a : List Digit) :
    match mulPow2 cap a bits with
    | some r => limbsVal r = limbsVal a * 2 ^ bits ∧ r.length ≤ cap
    | none => 2 ^ (32 * cap) ≤ limbsVal a * 2 ^ bits := by
  rw [mulPow2]
  by_cases h : 2 ^ (32 * cap) ≤ limbsVal a * 2 ^ bits
  · simp only [h, if_true]
  · simp only [h, if_false]
    exact ⟨limbsVal_limbsOfNat_of_lt (by omega), by simp⟩

end Sys2Proof.Machine
end

