-- ==== Sys2Proof/Laws/Comba.lean ====
section
/-! SUPPORT. The Comba multiplier gives the low limbs of the product (spec/44_scaled_mul.md rules R94 to R96, R99): the
accumulator words as one number, a column as a sum over its pairs, the columns as the product modulo the limbs
computed. -/

namespace Sys2Proof.Machine

/-- The 96-bit number of the three accumulator words (R94). -/
def combaValue (c : CombaWords) : Nat := c.c0.toNat + c.c1.toNat * 2 ^ 32 + c.c2.toNat * 2 ^ 64

/-- `MulAdd` adds the product, where the sum does not overflow 96 bits (R94). -/
theorem mulAdd_value (c : CombaWords) (x y : Digit) (h : combaValue c + x.toNat * y.toNat < 2 ^ 96) :
    combaValue (mulAdd c x y) = combaValue c + x.toNat * y.toNat := by
  have h0 := c.c0.isLt
  have h1 := c.c1.isLt
  have h2 := c.c2.isLt
  have hp : x.toNat * y.toNat ≤ (2 ^ 32 - 1) * (2 ^ 32 - 1) := by
    have := x.isLt; have := y.isLt; exact Nat.mul_le_mul (by omega) (by omega)
  simp only [combaValue, mulAdd, BitVec.toNat_add, BitVec.toNat_ofNat] at *
  omega

/-- The sum over the pairs of a column from `(tx, count − 1)` on, `tx` rising and `ty` falling to 0. -/
def pairSum (a b : List Digit) : (count tx : Nat) → Nat
  | 0, _ => 0
  | ty + 1, tx => (limbAt a tx).toNat * (limbAt b ty).toNat + pairSum a b ty (tx + 1)

theorem limbAt_of_length_le {l : List Digit} {k : Nat} (h : l.length ≤ k) : limbAt l k = 0 := by
  simp [limbAt, List.getD_eq_getElem?_getD, List.getElem?_eq_none h]

theorem pairSum_of_length_le (a b : List Digit) (count tx : Nat) (h : a.length ≤ tx) : pairSum a b count tx = 0 := by
  induction count generalizing tx with
  | zero => rfl
  | succ ty ih => rw [pairSum, limbAt_of_length_le h, ih _ (by omega)]; simp

theorem pairSum_le (a b : List Digit) (count tx : Nat) : pairSum a b count tx ≤ count * (2 ^ 64 - 1) := by
  induction count generalizing tx with
  | zero => simp [pairSum]
  | succ ty ih =>
    have hp : (limbAt a tx).toNat * (limbAt b ty).toNat ≤ (2 ^ 32 - 1) * (2 ^ 32 - 1) := by
      have := (limbAt a tx).isLt; have := (limbAt b ty).isLt; exact Nat.mul_le_mul (by omega) (by omega)
    have := ih (tx + 1)
    rw [pairSum, Nat.succ_mul]
    omega

/-- A column adds the sum over its pairs, where the accumulator does not overflow (R95). -/
theorem combaColumn_value (a b : List Digit) (count tx : Nat) (c : CombaWords)
    (h : combaValue c + count * (2 ^ 64 - 1) < 2 ^ 96) :
    combaValue (combaColumn a b count tx c) = combaValue c + pairSum a b count tx := by
  induction count generalizing tx c with
  | zero => simp [combaColumn, pairSum]
  | succ ty ih =>
    rw [Nat.succ_mul] at h
    have hp : (limbAt a tx).toNat * (limbAt b ty).toNat ≤ (2 ^ 32 - 1) * (2 ^ 32 - 1) := by
      have := (limbAt a tx).isLt; have := (limbAt b ty).isLt; exact Nat.mul_le_mul (by omega) (by omega)
    rw [combaColumn]
    by_cases ht : tx < a.length
    · have hm := mulAdd_value c (limbAt a tx) (limbAt b ty) (by omega)
      rw [if_pos ht, ih _ _ (by omega), hm, pairSum]
      omega
    · rw [if_neg ht, pairSum_of_length_le a b _ _ (by omega), Nat.add_zero]

/-- Starting a column at the largest valid `ty` leaves out pairs that are zero only (R95). -/
theorem pairSum_start (a b : List Digit) (n tx : Nat) :
    pairSum a b (min n b.length) (tx + (n - min n b.length)) = pairSum a b n tx := by
  induction n generalizing tx with
  | zero => simp [pairSum]
  | succ n ih =>
    by_cases h : n + 1 ≤ b.length
    · simp only [Nat.min_eq_left h, Nat.sub_self, Nat.add_zero]
    · have h' : b.length ≤ n := by omega
      have ih' := ih (tx + 1)
      rw [Nat.min_eq_right h'] at ih'
      rw [Nat.min_eq_right (by omega), pairSum, limbAt_of_length_le h', ← ih',
        show tx + (n + 1 - b.length) = tx + 1 + (n - b.length) by omega]
      simp

/-- The columns: the output limbs with the columns not computed make up the sum of all columns (R95, R96). -/
theorem combaColumns_value (a b : List Digit) (hb : b.length ≤ 64) (k ix : Nat) (c : CombaWords)
    (hc : combaValue c < 2 ^ 71) :
    ∃ left, limbsVal (combaColumns a b k ix c) + 2 ^ (32 * k) * left =
      combaValue c + ∑ j ∈ Finset.range k, pairSum a b (ix + j + 1) 0 * 2 ^ (32 * j) ∧
      (combaColumns a b k ix c).length = k := by
  induction k generalizing ix c with
  | zero => exact ⟨combaValue c, by simp [combaColumns], rfl⟩
  | succ k ih =>
    simp only [combaColumns]
    set count := min (ix + 1) b.length with hcount
    have hcv := combaColumn_value a b count (ix + 1 - count) c (by omega)
    have hstart := pairSum_start a b (ix + 1) 0
    rw [Nat.zero_add, ← hcount] at hstart
    rw [hstart] at hcv
    have hle := pairSum_le a b count (ix + 1 - count)
    rw [hstart] at hle
    set c' := combaColumn a b count (ix + 1 - count) c
    have h0 := c'.c0.isLt
    have h1 := c'.c1.isLt
    have h2 := c'.c2.isLt
    have hshift : combaValue c' = c'.c0.toNat + 2 ^ 32 * combaValue ⟨c'.c1, c'.c2, 0⟩ := by
      simp only [combaValue, toNat_zero']; omega
    obtain ⟨left, hv, hl⟩ := ih (ix + 1) ⟨c'.c1, c'.c2, 0⟩ (by omega)
    refine ⟨left, ?_, by simp only [List.length_cons, hl]⟩
    rw [limbsVal_cons, Finset.sum_range_succ', show 32 * (k + 1) = 32 + 32 * k by ring, pow_add]
    have hsum : ∑ j ∈ Finset.range k, pairSum a b (ix + (j + 1) + 1) 0 * 2 ^ (32 * (j + 1)) =
        2 ^ 32 * ∑ j ∈ Finset.range k, pairSum a b (ix + 1 + j + 1) 0 * 2 ^ (32 * j) := by
      rw [Finset.mul_sum]
      refine Finset.sum_congr rfl fun j _ => ?_
      rw [show ix + (j + 1) + 1 = ix + 1 + j + 1 by ring, show 32 * (j + 1) = 32 + 32 * j by ring, pow_add]
      ring
    rw [hsum]
    simp only [Nat.mul_zero, pow_zero, Nat.mul_one, Nat.add_zero]
    have : combaValue c + pairSum a b (ix + 1) 0 = c'.c0.toNat + 2 ^ 32 * combaValue ⟨c'.c1, c'.c2, 0⟩ := by
      rw [← hcv, hshift]
    nlinarith

theorem pairSum_cons_shift (x : Digit) (xs b : List Digit) (count tx : Nat) :
    pairSum (x :: xs) b count (tx + 1) = pairSum xs b count tx := by
  induction count generalizing tx with
  | zero => rfl
  | succ ty ih => rw [pairSum, pairSum, ih]; rfl

theorem sum_limbAt (b : List Digit) (k : Nat) :
    ∑ j ∈ Finset.range k, (limbAt b j).toNat * 2 ^ (32 * j) = limbsVal b % 2 ^ (32 * k) := by
  induction k with
  | zero => simp [Nat.mod_one]
  | succ k ih =>
    rw [Finset.sum_range_succ, ih, limbAt_toNat, show 32 * (k + 1) = 32 * k + 32 by ring, pow_add, Nat.mod_mul]
    ring

/-- The sum of the columns is the product, modulo the limbs computed (R96). -/
theorem sum_columns_modEq (a b : List Digit) (k : Nat) :
    (∑ j ∈ Finset.range k, pairSum a b (j + 1) 0 * 2 ^ (32 * j)) ≡ limbsVal a * limbsVal b [MOD 2 ^ (32 * k)] := by
  induction a generalizing k with
  | nil =>
    have : ∀ n, pairSum [] b n 0 = 0 := fun n => pairSum_of_length_le _ _ _ _ (by simp)
    simp [this, Nat.ModEq]
  | cons x xs ih =>
    cases k with
    | zero => simp [Nat.ModEq, Nat.mod_one]
    | succ k =>
      have hsplit : ∑ j ∈ Finset.range (k + 1), pairSum (x :: xs) b (j + 1) 0 * 2 ^ (32 * j) =
          x.toNat * (limbsVal b % 2 ^ (32 * (k + 1))) +
            2 ^ 32 * ∑ j ∈ Finset.range k, pairSum xs b (j + 1) 0 * 2 ^ (32 * j) := by
        have h1 : ∀ j, pairSum (x :: xs) b (j + 1) 0 = x.toNat * (limbAt b j).toNat + pairSum xs b j 0 := by
          intro j
          rw [pairSum, pairSum_cons_shift]; rfl
        simp only [h1, Nat.add_mul, Finset.sum_add_distrib]
        congr 1
        · rw [← sum_limbAt, Finset.mul_sum]
          exact Finset.sum_congr rfl fun j _ => by ring
        · rw [Finset.sum_range_succ', Finset.mul_sum]
          simp only [pairSum, Nat.zero_mul, Nat.add_zero]
          refine Finset.sum_congr rfl fun j _ => ?_
          rw [show 32 * (j + 1) = 32 + 32 * j by ring, pow_add]
          ring
      rw [hsplit, limbsVal_cons, Nat.add_mul, Nat.mul_assoc (2 ^ 32)]
      refine Nat.ModEq.add ((Nat.mod_modEq _ _).mul_left _) ?_
      rw [show 32 * (k + 1) = 32 + 32 * k by ring, pow_add]
      exact Nat.ModEq.mul_left' _ (ih k)

/-- `Comba` answers the product modulo the limbs it computes (R96). -/
theorem comba_spec {cap : Nat} (a b : List Digit) (hb : b.length ≤ 64) :
    limbsVal (comba cap a b) =
      limbsVal a * limbsVal b % 2 ^ (32 * min (a.length + b.length) (cap - 1)) ∧
    (comba cap a b).length = min (a.length + b.length) (cap - 1) := by
  set k := min (a.length + b.length) (cap - 1) with hk
  obtain ⟨left, hv, hl⟩ := combaColumns_value a b hb k 0 ⟨0, 0, 0⟩ (by simp [combaValue])
  refine ⟨?_, hl⟩
  have hlt := limbsVal_lt (combaColumns a b k 0 ⟨0, 0, 0⟩)
  rw [hl] at hlt
  have hz : combaValue ⟨0, 0, 0⟩ = 0 := by simp [combaValue]
  simp only [hz, Nat.zero_add] at hv
  have hmod := sum_columns_modEq a b k
  rw [← hv] at hmod
  have : limbsVal (combaColumns a b k 0 ⟨0, 0, 0⟩) % 2 ^ (32 * k) = limbsVal a * limbsVal b % 2 ^ (32 * k) := by
    rw [← show _ % _ = _ % _ from hmod, Nat.add_mul_mod_self_left]
  rw [Nat.mod_eq_of_lt hlt] at this
  exact this

/-- The product of two magnitudes: exact, or overflow where it is `2^(32·(cap−1))` or more (R99, R100). -/
theorem mulMag_spec {cap : Nat} (a b : List Digit) (hb : b.length ≤ 64) :
    match mulMag cap a b with
    | some r => limbsVal r = limbsVal a * limbsVal b ∧ limbsVal r < 2 ^ (32 * (cap - 1)) ∧ r.length ≤ cap - 1
    | none => 2 ^ (32 * (cap - 1)) ≤ limbsVal a * limbsVal b := by
  rw [mulMag]
  by_cases h : 2 ^ (32 * (cap - 1)) ≤ limbsVal a * limbsVal b
  · simp only [h, if_true]
  · simp only [h, if_false]
    obtain ⟨hv, hl⟩ := comba_spec (cap := cap) a b hb
    have hP : limbsVal a * limbsVal b < 2 ^ (32 * min (a.length + b.length) (cap - 1)) := by
      rcases Nat.le_total (a.length + b.length) (cap - 1) with hm | hm
      · rw [Nat.min_eq_left hm, Nat.mul_add, pow_add]
        exact Nat.mul_lt_mul'' (limbsVal_lt a) (limbsVal_lt b)
      · rw [Nat.min_eq_right hm]; omega
    rw [Nat.mod_eq_of_lt hP] at hv
    exact ⟨hv, by omega, by omega⟩

end Sys2Proof.Machine
end

