-- ==== Sys2Proof/Laws/Counts.lean ====
section
/-! SUPPORT. The number of limbs of a number (spec/10_state.md rules R17 and R22), and the replacement of one limb
(spec/40_wide_unsigned.md rule R55, spec/42_scaled_basic.md rule R76). -/

namespace Sys2Proof.Machine

/-- The number of limbs of an array with no zero at the high end is the count R17 and R22 give. -/
theorem length_eq_limbCount {n : Nat} (hn : 0 < n) {l : List (BitVec n)} (h : l.getLast? ≠ some 0) :
    l.length = limbCount n (limbsVal l) := by
  have hlt := limbsVal_lt l
  by_cases h0 : l = []
  · subst h0; simp [limbCount, bitlen, limbsVal]; rw [Nat.div_eq_of_lt]; omega
  · have hge := pow_le_limbsVal h0 h
    have hlen : 0 < l.length := List.length_pos_iff.mpr h0
    have hv : limbsVal l ≠ 0 := by
      have : 0 < 2 ^ (n * (l.length - 1)) := by positivity
      omega
    rw [limbCount, bitlen, if_neg hv]
    have h1 : n * (l.length - 1) ≤ Nat.log2 (limbsVal l) := (Nat.le_log2 hv).mpr hge
    have h2 : Nat.log2 (limbsVal l) < n * l.length := (Nat.log2_lt hv).mpr hlt
    symm
    rw [Nat.div_eq_iff hn]
    obtain ⟨k, hk⟩ : ∃ k, l.length = k + 1 := ⟨l.length - 1, by omega⟩
    rw [hk] at h1 h2 ⊢
    simp only [Nat.add_sub_cancel] at h1
    have : n * (k + 1) = n * k + n := by ring
    have : (k + 1) * n = n * k + n := by ring
    omega

/-- `length` of a canonical WideUnsigned follows from its value; zero has one limb (R16, R17). -/
theorem length_of_wideCanonical {a : List WideLimb} (h : WideCanonical a) :
    a.length = max 1 (limbCount 64 (wval a)) := by
  by_cases h0 : a.getLast? = some 0
  · rw [h.2.2 h0]; decide
  · have := length_eq_limbCount (by omega) h0
    have := h.1
    show a.length = max 1 (limbCount 64 (limbsVal a))
    omega

/-- Replacing limb `k` of a number changes that limb and no other (R55, R76). -/
theorem limb_of_replaced (w n k x : Nat) (hx : x < 2 ^ w) (j : Nat) :
    (n - n / 2 ^ (w * k) % 2 ^ w * 2 ^ (w * k) + x * 2 ^ (w * k)) / 2 ^ (w * j) % 2 ^ w =
      if j = k then x else n / 2 ^ (w * j) % 2 ^ w := by
  obtain ⟨lo, hlo⟩ : ∃ lo, lo = n % 2 ^ (w * k) := ⟨_, rfl⟩
  obtain ⟨d, hd⟩ : ∃ d, d = n / 2 ^ (w * k) % 2 ^ w := ⟨_, rfl⟩
  obtain ⟨hi, hhi⟩ : ∃ hi, hi = n / 2 ^ (w * k) / 2 ^ w := ⟨_, rfl⟩
  have hP : 0 < 2 ^ (w * k) := by positivity
  have hW : 0 < 2 ^ w := by positivity
  have hn : n = lo + 2 ^ (w * k) * (d + 2 ^ w * hi) := by
    rw [hd, hhi, Nat.mod_add_div, hlo, Nat.mod_add_div]
  have hlo' : lo < 2 ^ (w * k) := by rw [hlo]; exact Nat.mod_lt _ hP
  have hd' : d < 2 ^ w := by rw [hd]; exact Nat.mod_lt _ hW
  rw [← hd]
  have hn' : n - d * 2 ^ (w * k) + x * 2 ^ (w * k) = lo + 2 ^ (w * k) * (x + 2 ^ w * hi) := by
    have : n = (lo + 2 ^ (w * k) * (2 ^ w * hi)) + d * 2 ^ (w * k) := by rw [hn]; ring
    rw [this, Nat.add_sub_cancel]; ring
  rw [hn']
  rcases Nat.lt_trichotomy j k with h | h | h
  · rw [if_neg (by omega), hn]
    obtain ⟨m, rfl⟩ : ∃ m, k = j + 1 + m := ⟨k - j - 1, by omega⟩
    have e : ∀ y, (lo + 2 ^ (w * (j + 1 + m)) * y) / 2 ^ (w * j) % 2 ^ w = lo / 2 ^ (w * j) % 2 ^ w := by
      intro y
      rw [show w * (j + 1 + m) = w * j + (w + w * m) by ring, pow_add, Nat.mul_assoc,
        Nat.add_mul_div_left _ _ (by positivity), pow_add, Nat.mul_assoc, Nat.add_mul_mod_self_left]
    rw [e, e]
  · rw [if_pos h, h, Nat.add_mul_div_left _ _ hP, Nat.div_eq_of_lt hlo', Nat.zero_add, Nat.add_mul_mod_self_left,
    Nat.mod_eq_of_lt hx]
  · rw [if_neg (by omega), hn]
    obtain ⟨m, rfl⟩ : ∃ m, j = k + (1 + m) := ⟨j - k - 1, by omega⟩
    have e : ∀ y < 2 ^ w,
      (lo + 2 ^ (w * k) * (y + 2 ^ w * hi)) / 2 ^ (w * (k + (1 + m))) % 2 ^ w = hi / 2 ^ (w * m) % 2 ^ w := by
      intro y hy
      rw [show w * (k + (1 + m)) = w * k + (w + w * m) by ring, pow_add, ← Nat.div_div_eq_div_mul,
        Nat.add_mul_div_left _ _ hP, Nat.div_eq_of_lt hlo', Nat.zero_add, pow_add, ← Nat.div_div_eq_div_mul,
          Nat.add_mul_div_left _ _ hW, Nat.div_eq_of_lt hy, Nat.zero_add]
    rw [e _ hx, e _ hd']

/-- Replacing a limb below the capacity keeps the number below it (R55, R76). -/
theorem replaced_lt (w n k x cap : Nat) (hx : x < 2 ^ w) (hk : k < cap) (hn : n < 2 ^ (w * cap)) :
    n - n / 2 ^ (w * k) % 2 ^ w * 2 ^ (w * k) + x * 2 ^ (w * k) < 2 ^ (w * cap) := by
  obtain ⟨lo, hlo⟩ : ∃ lo, lo = n % 2 ^ (w * k) := ⟨_, rfl⟩
  obtain ⟨d, hd⟩ : ∃ d, d = n / 2 ^ (w * k) % 2 ^ w := ⟨_, rfl⟩
  obtain ⟨hi, hhi⟩ : ∃ hi, hi = n / 2 ^ (w * k) / 2 ^ w := ⟨_, rfl⟩
  have hP : 0 < 2 ^ (w * k) := by positivity
  have hW : 0 < 2 ^ w := by positivity
  have hn0 : n = lo + 2 ^ (w * k) * (d + 2 ^ w * hi) := by
    rw [hd, hhi, Nat.mod_add_div, hlo, Nat.mod_add_div]
  have hlo' : lo < 2 ^ (w * k) := by rw [hlo]; exact Nat.mod_lt _ hP
  rw [← hd]
  have hn' : n - d * 2 ^ (w * k) + x * 2 ^ (w * k) = lo + 2 ^ (w * k) * (x + 2 ^ w * hi) := by
    have : n = (lo + 2 ^ (w * k) * (2 ^ w * hi)) + d * 2 ^ (w * k) := by rw [hn0]; ring
    rw [this, Nat.add_sub_cancel]; ring
  rw [hn']
  obtain ⟨m, rfl⟩ : ∃ m, cap = k + (1 + m) := ⟨cap - k - 1, by omega⟩
  rw [show w * (k + (1 + m)) = w * k + (w + w * m) by ring, pow_add, pow_add] at hn ⊢
  have hhi' : hi < 2 ^ (w * m) := by
    rw [hhi, Nat.div_div_eq_div_mul, Nat.div_lt_iff_lt_mul (by positivity)]
    rw [Nat.mul_comm (2 ^ (w*m)), Nat.mul_assoc]; exact hn
  have h1 : x + 2 ^ w * hi < 2 ^ w * 2 ^ (w * m) := by nlinarith
  nlinarith

end Sys2Proof.Machine
end

