-- ==== Sys2Proof/Laws/Decode.lean ====
section
/-! SUPPORT. The fields of a command word (spec/30_encoding.md rule R42): a word is the sum of its fields, each at its
place, and each field reads back. -/

namespace Sys2Proof

theorem toNat_append_eq {m n : Nat} (x : BitVec m) (y : BitVec n) : (x ++ y).toNat = x.toNat * 2 ^ n + y.toNat := by
  rw [BitVec.toNat_append, ← Nat.shiftLeft_add_eq_or_of_lt y.isLt, Nat.shiftLeft_eq]

section Fields
variable (op : BitVec 8) (rd ra rb : RegField) (imm : Immediate) (cmd : CommandWord)

/-- The word as a number (R42). -/
theorem pack_toNat : (pack op rd ra rb imm).toNat =
    op.toNat * 2 ^ 24 + rd.toNat * 2 ^ 20 + ra.toNat * 2 ^ 16 + rb.toNat * 2 ^ 12 + imm.toNat := by
  rw [pack]
  simp only [toNat_append_eq]
  ring

theorem opOf_toNat : (opOf cmd).toNat = cmd.toNat / 2 ^ 24 % 2 ^ 8 := by
  rw [opOf, BitVec.extractLsb'_toNat, Nat.shiftRight_eq_div_pow]
theorem rdOf_toNat : (rdOf cmd).toNat = cmd.toNat / 2 ^ 20 % 2 ^ 4 := by
  rw [rdOf, BitVec.extractLsb'_toNat, Nat.shiftRight_eq_div_pow]
theorem raOf_toNat : (raOf cmd).toNat = cmd.toNat / 2 ^ 16 % 2 ^ 4 := by
  rw [raOf, BitVec.extractLsb'_toNat, Nat.shiftRight_eq_div_pow]
theorem rbOf_toNat : (rbOf cmd).toNat = cmd.toNat / 2 ^ 12 % 2 ^ 4 := by
  rw [rbOf, BitVec.extractLsb'_toNat, Nat.shiftRight_eq_div_pow]
theorem immOf_toNat : (immOf cmd).toNat = cmd.toNat % 2 ^ 12 := by
  rw [immOf, BitVec.extractLsb'_toNat, Nat.shiftRight_zero]

@[simp] theorem opOf_pack : opOf (pack op rd ra rb imm) = op := by
  apply BitVec.eq_of_toNat_eq; rw [opOf_toNat, pack_toNat]; omega
@[simp] theorem rdOf_pack : rdOf (pack op rd ra rb imm) = rd := by
  apply BitVec.eq_of_toNat_eq; rw [rdOf_toNat, pack_toNat]; omega
@[simp] theorem raOf_pack : raOf (pack op rd ra rb imm) = ra := by
  apply BitVec.eq_of_toNat_eq; rw [raOf_toNat, pack_toNat]; omega
@[simp] theorem rbOf_pack : rbOf (pack op rd ra rb imm) = rb := by
  apply BitVec.eq_of_toNat_eq; rw [rbOf_toNat, pack_toNat]; omega
@[simp] theorem immOf_pack : immOf (pack op rd ra rb imm) = imm := by
  apply BitVec.eq_of_toNat_eq; rw [immOf_toNat, pack_toNat]; omega

/-- A word is the word of its fields. -/
theorem pack_fields : pack (opOf cmd) (rdOf cmd) (raOf cmd) (rbOf cmd) (immOf cmd) = cmd := by
  apply BitVec.eq_of_toNat_eq
  rw [pack_toNat, opOf_toNat, rdOf_toNat, raOf_toNat, rbOf_toNat, immOf_toNat]
  omega

end Fields

section Formats
variable {cmd : CommandWord} {i : Instr}

/-! When a format gives a command: its unused fields are zero, and the command is made of the used ones (R43, R45). -/

theorem decodeN_ok {make : Instr} :
    decodeN cmd make = .ok i ↔ (rdOf cmd = 0 ∧ raOf cmd = 0 ∧ rbOf cmd = 0 ∧ immOf cmd = 0) ∧ i = make := by
  rw [decodeN]
  split
  · next h => simp only [Bool.and_eq_true, beq_iff_eq] at h; simp [h, eq_comm]
  · next h => simp only [Bool.and_eq_true, beq_iff_eq] at h; simp only [reduceCtorEq, false_iff]; tauto

theorem decodeD_ok {make : RegField → Instr} :
    decodeD cmd make = .ok i ↔ (raOf cmd = 0 ∧ rbOf cmd = 0 ∧ immOf cmd = 0) ∧ i = make (rdOf cmd) := by
  rw [decodeD]
  split
  · next h => simp only [Bool.and_eq_true, beq_iff_eq] at h; simp [h, eq_comm]
  · next h => simp only [Bool.and_eq_true, beq_iff_eq] at h; simp only [reduceCtorEq, false_iff]; tauto

theorem decodeA_ok {make : RegField → Instr} :
    decodeA cmd make = .ok i ↔ (rdOf cmd = 0 ∧ rbOf cmd = 0 ∧ immOf cmd = 0) ∧ i = make (raOf cmd) := by
  rw [decodeA]
  split
  · next h => simp only [Bool.and_eq_true, beq_iff_eq] at h; simp [h, eq_comm]
  · next h => simp only [Bool.and_eq_true, beq_iff_eq] at h; simp only [reduceCtorEq, false_iff]; tauto

theorem decodeI_ok {make : Immediate → Instr} :
    decodeI cmd make = .ok i ↔ (rdOf cmd = 0 ∧ raOf cmd = 0 ∧ rbOf cmd = 0) ∧ i = make (immOf cmd) := by
  rw [decodeI]
  split
  · next h => simp only [Bool.and_eq_true, beq_iff_eq] at h; simp [h, eq_comm]
  · next h => simp only [Bool.and_eq_true, beq_iff_eq] at h; simp only [reduceCtorEq, false_iff]; tauto

theorem decodeDI_ok {make : RegField → Immediate → Instr} :
    decodeDI cmd make = .ok i ↔ (raOf cmd = 0 ∧ rbOf cmd = 0) ∧ i = make (rdOf cmd) (immOf cmd) := by
  rw [decodeDI]
  split
  · next h => simp only [Bool.and_eq_true, beq_iff_eq] at h; simp [h, eq_comm]
  · next h => simp only [Bool.and_eq_true, beq_iff_eq] at h; simp only [reduceCtorEq, false_iff]; tauto

theorem decodeAI_ok {make : RegField → Immediate → Instr} :
    decodeAI cmd make = .ok i ↔ (rdOf cmd = 0 ∧ rbOf cmd = 0) ∧ i = make (raOf cmd) (immOf cmd) := by
  rw [decodeAI]
  split
  · next h => simp only [Bool.and_eq_true, beq_iff_eq] at h; simp [h, eq_comm]
  · next h => simp only [Bool.and_eq_true, beq_iff_eq] at h; simp only [reduceCtorEq, false_iff]; tauto

theorem decodeDA_ok {make : RegField → RegField → Instr} :
    decodeDA cmd make = .ok i ↔ (rbOf cmd = 0 ∧ immOf cmd = 0) ∧ i = make (rdOf cmd) (raOf cmd) := by
  rw [decodeDA]
  split
  · next h => simp only [Bool.and_eq_true, beq_iff_eq] at h; simp [h, eq_comm]
  · next h => simp only [Bool.and_eq_true, beq_iff_eq] at h; simp only [reduceCtorEq, false_iff]; tauto

theorem decodeAB_ok {make : RegField → RegField → Instr} :
    decodeAB cmd make = .ok i ↔ (rdOf cmd = 0 ∧ immOf cmd = 0) ∧ i = make (raOf cmd) (rbOf cmd) := by
  rw [decodeAB]
  split
  · next h => simp only [Bool.and_eq_true, beq_iff_eq] at h; simp [h, eq_comm]
  · next h => simp only [Bool.and_eq_true, beq_iff_eq] at h; simp only [reduceCtorEq, false_iff]; tauto

theorem decodeDAB_ok {make : RegField → RegField → RegField → Instr} :
    decodeDAB cmd make = .ok i ↔ (immOf cmd = 0) ∧ i = make (rdOf cmd) (raOf cmd) (rbOf cmd) := by
  rw [decodeDAB]
  split
  · next h => simp only [beq_iff_eq] at h; simp [h, eq_comm]
  · next h => simp only [beq_iff_eq] at h; simp only [reduceCtorEq, false_iff]; tauto

theorem decodeDAI_ok {make : RegField → RegField → Immediate → Instr} :
    decodeDAI cmd make = .ok i ↔ (rbOf cmd = 0) ∧ i = make (rdOf cmd) (raOf cmd) (immOf cmd) := by
  rw [decodeDAI]
  split
  · next h => simp only [beq_iff_eq] at h; simp [h, eq_comm]
  · next h => simp only [beq_iff_eq] at h; simp only [reduceCtorEq, false_iff]; tauto

theorem decodeDABI_ok {make : RegField → RegField → RegField → Immediate → Instr} :
    decodeDABI cmd make = .ok i ↔ i = make (rdOf cmd) (raOf cmd) (rbOf cmd) (immOf cmd) := by
  simp [decodeDABI, eq_comm]

end Formats

/-! ### Masks -/

theorem append_and {m n : Nat} (x x' : BitVec m) (y y' : BitVec n) :
    (x ++ y) &&& (x' ++ y') = (x &&& x') ++ (y &&& y') := by
  ext k hk
  simp only [BitVec.getElem_and, BitVec.getElem_append]
  split <;> rfl

theorem pack_and (op op' : BitVec 8) (rd ra rb rd' ra' rb' : RegField) (imm imm' : Immediate) :
    pack op rd ra rb imm &&& pack op' rd' ra' rb' imm' =
      pack (op &&& op') (rd &&& rd') (ra &&& ra') (rb &&& rb') (imm &&& imm') := by
  exact (append_and ..).trans (congrArg (· ++ _) ((append_and ..).trans (congrArg (· ++ _)
    ((append_and ..).trans (congrArg (· ++ _) (append_and ..))))))

theorem pack_inj {op op' : BitVec 8} {rd ra rb rd' ra' rb' : RegField} {imm imm' : Immediate} :
    pack op rd ra rb imm = pack op' rd' ra' rb' imm' ↔ op = op' ∧ rd = rd' ∧ ra = ra' ∧ rb = rb' ∧ imm = imm' := by
  constructor
  · intro h
    exact ⟨by rw [← opOf_pack op rd ra rb imm, h, opOf_pack], by rw [← rdOf_pack op rd ra rb imm, h, rdOf_pack],
      by rw [← raOf_pack op rd ra rb imm, h, raOf_pack], by rw [← rbOf_pack op rd ra rb imm, h, rbOf_pack],
      by rw [← immOf_pack op rd ra rb imm, h, immOf_pack]⟩
  · rintro ⟨rfl, rfl, rfl, rfl, rfl⟩; rfl

/-- The fields the format does not use are zero (R45). -/
def Format.unusedZero (cmd : CommandWord) : Format → Prop
  | .n => rdOf cmd = 0 ∧ raOf cmd = 0 ∧ rbOf cmd = 0 ∧ immOf cmd = 0
  | .d => raOf cmd = 0 ∧ rbOf cmd = 0 ∧ immOf cmd = 0
  | .a => rdOf cmd = 0 ∧ rbOf cmd = 0 ∧ immOf cmd = 0
  | .i => rdOf cmd = 0 ∧ raOf cmd = 0 ∧ rbOf cmd = 0
  | .di => raOf cmd = 0 ∧ rbOf cmd = 0
  | .ai => rdOf cmd = 0 ∧ rbOf cmd = 0
  | .da => rbOf cmd = 0 ∧ immOf cmd = 0
  | .ab => rdOf cmd = 0 ∧ immOf cmd = 0
  | .dab => immOf cmd = 0
  | .dai => rbOf cmd = 0
  | .dabi => True

/-- The masked word is an opcode pattern exactly when the opcode is that one and the unused fields are zero. -/
theorem and_mask_eq_iff (f : Format) (op : BitVec 8) (cmd : CommandWord) :
    cmd &&& f.mask = pack op 0 0 0 0 ↔ opOf cmd = op ∧ f.unusedZero cmd := by
  have ones : ∀ {n : Nat} (x : BitVec n), x &&& BitVec.allOnes n = x := fun x => by simp
  have h8 : (0xFF#8) = BitVec.allOnes 8 := rfl
  have h4 : (0xF#4) = BitVec.allOnes 4 := rfl
  have h12 : (0xFFF#12) = BitVec.allOnes 12 := rfl
  conv => lhs; lhs; rw [← pack_fields cmd]
  cases f
  · rw [show Format.n.mask = pack 0xFF#8 0xF#4 0xF#4 0xF#4 0xFFF#12 from rfl, pack_and, pack_inj]
    simp only [h8, h4, h12, ones, Format.unusedZero]
  · rw [show Format.d.mask = pack 0xFF#8 0#4 0xF#4 0xF#4 0xFFF#12 from rfl, pack_and, pack_inj]
    simp only [h8, h4, h12, ones, BitVec.and_zero, Format.unusedZero]
    simp
  · rw [show Format.a.mask = pack 0xFF#8 0xF#4 0#4 0xF#4 0xFFF#12 from rfl, pack_and, pack_inj]
    simp only [h8, h4, h12, ones, BitVec.and_zero, Format.unusedZero]
    simp
  · rw [show Format.i.mask = pack 0xFF#8 0xF#4 0xF#4 0xF#4 0#12 from rfl, pack_and, pack_inj]
    simp only [h8, h4, ones, BitVec.and_zero, Format.unusedZero]
    simp
  · rw [show Format.di.mask = pack 0xFF#8 0#4 0xF#4 0xF#4 0#12 from rfl, pack_and, pack_inj]
    simp only [h8, h4, ones, BitVec.and_zero, Format.unusedZero]
    simp
  · rw [show Format.ai.mask = pack 0xFF#8 0xF#4 0#4 0xF#4 0#12 from rfl, pack_and, pack_inj]
    simp only [h8, h4, ones, BitVec.and_zero, Format.unusedZero]
    simp
  · rw [show Format.da.mask = pack 0xFF#8 0#4 0#4 0xF#4 0xFFF#12 from rfl, pack_and, pack_inj]
    simp only [h8, h4, h12, ones, BitVec.and_zero, Format.unusedZero]
    simp
  · rw [show Format.ab.mask = pack 0xFF#8 0xF#4 0#4 0#4 0xFFF#12 from rfl, pack_and, pack_inj]
    simp only [h8, h4, h12, ones, BitVec.and_zero, Format.unusedZero]
    simp
  · rw [show Format.dab.mask = pack 0xFF#8 0#4 0#4 0#4 0xFFF#12 from rfl, pack_and, pack_inj]
    simp only [h8, h12, ones, BitVec.and_zero, Format.unusedZero]
    simp
  · rw [show Format.dai.mask = pack 0xFF#8 0#4 0#4 0xF#4 0#12 from rfl, pack_and, pack_inj]
    simp only [h8, h4, ones, BitVec.and_zero, Format.unusedZero]
    simp
  · rw [show Format.dabi.mask = pack 0xFF#8 0#4 0#4 0#4 0#12 from rfl, pack_and, pack_inj]
    simp only [h8, ones, BitVec.and_zero, Format.unusedZero]
    simp

end Sys2Proof
end

