-- ==== Sys2Proof/Laws/FloatArith.lean ====
section
/-! SUPPORT. The float codec by value (spec/47_float_codec.md): the limbs of a pattern are the limbs of its magnitude
(R118), the magnitude of a pattern in the domain fits the register (R119), the window is the magnitude modulo `2^96`
(R123). -/

namespace Sys2Proof.Machine

/-- The limbs of a number, listed by index. -/
theorem limbsOfNat_eq_map (n count v : Nat) :
    limbsOfNat n count v = (List.range count).map fun k => BitVec.ofNat n (v / 2 ^ (n * k)) := by
  induction count generalizing v with
  | zero => rfl
  | succ k ih =>
    rw [limbsOfNat, ih, List.range_succ_eq_map, List.map_cons, List.map_map]
    congr 1
    · simp
    · refine List.map_congr_left fun j _ => ?_
      rw [Function.comp, Nat.div_div_eq_div_mul, ← pow_add, Nat.mul_succ, Nat.add_comm]

/-- Limb `k` of a shifted significand. -/
theorem significandSlice_eq (sig : Nat) (ts : Int) (k : Nat) : significandSlice sig ts k =
    BitVec.ofNat 32 ((if 0 ≤ ts then sig * 2 ^ ts.toNat else sig / 2 ^ (-ts).toNat) / 2 ^ (32 * k)) := by
  simp only [significandSlice]
  by_cases ho : 0 ≤ ts - 32 * (k : Int)
  · rw [if_pos ho, if_pos (by omega)]
    obtain ⟨o, h⟩ : ∃ o : Nat, ts.toNat = o + 32 * k := ⟨ts.toNat - 32 * k, by omega⟩
    rw [h, pow_add, ← Nat.mul_assoc, Nat.mul_div_cancel _ (by positivity), show (ts - 32 * (k : Int)).toNat = o by omega]
  · rw [if_neg ho]
    by_cases ht : 0 ≤ ts
    · rw [if_pos ht]
      obtain ⟨o, h⟩ : ∃ o : Nat, 32 * k = ts.toNat + o := ⟨32 * k - ts.toNat, by omega⟩
      rw [h, pow_add, Nat.mul_comm sig, Nat.mul_div_mul_left _ _ (by positivity),
        show (-(ts - 32 * (k : Int))).toNat = o by omega]
    · rw [if_neg ht, Nat.div_div_eq_div_mul, ← pow_add,
        show (-(ts - 32 * (k : Int))).toNat = (-ts).toNat + 32 * k by omega]

/-- The limbs of a pattern are the limbs of its magnitude (R118). -/
theorem limbsOf_eq (f : FloatFormat) (cap : Nat) (b : DataWord) :
    f.limbsOf cap b = limbsOfNat 32 cap (f.magnitudeOf b) := by
  rw [FloatFormat.limbsOf, limbsOfNat_eq_map]
  exact List.map_congr_left fun k _ => significandSlice_eq ..

theorem significandOf_bounds (f : FloatFormat) (b : DataWord) :
    2 ^ f.mantissaBits ≤ f.significandOf b ∧ f.significandOf b < 2 ^ (f.mantissaBits + 1) := by
  have := Nat.mod_lt b.toNat (show 0 < 2 ^ f.mantissaBits by positivity)
  simp only [FloatFormat.significandOf, FloatFormat.mantissaOf, pow_succ]
  omega

/-- The magnitude is below a power of two the highest bit of the pattern lies below (R119). -/
theorem magnitudeOf_lt (f : FloatFormat) (b : DataWord) (n : Nat) (h : f.unbiasedOf b + 64 < n) :
    f.magnitudeOf b < 2 ^ n := by
  have hs := (significandOf_bounds f b).2
  have hts : f.shiftOf b = f.unbiasedOf b + (64 - f.mantissaBits) := rfl
  rw [FloatFormat.magnitudeOf]
  split
  · next ht =>
    calc f.significandOf b * 2 ^ (f.shiftOf b).toNat
        < 2 ^ (f.mantissaBits + 1) * 2 ^ (f.shiftOf b).toNat := Nat.mul_lt_mul_of_pos_right hs (by positivity)
      _ = 2 ^ (f.mantissaBits + 1 + (f.shiftOf b).toNat) := (pow_add ..).symm
      _ ≤ 2 ^ n := Nat.pow_le_pow_right (by omega) (by omega)
  · next ht =>
    rw [Nat.div_lt_iff_lt_mul (by positivity), ← pow_add]
    exact lt_of_lt_of_le hs (Nat.pow_le_pow_right (by omega) (by omega))

/-- The magnitude of a pattern in the domain fits a register (R119). -/
theorem magnitudeOf_lt_of_inDomain {f : FloatFormat} {cap : Nat} {b : DataWord} (h : f.outOfDomain cap b = false) :
    f.magnitudeOf b < 2 ^ (32 * cap) := by
  refine magnitudeOf_lt f b (32 * cap) ?_
  simp only [FloatFormat.outOfDomain, Bool.or_eq_false_iff, decide_eq_false_iff_not] at h
  push_cast
  omega

/-- The window value is the magnitude modulo `2^96` (R123). -/
theorem windowOf_eq (l : List Digit) : windowOf l = limbsVal l % 2 ^ 96 := by
  simp only [windowOf, limbAt_toNat]
  omega

/-- What the extraction of a pattern does: a domain error that invalidates the destination, or the write of the
magnitude with the pattern's sign (R121, R122). -/
theorem extract_eq (s : State) (f : FloatFormat) (rd : RegField) : s.extract f rd =
    if f.outOfDomain s.config.sCap s.din then .next (s.faulted .domainError [.scaled rd])
    else .next (s.wroteScaled rd (f.magnitudeOf s.din) (f.signOf s.din)) := by
  rw [State.extract, limbsOf_eq]
  rfl

/-- The highest bit of a positive number. -/
theorem bitlen_bounds {w : Nat} (h : 0 < w) : 2 ^ (bitlen w - 1) ≤ w ∧ w < 2 ^ (bitlen w - 1 + 1) := by
  have hb : bitlen w - 1 = Nat.log2 w := by rw [bitlen, if_neg (by omega)]; omega
  rw [hb]
  exact ⟨(Nat.le_log2 (by omega)).mp (le_refl _), Nat.lt_log2_self⟩

theorem bitlen_le {w n : Nat} (hw : w < 2 ^ n) (h0 : 0 < w) : bitlen w ≤ n := by
  have := (bitlen_bounds h0).1
  have := (Nat.pow_lt_pow_iff_right (a := 2) (by omega)).mp (lt_of_le_of_lt this hw)
  omega

/-- What the rounding of a window value gives (R124): a normalized significand `q`, whose value `q · 2^(E + 64 − bias)`
is within half a unit of the last place of the window, and even at exactly half a unit. -/
theorem round_spec (f : FloatFormat) (hb : 64 ≤ f.bias) (w : Nat) (h0 : 0 < w) :
    ∃ q E, f.round w = (E, q - 2 ^ f.mantissaBits) ∧ 2 ^ f.mantissaBits ≤ q ∧ q < 2 ^ (f.mantissaBits + 1) ∧
      f.bias ≤ E + 64 ∧
      (E + 64 - f.bias = bitlen w - 1 ∨ (E + 64 - f.bias = bitlen w ∧ q = 2 ^ f.mantissaBits)) ∧
      2 * (((q * 2 ^ (E + 64 - f.bias) : Nat) : Int) - w * 2 ^ f.mantissaBits).natAbs ≤ 2 ^ (bitlen w - 1) ∧
      (2 * (((q * 2 ^ (E + 64 - f.bias) : Nat) : Int) - w * 2 ^ f.mantissaBits).natAbs = 2 ^ (bitlen w - 1) →
        q % 2 = 0 ∨ f.mantissaBits = 0) := by
  obtain ⟨hl, hu⟩ := bitlen_bounds h0
  have hbp : 0 < bitlen w := by rw [bitlen, if_neg (by omega)]; omega
  obtain ⟨h, hh⟩ : ∃ h, bitlen w = h + 1 := ⟨bitlen w - 1, by omega⟩
  rw [hh] at hl hu ⊢
  simp only [Nat.add_sub_cancel] at hl hu ⊢
  obtain ⟨M, hM⟩ : ∃ M, f.mantissaBits = M := ⟨_, rfl⟩
  simp only [FloatFormat.round, hh, Nat.add_sub_cancel, hM]
  have hPM : 0 < 2 ^ M := by positivity
  by_cases hle : h ≤ M
  · rw [if_pos hle]
    refine ⟨w * 2 ^ (M - h), _, rfl, ?_, ?_, ?_, .inl ?_, ?_, ?_⟩
    · calc 2 ^ M = 2 ^ h * 2 ^ (M - h) := by rw [← pow_add]; congr 1; omega
        _ ≤ _ := Nat.mul_le_mul_right _ hl
    · calc w * 2 ^ (M - h) < 2 ^ (h + 1) * 2 ^ (M - h) := Nat.mul_lt_mul_of_pos_right hu (by positivity)
        _ = 2 ^ (M + 1) := by rw [← pow_add]; congr 1; omega
    · omega
    · omega
    all_goals
      rw [show (((h : Int) - 64 + f.bias).toNat + 64 - f.bias) = h by omega]
      have e : w * 2 ^ (M - h) * 2 ^ h = w * 2 ^ M := by rw [Nat.mul_assoc, ← pow_add]; congr 2; omega
      rw [e]
      push_cast
      rw [Int.sub_self]
      have : 0 < 2 ^ h := by positivity
      simp only [Int.natAbs_zero, Nat.mul_zero]
      omega
  · rw [if_neg hle]
    obtain ⟨u, hu'⟩ : ∃ u, h = M + (u + 1) := ⟨h - M - 1, by omega⟩
    have hU : 2 ^ (h - M) = 2 * 2 ^ (h - M - 1) := by
      rw [← pow_succ']; congr 1; omega
    obtain ⟨hf, hhf⟩ : ∃ x, 2 ^ (h - M - 1) = x := ⟨_, rfl⟩
    rw [hhf] at hU ⊢
    have hfp : 0 < hf := by rw [← hhf]; positivity
    obtain ⟨U, hUe⟩ : ∃ x, 2 ^ (h - M) = x := ⟨_, rfl⟩
    rw [hUe] at hU ⊢
    obtain ⟨q0, hq0⟩ : ∃ x, w / U = x := ⟨_, rfl⟩
    obtain ⟨rem, hrem⟩ : ∃ x, w % U = x := ⟨_, rfl⟩
    rw [hq0, hrem]
    have hw : U * q0 + rem = w := by rw [← hq0, ← hrem]; exact Nat.div_add_mod w U
    have hr : rem < U := by rw [← hrem]; exact Nat.mod_lt _ (by omega)
    have hUM : U * 2 ^ M = 2 ^ h := by rw [← hUe, ← pow_add]; congr 1; omega
    have hq0l : 2 ^ M ≤ q0 := by
      by_contra hc
      have : U * (q0 + 1) ≤ U * 2 ^ M := Nat.mul_le_mul_left _ (by omega)
      rw [Nat.mul_add] at this; omega
    have hq0u : q0 < 2 ^ (M + 1) := by
      by_contra hc
      have : U * 2 ^ (M + 1) ≤ U * q0 := Nat.mul_le_mul_left _ (by omega)
      rw [pow_succ, ← Nat.mul_assoc, hUM] at this
      rw [pow_succ] at hu; omega
    have hpow : ∀ q : Nat, ((q * 2 ^ h : Nat) : Int) - w * 2 ^ M = ((q : Int) * U - w) * 2 ^ M := by
      intro q; rw [← hUM]; push_cast; ring
    have hh2 : 2 ^ h = 2 * hf * 2 ^ M := by rw [← hU, hUM]
    obtain ⟨q', hq'⟩ : ∃ x, (if hf < rem ∨ rem = hf ∧ q0 % 2 = 1 then q0 + 1 else q0) = x := ⟨_, rfl⟩
    rw [hq']
    have hdiff : ((q' : Int) * U - w).natAbs ≤ hf ∧ (((q' : Int) * U - w).natAbs = hf → q' % 2 = 0) ∧ q0 ≤ q' ∧ q' ≤ q0 + 1 := by
      have hwI : (w : Int) = U * q0 + rem := by rw [← hw]; push_cast; ring
      have hUI : (U : Int) = 2 * hf := by exact_mod_cast hU
      split at hq'
      · have e : ((q' : Int) * U - w) = U - rem := by rw [← hq', hwI]; push_cast; ring
        rw [e]; omega
      · have e : ((q' : Int) * U - w) = -rem := by rw [← hq', hwI]; ring
        rw [e]; omega
    obtain ⟨hd1, hd2, hd3, hd4⟩ := hdiff
    have hmain : 2 * (((q' * 2 ^ h : Nat) : Int) - w * 2 ^ M).natAbs ≤ 2 ^ h ∧
        (2 * (((q' * 2 ^ h : Nat) : Int) - w * 2 ^ M).natAbs = 2 ^ h → q' % 2 = 0) := by
      rw [hpow, Int.natAbs_mul, show ((2:Int)^M).natAbs = 2 ^ M by simp [Int.natAbs_pow], hh2]
      constructor
      · calc 2 * (((q' : Int) * U - w).natAbs * 2 ^ M) ≤ 2 * (hf * 2 ^ M) := Nat.mul_le_mul_left _ (Nat.mul_le_mul_right _ hd1)
          _ = _ := by ring
      · intro he
        apply hd2
        have : ((q' : Int) * U - w).natAbs * (2 * 2 ^ M) = hf * (2 * 2 ^ M) := by
          rw [← Nat.mul_assoc, Nat.mul_right_comm]; linarith
        exact Nat.eq_of_mul_eq_mul_right (by positivity) this
    split
    · next hq =>
      refine ⟨2 ^ M, _, rfl, le_refl _, by rw [pow_succ]; omega, by omega, Or.inr ⟨by omega, rfl⟩, ?_⟩
      rw [show (((h : Int) - 64 + 1 + f.bias).toNat + 64 - f.bias) = h + 1 by omega]
      rw [show 2 ^ M * 2 ^ (h + 1) = q' * 2 ^ h by rw [hq, pow_succ, pow_succ]; ring]
      refine ⟨hmain.1, fun he => ?_⟩
      rcases Nat.eq_zero_or_pos M with h0 | h0
      · exact Or.inr h0
      · left
        obtain ⟨m, rfl⟩ : ∃ m, M = m + 1 := ⟨M - 1, by omega⟩
        rw [pow_succ]; omega
    · next hq =>
      refine ⟨q', _, rfl, by omega, by omega, by omega, Or.inl (by omega), ?_⟩
      rw [show (((h : Int) - 64 + f.bias).toNat + 64 - f.bias) = h by omega]
      exact ⟨hmain.1, fun he => Or.inl (hmain.2 he)⟩

/-- A number has one normalized significand and exponent. -/
theorem normalized_unique {M q q' k k' : Nat} (h1 : 2 ^ M ≤ q) (h2 : q < 2 ^ (M + 1)) (h1' : 2 ^ M ≤ q')
    (h2' : q' < 2 ^ (M + 1)) (h : q * 2 ^ k = q' * 2 ^ k') : k = k' ∧ q = q' := by
  have key : ∀ {q q' k k' : Nat}, 2 ^ M ≤ q → q' < 2 ^ (M + 1) → q * 2 ^ k = q' * 2 ^ k' → k ≤ k' := by
    intro q q' k k' h1 h2 h
    by_contra hc
    obtain ⟨j, rfl⟩ : ∃ j, k = k' + 1 + j := ⟨k - k' - 1, by omega⟩
    have hp : 0 < 2 ^ k' := by positivity
    have : 2 ^ (M + 1) * 2 ^ k' ≤ q * 2 ^ (k' + 1 + j) := by
      calc 2 ^ (M + 1) * 2 ^ k' = 2 ^ M * 2 ^ (k' + 1) := by rw [← pow_add, ← pow_add]; congr 1; omega
        _ ≤ q * 2 ^ (k' + 1 + j) := Nat.mul_le_mul h1 (Nat.pow_le_pow_right (by omega) (by omega))
    rw [h] at this
    exact absurd (Nat.le_of_mul_le_mul_right this hp) (by omega)
  have hk : k = k' := le_antisymm (key h1 h2' h) (key h1' h2 h.symm)
  subst hk
  exact ⟨rfl, Nat.eq_of_mul_eq_mul_right (by positivity) h⟩

end Sys2Proof.Machine
end

