-- ==== Sys2Proof/Laws/Operands.lean ====
section
/-! SUPPORT. What the operand forms and the endings of a command can do (spec/40_wide_unsigned.md rule R53): each check
passes on or ends the command with its status, and an ending is decided by the value of the result. -/

namespace Sys2Proof.Machine

variable {s : State}

@[simp] theorem whenLegal_true (next : Result) : s.whenLegal true next = next := rfl
@[simp] theorem whenLegal_false (next : Result) : s.whenLegal false next = .next (s.faulted .illegalCommand []) := rfl

theorem withWide_some {r : RegField} {a : List WideLimb} (h : s.wideReg r = some a) (next : List WideLimb → Result) :
    s.withWide r next = next a := by rw [State.withWide, h]

theorem withWide_none {r : RegField} (h : s.wideReg r = none) (next : List WideLimb → Result) :
    s.withWide r next = .next (s.faulted .invalidOperand []) := by rw [State.withWide, h]; rfl

theorem withScaled_some {r : RegField} {a : ScaledValue} (h : s.scaledReg r = some a) (next : ScaledValue → Result) :
    s.withScaled r next = next a := by rw [State.withScaled, h]

theorem withScaled_none {r : RegField} (h : s.scaledReg r = none) (next : ScaledValue → Result) :
    s.withScaled r next = .next (s.faulted .invalidOperand []) := by rw [State.withScaled, h]; rfl

theorem whenPositive_positive {a : ScaledValue} (h : a.sign = .positive) (next : Result) :
    s.whenPositive a next = next := if_pos h

theorem whenPositive_negative {a : ScaledValue} (h : a.sign = .negative) (next : Result) :
    s.whenPositive a next = .next (s.faulted .invalidOperand []) := by rw [State.whenPositive, h]; rfl

theorem withDigit_digit (h : 0x30 ≤ s.din.toNat ∧ s.din.toNat ≤ 0x39) (next : Nat → Result) :
    s.withDigit next = next (s.din.toNat - 0x30) := by rw [State.withDigit, if_neg (by omega)]

theorem withDigit_other (h : ¬(0x30 ≤ s.din.toNat ∧ s.din.toNat ≤ 0x39)) (next : Nat → Result) :
    s.withDigit next = .next (s.faulted .malformedInput []) := by rw [State.withDigit, if_pos (by omega)]; rfl

/-- A fault that invalidates nothing sets its flag, gives its response, and changes nothing else. -/
theorem faulted_eq_refusedWith {f : FaultClass} (h : f.invalidates = false) (dests : List Dest) :
    s.faulted f dests = s.refusedWith f := faulted_of_not_invalidates s f dests h

/-- The end of a WideUnsigned command by the value of its result: the number is written where it is below `2^512`,
else the destination is invalidated. -/
theorem finishWide_value {rd : RegField} {n : Nat} {o : Option (List WideLimb)}
    (h : match o with
      | some r => limbsVal r = n ∧ r.length ≤ 8
      | none => 2 ^ 512 ≤ n) :
    s.finishWide rd o =
      if n < 2 ^ 512 then .next (s.wroteWide rd n) else .next (s.faulted .capacityOverflow [.wide rd]) := by
  cases o with
  | none => rw [if_neg (Nat.not_lt.mpr h)]; rfl
  | some r =>
    obtain ⟨rfl, hl⟩ := h
    have hlt := limbsVal_lt_of_length_le hl
    rw [if_pos hlt, State.wroteWide, ← writeWide_eq_nat s rd hlt]
    rfl

/-- A clamped write takes any sign where the magnitude is zero. -/
theorem writeScaled_sign {rd : RegField} {l : List Digit} {sg sg' : Sign} (h : limbsVal l ≠ 0 → sg = sg') :
    s.writeScaled rd l sg = s.writeScaled rd l sg' := by
  by_cases h0 : limbsVal l = 0
  · rw [State.writeScaled, State.writeScaled, clamp_zero sg sg' h0]
  · rw [h h0]

/-- The end of a ScaledInt command by the value of its result. `limit` is where the command overflows. -/
theorem finishScaled_value {rd : RegField} {n limit : Nat} {sg : Sign} {o : Option (List Digit × Sign)}
    (hlim : limit ≤ 2 ^ (32 * s.config.sCap))
    (h : match o with
      | some (l, sg') => limbsVal l = n ∧ n < limit ∧ (n ≠ 0 → sg' = sg)
      | none => limit ≤ n) :
    s.finishScaled rd o =
      if n < limit then .next (s.wroteScaled rd n sg) else .next (s.faulted .capacityOverflow [.scaled rd]) := by
  match o, h with
  | none, h => rw [if_neg (Nat.not_lt.mpr h)]; rfl
  | some (l, sg'), ⟨hv, hlt, hs⟩ =>
    subst hv
    rw [if_pos hlt, State.wroteScaled, ← writeScaled_eq_nat s rd sg (lt_of_lt_of_le hlt hlim),
      writeScaled_sign (fun h0 => (hs h0).symm)]
    rfl

/-- The end of a command whose magnitude fits where it is below `limit`. -/
theorem finishScaled_list {rd : RegField} {n limit : Nat} {sg : Sign} {o : Option (List Digit)}
    (hlim : limit ≤ 2 ^ (32 * s.config.sCap))
    (h : match o with
      | some r => limbsVal r = n ∧ limbsVal r < limit
      | none => limit ≤ n) :
    s.finishScaled rd (o.map (·, sg)) =
      if n < limit then .next (s.wroteScaled rd n sg) else .next (s.faulted .capacityOverflow [.scaled rd]) := by
  refine finishScaled_value hlim ?_
  cases o with
  | none => exact h
  | some r => exact ⟨h.1, h.1 ▸ h.2, fun _ => rfl⟩

/-- The end of a command whose magnitude may use the full capacity. -/
theorem finishScaled_full {rd : RegField} {n : Nat} {sg : Sign} {o : Option (List Digit)}
    (h : match o with
      | some r => limbsVal r = n ∧ r.length ≤ s.config.sCap
      | none => 2 ^ (32 * s.config.sCap) ≤ n) :
    s.finishScaled rd (o.map (·, sg)) = if n < 2 ^ (32 * s.config.sCap) then .next (s.wroteScaled rd n sg)
      else .next (s.faulted .capacityOverflow [.scaled rd]) := by
  refine finishScaled_list (le_refl _) ?_
  cases o with
  | none => exact h
  | some r => exact ⟨h.1, lt_of_lt_of_le (limbsVal_lt r) (Nat.pow_le_pow_right (by omega) (by have := h.2; omega))⟩

/-- The end of a signed command (R87). -/
theorem finishScaled_signed {rd : RegField} {n : Int} {o : Option (List Digit × Sign)}
    (h : match o with
      | some (l, sg) => limbsVal l = n.natAbs ∧ l.length ≤ s.config.sCap ∧
          (limbsVal l ≠ 0 → sg = Sign.ofBit (decide (n < 0)))
      | none => 2 ^ (32 * s.config.sCap) ≤ n.natAbs) :
    s.finishScaled rd o = if n.natAbs < 2 ^ (32 * s.config.sCap) then .next ((s.writeScaledInt rd n).respond .ok 0)
      else .next (s.faulted .capacityOverflow [.scaled rd]) := by
  refine finishScaled_value (le_refl _) ?_
  match o, h with
  | none, h => exact h
  | some (l, sg), ⟨h1, h2, h3⟩ =>
    exact ⟨h1, h1 ▸ lt_of_lt_of_le (limbsVal_lt l) (Nat.pow_le_pow_right (by omega) (by omega)), fun h0 => h3 (h1 ▸ h0)⟩

/-- A clamped write of limbs is the write of their number. -/
theorem writeScaled_finish {rd : RegField} {l : List Digit} {sg : Sign} {n : Nat} (hn : limbsVal l = n)
    (hlt : n < 2 ^ (32 * s.config.sCap)) : (s.writeScaled rd l sg).finish 0 = .next (s.wroteScaled rd n sg) := by
  subst hn
  rw [writeScaled_eq_nat s rd sg hlt]
  rfl

end Sys2Proof.Machine
end

