-- ==== Sys2Proof/Laws/Outcome.lean ====
section
/-! SUPPORT. Everything a command can do, said once (spec/40_wide_unsigned.md rule R53, spec/60_exceptions.md rules R137
to R139): it ends with the first fault that applies, or it writes its destinations and ends `OK`. -/

namespace Sys2Proof.Machine

/-- What a command that ends `OK` can have written: nothing, its WideUnsigned destination, its ScaledInt destination, the
two ScaledInt destinations of `SDIVPR`, or the digit buffer. Every write is a canonical one. -/
inductive Written (i : Instr) (s : State) : State → Prop where
  | nothing (h : destsOf i = []) (h' : ∀ ra, i ≠ .wtodec ra) : Written i s s
  | wide (rd : RegField) (l : List WideLimb) (h : destsOf i = [.wide rd]) (h8 : rd.toNat < 8) :
      Written i s (s.writeWide rd l)
  | scaled (rd : RegField) (l : List Digit) (sg : Sign) (h : destsOf i = [.scaled rd]) (h8 : rd.toNat < 8) :
      Written i s (s.writeScaled rd l sg)
  | both (rd rb : RegField) (l l' : List Digit) (sg sg' : Sign) (h : destsOf i = [.scaled rd, .scaled rb])
      (h8 : rd.toNat < 8) (h8' : rb.toNat < 8) : Written i s ((s.writeScaled rb l' sg').writeScaled rd l sg)
  | digits (ra : RegField) (l : List WideLimb) (h : i = .wtodec ra) (hr : s.wideReg ra = some l) :
      Written i s { s with digits := toDecimal l }

/-- What a command can do. -/
inductive Ends (i : Instr) (s : State) : Result → Prop where
  | illegal (h : i.legal s.config s.din = false) : Ends i s (.next (s.faulted .illegalCommand []))
  | unusable (h : i.legal s.config s.din = true) (hu : operandsUsable i s = false) :
      Ends i s (.next (s.faulted .invalidOperand []))
  | malformed (h : i.legal s.config s.din = true) (hu : operandsUsable i s = true)
      (hf : inputFault i s = some .malformedInput) : Ends i s (.next (s.faulted .malformedInput []))
  | outOfDomain (h : i.legal s.config s.din = true) (hu : operandsUsable i s = true)
      (hf : inputFault i s = some .domainError) : Ends i s (.next (s.faulted .domainError (destsOf i)))
  | overflow (h : i.legal s.config s.din = true) (hu : operandsUsable i s = true) (hf : inputFault i s = none) :
      Ends i s (.next (s.faulted .capacityOverflow (destsOf i)))
  | done (t : State) (d : DataWord) (h : i.legal s.config s.din = true) (hu : operandsUsable i s = true)
      (hf : inputFault i s = none) (hw : Written i s t) : Ends i s (.next (t.respond .ok d))

section Forms
variable {i : Instr} {s : State}

/-- A destination of a legal command is one of the eight registers of its file (R46). -/
theorem dest_lt {c : Config} {din : DataWord} {r : RegField} (h : i.legal c din = true)
    (hr : Dest.wide r ∈ destsOf i ∨ Dest.scaled r ∈ destsOf i) : r.toNat < 8 := by
  rw [Instr.legal, Bool.and_eq_true] at h
  cases i <;> simp [destsOf] at hr <;> simp only [Instr.wellFormed, Bool.and_eq_true, namesRegister,
    decide_eq_true_eq] at h <;> rcases hr with rfl | rfl <;> tauto

theorem usable_of (hs : (sourcesOf i).all s.valid = true) (hr : restrictionHolds i s = true) :
    operandsUsable i s = true := by
  rw [operandsUsable, hs, hr]
  rfl

theorem ends_whenLegal {ok : Bool} {next : Result} (hok : ok = i.legal s.config s.din)
    (k : i.legal s.config s.din = true → Ends i s next) : Ends i s (s.whenLegal ok next) := by
  subst hok
  cases h : i.legal s.config s.din
  · exact .illegal h
  · exact k h

theorem unusable_of_invalid {x : Dest} (hx : x ∈ sourcesOf i) (hv : s.valid x = false) : operandsUsable i s = false := by
  rw [operandsUsable, Bool.and_eq_false_iff]
  exact .inl (List.all_eq_false.mpr ⟨x, hx, by simp [hv]⟩)

theorem ends_withWide {r : RegField} {next : List WideLimb → Result} (h : i.legal s.config s.din = true)
    (hx : Dest.wide r ∈ sourcesOf i) (k : ∀ a, s.wideReg r = some a → Ends i s (next a)) :
    Ends i s (s.withWide r next) := by
  cases hr : s.wideReg r with
  | none => rw [withWide_none hr]; exact .unusable h (unusable_of_invalid hx (by simp [State.valid, hr]))
  | some a => rw [withWide_some hr]; exact k a hr

theorem ends_withScaled {r : RegField} {next : ScaledValue → Result} (h : i.legal s.config s.din = true)
    (hx : Dest.scaled r ∈ sourcesOf i) (k : ∀ a, s.scaledReg r = some a → Ends i s (next a)) :
    Ends i s (s.withScaled r next) := by
  cases hr : s.scaledReg r with
  | none => rw [withScaled_none hr]; exact .unusable h (unusable_of_invalid hx (by simp [State.valid, hr]))
  | some a => rw [withScaled_some hr]; exact k a hr

theorem ends_whenPositive {a : ScaledValue} {next : Result} (h : i.legal s.config s.din = true)
    (hn : a.sign = .negative → restrictionHolds i s = false) (k : a.sign = .positive → Ends i s next) :
    Ends i s (s.whenPositive a next) := by
  cases ha : a.sign
  · rw [whenPositive_positive ha]; exact k ha
  · rw [whenPositive_negative ha]
    exact .unusable h (by rw [operandsUsable, hn ha, Bool.and_false])

theorem ends_withDigit {next : Nat → Result} (h : i.legal s.config s.din = true) (hu : operandsUsable i s = true)
    (hi : inputFault i s = if dinIsDigit s.din then none else some .malformedInput)
    (k : inputFault i s = none → ∀ d < 10, s.din.toNat = 0x30 + d → Ends i s (next d)) :
    Ends i s (s.withDigit next) := by
  by_cases hd : 0x30 ≤ s.din.toNat ∧ s.din.toNat ≤ 0x39
  · rw [withDigit_digit hd]
    refine k ?_ _ (by omega) (by omega)
    rw [hi, if_pos (by simp [dinIsDigit, hd.1, hd.2])]
  · rw [withDigit_other hd]
    refine .malformed h hu ?_
    rw [hi, if_neg (by simp only [dinIsDigit, Bool.and_eq_true, decide_eq_true_eq]; exact hd)]

theorem ends_finishWide {rd : RegField} {o : Option (List WideLimb)} (h : i.legal s.config s.din = true)
    (hu : operandsUsable i s = true) (hf : inputFault i s = none) (hd : destsOf i = [.wide rd]) (h8 : rd.toNat < 8) :
    Ends i s (s.finishWide rd o) := by
  rcases finishWide_cases s rd o with ⟨l, -, e⟩ | ⟨-, e⟩ <;> rw [e]
  · exact .done _ _ h hu hf (.wide rd l hd h8)
  · rw [← hd]; exact .overflow h hu hf

theorem ends_finishScaled {rd : RegField} {o : Option (List Digit × Sign)} (h : i.legal s.config s.din = true)
    (hu : operandsUsable i s = true) (hf : inputFault i s = none) (hd : destsOf i = [.scaled rd]) (h8 : rd.toNat < 8) :
    Ends i s (s.finishScaled rd o) := by
  rcases finishScaled_cases s rd o with ⟨l, sg, -, e⟩ | ⟨-, e⟩ <;> rw [e]
  · exact .done _ _ h hu hf (.scaled rd l sg hd h8)
  · rw [← hd]; exact .overflow h hu hf

end Forms

/-- Everything a command can do. -/
theorem exec_ends (i : Instr) (s : State) : Ends i s (exec i s) := by
  cases i with
  | rdcfg =>
    exact .done s _ rfl rfl rfl (.nothing rfl (by simp))
  | rdflags =>
    exact .done s _ rfl rfl rfl (.nothing rfl (by simp))
  | wzero rd =>
    refine ends_whenLegal (Bool.and_true _).symm fun h => ?_
    exact .done _ _ h rfl rfl (.wide rd _ rfl (dest_lt h (by simp [destsOf])))
  | wldl rd imm =>
    refine ends_whenLegal (Bool.and_true _).symm fun h => ?_
    refine ends_withWide h (by simp [sourcesOf]) fun rd' hrd => ?_
    exact .done _ _ h (usable_of (by simp [sourcesOf, State.valid, hrd]) (by simp [restrictionHolds])) rfl (.wide rd _ rfl (dest_lt h (by simp [destsOf])))
  | wstl ra imm =>
    refine ends_whenLegal (Bool.and_true _).symm fun h => ?_
    refine ends_withWide h (by simp [sourcesOf]) fun ra' hra => ?_
    exact .done s _ h (usable_of (by simp [sourcesOf, State.valid, hra]) (by simp [restrictionHolds])) rfl (.nothing rfl (by simp))
  | wlen ra =>
    refine ends_whenLegal (Bool.and_true _).symm fun h => ?_
    refine ends_withWide h (by simp [sourcesOf]) fun ra' hra => ?_
    exact .done s _ h (usable_of (by simp [sourcesOf, State.valid, hra]) (by simp [restrictionHolds])) rfl (.nothing rfl (by simp))
  | waddl rd =>
    refine ends_whenLegal (Bool.and_true _).symm fun h => ?_
    refine ends_withWide h (by simp [sourcesOf]) fun rd' hrd => ?_
    exact ends_finishWide h (usable_of (by simp [sourcesOf, State.valid, hrd]) (by simp [restrictionHolds])) rfl rfl (dest_lt h (by simp [destsOf]))
  | wmull rd =>
    refine ends_whenLegal (Bool.and_true _).symm fun h => ?_
    refine ends_withWide h (by simp [sourcesOf]) fun rd' hrd => ?_
    exact ends_finishWide h (usable_of (by simp [sourcesOf, State.valid, hrd]) (by simp [restrictionHolds])) rfl rfl (dest_lt h (by simp [destsOf]))
  | wadd rd ra rb =>
    refine ends_whenLegal (Bool.and_true _).symm fun h => ?_
    refine ends_withWide h (by simp [sourcesOf]) fun ra' hra => ?_
    refine ends_withWide h (by simp [sourcesOf]) fun rb' hrb => ?_
    exact ends_finishWide h (usable_of (by simp [sourcesOf, State.valid, hra, hrb]) (by simp [restrictionHolds])) rfl rfl (dest_lt h (by simp [destsOf]))
  | wmul rd ra rb =>
    refine ends_whenLegal (Bool.and_true _).symm fun h => ?_
    refine ends_withWide h (by simp [sourcesOf]) fun ra' hra => ?_
    refine ends_withWide h (by simp [sourcesOf]) fun rb' hrb => ?_
    exact ends_finishWide h (usable_of (by simp [sourcesOf, State.valid, hra, hrb]) (by simp [restrictionHolds])) rfl rfl (dest_lt h (by simp [destsOf]))
  | wdacc rd =>
    refine ends_whenLegal (Bool.and_true _).symm fun h => ?_
    refine ends_withWide h (by simp [sourcesOf]) fun rd' hrd => ?_
    exact ends_withDigit h (usable_of (by simp [sourcesOf, State.valid, hrd]) (by simp [restrictionHolds])) rfl fun hf d _ _ => ends_finishWide h (usable_of (by simp [sourcesOf, State.valid, hrd]) (by simp [restrictionHolds])) hf rfl (dest_lt h (by simp [destsOf]))
  | wtodec ra =>
    refine ends_whenLegal (Bool.and_true _).symm fun h => ?_
    refine ends_withWide h (by simp [sourcesOf]) fun ra' hra => ?_
    exact .done _ _ h (usable_of (by simp [sourcesOf, State.valid, hra]) (by simp [restrictionHolds])) rfl (.digits ra _ rfl hra)
  | dlen =>
    exact .done s _ rfl rfl rfl (.nothing rfl (by simp))
  | dget imm =>
    refine ends_whenLegal (Bool.and_true _).symm fun h => ?_
    cases hc : s.digits[imm.toNat]? with
    | none =>
      have := List.getElem?_eq_none_iff.mp hc
      exact .unusable h (by simp [operandsUsable, sourcesOf, restrictionHolds]; omega)
    | some c =>
      obtain ⟨hl, -⟩ := List.getElem?_eq_some_iff.mp hc
      exact .done s _ h (by simp [operandsUsable, sourcesOf, restrictionHolds, hl]) rfl (.nothing rfl (by simp))
  | szero rd =>
    refine ends_whenLegal (Bool.and_true _).symm fun h => ?_
    exact .done _ _ h rfl rfl (.scaled rd _ _ rfl (dest_lt h (by simp [destsOf])))
  | sldl rd imm =>
    refine ends_whenLegal rfl fun h => ?_
    refine ends_withScaled h (by simp [sourcesOf]) fun rd' hrd => ?_
    exact .done _ _ h (usable_of (by simp [sourcesOf, State.valid, hrd]) (by simp [restrictionHolds])) rfl (.scaled rd _ _ rfl (dest_lt h (by simp [destsOf])))
  | sstl ra imm =>
    refine ends_whenLegal (Bool.and_true _).symm fun h => ?_
    refine ends_withScaled h (by simp [sourcesOf]) fun ra' hra => ?_
    exact .done s _ h (usable_of (by simp [sourcesOf, State.valid, hra]) (by simp [restrictionHolds])) rfl (.nothing rfl (by simp))
  | sinfo ra =>
    refine ends_whenLegal (Bool.and_true _).symm fun h => ?_
    refine ends_withScaled h (by simp [sourcesOf]) fun ra' hra => ?_
    exact .done s _ h (usable_of (by simp [sourcesOf, State.valid, hra]) (by simp [restrictionHolds])) rfl (.nothing rfl (by simp))
  | smov rd ra =>
    refine ends_whenLegal (Bool.and_true _).symm fun h => ?_
    refine ends_withScaled h (by simp [sourcesOf]) fun ra' hra => ?_
    exact .done _ _ h (usable_of (by simp [sourcesOf, State.valid, hra]) (by simp [restrictionHolds])) rfl (.scaled rd _ _ rfl (dest_lt h (by simp [destsOf])))
  | sneg rd ra =>
    refine ends_whenLegal (Bool.and_true _).symm fun h => ?_
    refine ends_withScaled h (by simp [sourcesOf]) fun ra' hra => ?_
    exact .done _ _ h (usable_of (by simp [sourcesOf, State.valid, hra]) (by simp [restrictionHolds])) rfl (.scaled rd _ _ rfl (dest_lt h (by simp [destsOf])))
  | sabs rd ra =>
    refine ends_whenLegal (Bool.and_true _).symm fun h => ?_
    refine ends_withScaled h (by simp [sourcesOf]) fun ra' hra => ?_
    exact .done _ _ h (usable_of (by simp [sourcesOf, State.valid, hra]) (by simp [restrictionHolds])) rfl (.scaled rd _ _ rfl (dest_lt h (by simp [destsOf])))
  | scmpm ra rb =>
    refine ends_whenLegal (Bool.and_true _).symm fun h => ?_
    refine ends_withScaled h (by simp [sourcesOf]) fun ra' hra => ?_
    refine ends_withScaled h (by simp [sourcesOf]) fun rb' hrb => ?_
    exact .done s _ h (usable_of (by simp [sourcesOf, State.valid, hra, hrb]) (by simp [restrictionHolds])) rfl (.nothing rfl (by simp))
  | scmp ra rb =>
    refine ends_whenLegal (Bool.and_true _).symm fun h => ?_
    refine ends_withScaled h (by simp [sourcesOf]) fun ra' hra => ?_
    refine ends_withScaled h (by simp [sourcesOf]) fun rb' hrb => ?_
    exact .done s _ h (usable_of (by simp [sourcesOf, State.valid, hra, hrb]) (by simp [restrictionHolds])) rfl (.nothing rfl (by simp))
  | sadd rd ra rb =>
    refine ends_whenLegal (Bool.and_true _).symm fun h => ?_
    refine ends_withScaled h (by simp [sourcesOf]) fun ra' hra => ?_
    refine ends_withScaled h (by simp [sourcesOf]) fun rb' hrb => ?_
    exact ends_finishScaled h (usable_of (by simp [sourcesOf, State.valid, hra, hrb]) (by simp [restrictionHolds])) rfl rfl (dest_lt h (by simp [destsOf]))
  | ssub rd ra rb =>
    refine ends_whenLegal (Bool.and_true _).symm fun h => ?_
    refine ends_withScaled h (by simp [sourcesOf]) fun ra' hra => ?_
    refine ends_withScaled h (by simp [sourcesOf]) fun rb' hrb => ?_
    exact ends_finishScaled h (usable_of (by simp [sourcesOf, State.valid, hra, hrb]) (by simp [restrictionHolds])) rfl rfl (dest_lt h (by simp [destsOf]))
  | smul rd ra rb =>
    refine ends_whenLegal (Bool.and_true _).symm fun h => ?_
    refine ends_withScaled h (by simp [sourcesOf]) fun ra' hra => ?_
    refine ends_withScaled h (by simp [sourcesOf]) fun rb' hrb => ?_
    exact ends_finishScaled h (usable_of (by simp [sourcesOf, State.valid, hra, hrb]) (by simp [restrictionHolds])) rfl rfl (dest_lt h (by simp [destsOf]))
  | smuls rd ra rb =>
    refine ends_whenLegal (Bool.and_true _).symm fun h => ?_
    refine ends_withScaled h (by simp [sourcesOf]) fun ra' hra => ?_
    refine ends_withScaled h (by simp [sourcesOf]) fun rb' hrb => ?_
    exact ends_finishScaled h (usable_of (by simp [sourcesOf, State.valid, hra, hrb]) (by simp [restrictionHolds])) rfl rfl (dest_lt h (by simp [destsOf]))
  | sshld rd imm =>
    refine ends_whenLegal (Bool.and_true _).symm fun h => ?_
    refine ends_withScaled h (by simp [sourcesOf]) fun rd' hrd => ?_
    exact ends_finishScaled h (usable_of (by simp [sourcesOf, State.valid, hrd]) (by simp [restrictionHolds])) rfl rfl (dest_lt h (by simp [destsOf]))
  | sshrd rd imm =>
    refine ends_whenLegal (Bool.and_true _).symm fun h => ?_
    refine ends_withScaled h (by simp [sourcesOf]) fun rd' hrd => ?_
    exact .done _ _ h (usable_of (by simp [sourcesOf, State.valid, hrd]) (by simp [restrictionHolds])) rfl (.scaled rd _ _ rfl (dest_lt h (by simp [destsOf])))
  | smuld rd ra =>
    refine ends_whenLegal rfl fun h => ?_
    refine ends_withScaled h (by simp [sourcesOf]) fun ra' hra => ?_
    exact ends_finishScaled h (usable_of (by simp [sourcesOf, State.valid, hra]) (by simp [restrictionHolds])) rfl rfl (dest_lt h (by simp [destsOf]))
  | saddd rd ra =>
    refine ends_whenLegal rfl fun h => ?_
    refine ends_withScaled h (by simp [sourcesOf]) fun ra' hra => ?_
    refine ends_whenPositive h (fun hn => by simp [restrictionHolds, State.isNegative, hra, hn]) fun hp => ?_
    exact ends_finishScaled h (usable_of (by simp [sourcesOf, State.valid, hra]) (by simp [restrictionHolds, State.isNegative, hra, hp])) rfl rfl (dest_lt h (by simp [destsOf]))
  | sdivp rd ra imm =>
    refine ends_whenLegal (Bool.and_true _).symm fun h => ?_
    refine ends_withScaled h (by simp [sourcesOf]) fun ra' hra => ?_
    exact .done _ _ h (usable_of (by simp [sourcesOf, State.valid, hra]) (by simp [restrictionHolds])) rfl (.scaled rd _ _ rfl (dest_lt h (by simp [destsOf])))
  | sdivpr rd ra rb imm =>
    refine ends_whenLegal (Bool.and_true _).symm fun h => ?_
    refine ends_withScaled h (by simp [sourcesOf]) fun ra' hra => ?_
    exact .done _ _ h (usable_of (by simp [sourcesOf, State.valid, hra]) (by simp [restrictionHolds])) rfl (.both rd rb _ _ _ _ rfl (dest_lt h (by simp [destsOf])) (dest_lt h (by simp [destsOf])))
  | smodp rd ra imm =>
    refine ends_whenLegal (Bool.and_true _).symm fun h => ?_
    refine ends_withScaled h (by simp [sourcesOf]) fun ra' hra => ?_
    exact .done _ _ h (usable_of (by simp [sourcesOf, State.valid, hra]) (by simp [restrictionHolds])) rfl (.scaled rd _ _ rfl (dest_lt h (by simp [destsOf])))
  | smulp rd ra imm =>
    refine ends_whenLegal (Bool.and_true _).symm fun h => ?_
    refine ends_withScaled h (by simp [sourcesOf]) fun ra' hra => ?_
    exact ends_finishScaled h (usable_of (by simp [sourcesOf, State.valid, hra]) (by simp [restrictionHolds])) rfl rfl (dest_lt h (by simp [destsOf]))
  | sdacc rd =>
    refine ends_whenLegal (Bool.and_true _).symm fun h => ?_
    refine ends_withScaled h (by simp [sourcesOf]) fun rd' hrd => ?_
    refine ends_whenPositive h (fun hn => by simp [restrictionHolds, State.isNegative, hrd, hn]) fun hp => ?_
    exact ends_withDigit h (usable_of (by simp [sourcesOf, State.valid, hrd]) (by simp [restrictionHolds, State.isNegative, hrd, hp])) rfl fun hf d _ _ => ends_finishScaled h (usable_of (by simp [sourcesOf, State.valid, hrd]) (by simp [restrictionHolds, State.isNegative, hrd, hp])) hf rfl (dest_lt h (by simp [destsOf]))
  | sfromd rd =>
    refine ends_whenLegal (Bool.and_true _).symm fun h => ?_
    rw [State.extract]
    cases hf : binary64.outOfDomain s.config.sCap s.din
    · exact .done _ _ h rfl (by simp [inputFault, hf]) (.scaled rd _ _ rfl (dest_lt h (by simp [destsOf])))
    · exact .outOfDomain h rfl (by simp [inputFault, hf])
  | sfromf rd =>
    refine ends_whenLegal rfl fun h => ?_
    rw [State.extract]
    cases hf : binary32.outOfDomain s.config.sCap s.din
    · exact .done _ _ h rfl (by simp [inputFault, hf]) (.scaled rd _ _ rfl (dest_lt h (by simp [destsOf])))
    · exact .outOfDomain h rfl (by simp [inputFault, hf])
  | stod ra =>
    refine ends_whenLegal (Bool.and_true _).symm fun h => ?_
    refine ends_withScaled h (by simp [sourcesOf]) fun ra' hra => ?_
    exact .done s _ h (usable_of (by simp [sourcesOf, State.valid, hra]) (by simp [restrictionHolds])) rfl (.nothing rfl (by simp))
  | stof ra =>
    refine ends_whenLegal (Bool.and_true _).symm fun h => ?_
    refine ends_withScaled h (by simp [sourcesOf]) fun ra' hra => ?_
    exact .done s _ h (usable_of (by simp [sourcesOf, State.valid, hra]) (by simp [restrictionHolds])) rfl (.nothing rfl (by simp))

end Sys2Proof.Machine
end

