-- ==== Sys2Proof/Laws/PerInstr.lean ====
section
/-! SUPPORT. Statements made about every command, one lemma each. `OpcodeByte`: the word of a command has the command's
opcode in bits 31:24 (spec/30_encoding.md rules R42 and R44). -/

namespace Sys2Proof.Laws.OpcodeByte

/-- The word of the command has the command's opcode in its opcode field. -/
def Statement (i : Instr) : Prop := opOf (encode i) = i.opcode

theorem rdcfg : Statement (.rdcfg) := opOf_pack ..
theorem rdflags : Statement (.rdflags) := opOf_pack ..
theorem wzero (rd : RegField) : Statement (.wzero rd) := opOf_pack ..
theorem wldl (rd : RegField) (imm : Immediate) : Statement (.wldl rd imm) := opOf_pack ..
theorem wstl (ra : RegField) (imm : Immediate) : Statement (.wstl ra imm) := opOf_pack ..
theorem wlen (ra : RegField) : Statement (.wlen ra) := opOf_pack ..
theorem waddl (rd : RegField) : Statement (.waddl rd) := opOf_pack ..
theorem wmull (rd : RegField) : Statement (.wmull rd) := opOf_pack ..
theorem wadd (rd ra rb : RegField) : Statement (.wadd rd ra rb) := opOf_pack ..
theorem wmul (rd ra rb : RegField) : Statement (.wmul rd ra rb) := opOf_pack ..
theorem wdacc (rd : RegField) : Statement (.wdacc rd) := opOf_pack ..
theorem wtodec (ra : RegField) : Statement (.wtodec ra) := opOf_pack ..
theorem dlen : Statement (.dlen) := opOf_pack ..
theorem dget (imm : Immediate) : Statement (.dget imm) := opOf_pack ..
theorem szero (rd : RegField) : Statement (.szero rd) := opOf_pack ..
theorem sldl (rd : RegField) (imm : Immediate) : Statement (.sldl rd imm) := opOf_pack ..
theorem sstl (ra : RegField) (imm : Immediate) : Statement (.sstl ra imm) := opOf_pack ..
theorem sinfo (ra : RegField) : Statement (.sinfo ra) := opOf_pack ..
theorem smov (rd ra : RegField) : Statement (.smov rd ra) := opOf_pack ..
theorem sneg (rd ra : RegField) : Statement (.sneg rd ra) := opOf_pack ..
theorem sabs (rd ra : RegField) : Statement (.sabs rd ra) := opOf_pack ..
theorem scmpm (ra rb : RegField) : Statement (.scmpm ra rb) := opOf_pack ..
theorem scmp (ra rb : RegField) : Statement (.scmp ra rb) := opOf_pack ..
theorem sadd (rd ra rb : RegField) : Statement (.sadd rd ra rb) := opOf_pack ..
theorem ssub (rd ra rb : RegField) : Statement (.ssub rd ra rb) := opOf_pack ..
theorem smul (rd ra rb : RegField) : Statement (.smul rd ra rb) := opOf_pack ..
theorem smuls (rd ra rb : RegField) : Statement (.smuls rd ra rb) := opOf_pack ..
theorem sshld (rd : RegField) (imm : Immediate) : Statement (.sshld rd imm) := opOf_pack ..
theorem sshrd (rd : RegField) (imm : Immediate) : Statement (.sshrd rd imm) := opOf_pack ..
theorem smuld (rd ra : RegField) : Statement (.smuld rd ra) := opOf_pack ..
theorem saddd (rd ra : RegField) : Statement (.saddd rd ra) := opOf_pack ..
theorem sdivp (rd ra : RegField) (imm : Immediate) : Statement (.sdivp rd ra imm) := opOf_pack ..
theorem sdivpr (rd ra rb : RegField) (imm : Immediate) : Statement (.sdivpr rd ra rb imm) := opOf_pack ..
theorem smodp (rd ra : RegField) (imm : Immediate) : Statement (.smodp rd ra imm) := opOf_pack ..
theorem smulp (rd ra : RegField) (imm : Immediate) : Statement (.smulp rd ra imm) := opOf_pack ..
theorem sdacc (rd : RegField) : Statement (.sdacc rd) := opOf_pack ..
theorem sfromd (rd : RegField) : Statement (.sfromd rd) := opOf_pack ..
theorem sfromf (rd : RegField) : Statement (.sfromf rd) := opOf_pack ..
theorem stod (ra : RegField) : Statement (.stod ra) := opOf_pack ..
theorem stof (ra : RegField) : Statement (.stof ra) := opOf_pack ..

end Sys2Proof.Laws.OpcodeByte
end

