-- ==== Sys2Proof/Laws/Run.lean ====
section
/-! SUPPORT. Runs of several steps (spec/30_encoding.md rules R41 and R52), taken apart into their steps. -/

namespace Sys2Proof.Machine

theorem runFor_zero (s : State) : runFor 0 s = .next s := rfl

theorem core_run_of_step {M : Host.Core} {s t : M.State} (h : M.step s = .next t) (k : Nat) :
    M.run (k + 1) s = M.run k t := by
  simp only [Host.Core.run, h]

theorem core_run_step {M : Host.Core} {k : Nat} {s t : M.State} (h : M.run (k + 1) s = .next t) :
    ∃ s', M.step s = .next s' := by
  cases hs : M.step s with
  | next s' => exact ⟨s', rfl⟩
  | fault r => simp only [Host.Core.run, hs] at h; cases h
  | refused r => simp only [Host.Core.run, hs] at h; cases h

theorem runFor_of_step {s t : State} (h : step s = .next t) (k : Nat) : runFor (k + 1) s = runFor k t :=
  core_run_of_step (M := Sys2Proof.core) h k

theorem runFor_add {j : Nat} {s t : State} (h : runFor j s = .next t) (k : Nat) : runFor (j + k) s = runFor k t := by
  induction j generalizing s with
  | zero => cases h; rw [Nat.zero_add]
  | succ j ih =>
    obtain ⟨s', hs⟩ : ∃ s', step s = .next s' := core_run_step (M := Sys2Proof.core) h
    rw [runFor_of_step hs] at h
    rw [Nat.add_right_comm, runFor_of_step hs, ih h]

end Sys2Proof.Machine
end

