-- ==== Sys2Proof/Laws/Signed.lean ====
section
/-! SUPPORT. The signed add and the signed compare of ScaledInt values by the integers they hold (spec/43_scaled_addsub.md
rule R87, spec/42_scaled_basic.md rules R82 and R84). -/

namespace Sys2Proof.Machine

theorem toInt_positive {a : ScaledValue} (h : a.sign = .positive) : a.toInt = a.mag := by
  rw [ScaledValue.toInt, h]

theorem toInt_negative {a : ScaledValue} (h : a.sign = .negative) : a.toInt = -a.mag := by
  rw [ScaledValue.toInt, h]

theorem toInt_natAbs (a : ScaledValue) : a.toInt.natAbs = a.mag := by
  rw [ScaledValue.toInt]; split <;> simp

/-- Flipping the sign negates the integer. -/
theorem toInt_flip (a : ScaledValue) : (⟨a.limbs, a.sign.flip⟩ : ScaledValue).toInt = -a.toInt := by
  obtain ⟨l, sg⟩ := a
  cases sg <;> simp [ScaledValue.toInt, Sign.flip, ScaledValue.mag]

theorem ofBit_of_neg {n : Int} (h : n < 0) : Sign.ofBit (decide (n < 0)) = .negative := by
  rw [decide_eq_true h]; rfl

theorem ofBit_of_nonneg {n : Int} (h : 0 ≤ n) : Sign.ofBit (decide (n < 0)) = .positive := by
  rw [decide_eq_false (by omega)]; rfl

/-- The signed add is exact, or overflows where the magnitude of the sum does not fit (R87). It needs no canonical
zero: the second operand of a subtraction may be a negative zero inside the dispatch (R89). -/
theorem signedAdd_spec {cap : Nat} {a b : ScaledValue} (ha : a.limbs.length ≤ cap) (hb : b.limbs.length ≤ cap)
    (hac : a.limbs.getLast? ≠ some 0) (hbc : b.limbs.getLast? ≠ some 0) :
    match signedAdd cap a b with
    | some (l, sg) => limbsVal l = (a.toInt + b.toInt).natAbs ∧ l.length ≤ cap ∧
        (limbsVal l ≠ 0 → sg = Sign.ofBit (decide (a.toInt + b.toInt < 0)))
    | none => 2 ^ (32 * cap) ≤ (a.toInt + b.toInt).natAbs := by
  have hadd := uAddMag_spec ha hb
  have hcmp := cmpMag_spec hac hbc
  have hA : a.toInt = if a.sign = .positive then (limbsVal a.limbs : Int) else -limbsVal a.limbs := by
    rw [ScaledValue.toInt]; cases a.sign <;> rfl
  have hB : b.toInt = if b.sign = .positive then (limbsVal b.limbs : Int) else -limbsVal b.limbs := by
    rw [ScaledValue.toInt]; cases b.sign <;> rfl
  generalize a.toInt = A at *
  generalize b.toInt = B at *
  rw [signedAdd]
  by_cases hs : a.sign = b.sign
  · rw [if_pos hs]
    rw [← hs] at hB
    cases hu : uAddMag cap a.limbs b.limbs with
    | none =>
      rw [hu] at hadd
      simp only [Option.map_none]
      split at hA <;> simp_all only [if_true, if_false] <;> omega
    | some r =>
      rw [hu] at hadd
      obtain ⟨hv, hl⟩ := hadd
      simp only [Option.map_some]
      cases hsa : a.sign <;> rw [hsa] at hA hB <;> simp only [reduceCtorEq, if_true, if_false] at hA hB <;>
        refine ⟨by omega, hl, fun h0 => ?_⟩
      · exact (ofBit_of_nonneg (by omega)).symm
      · exact (ofBit_of_neg (by omega)).symm
  · rw [if_neg hs]
    by_cases hlt : limbsVal a.limbs < limbsVal b.limbs
    · rw [if_pos (by rw [hcmp]; exact Nat.compare_eq_lt.mpr hlt)]
      obtain ⟨hv, hl⟩ := uSubMag_spec (x := b.limbs) (y := a.limbs) (by omega)
      cases hsa : a.sign <;> cases hsb : b.sign <;> rw [hsa] at hA hs <;> rw [hsb] at hB hs <;>
        simp only [reduceCtorEq, if_true, if_false, not_true_eq_false] at hA hB hs
      · exact ⟨by omega, by omega, fun h0 => (ofBit_of_neg (by omega)).symm⟩
      · exact ⟨by omega, by omega, fun h0 => (ofBit_of_nonneg (by omega)).symm⟩
    · rw [if_neg (by rw [hcmp]; intro h; exact hlt (Nat.compare_eq_lt.mp h))]
      obtain ⟨hv, hl⟩ := uSubMag_spec (x := a.limbs) (y := b.limbs) (by omega)
      cases hsa : a.sign <;> cases hsb : b.sign <;> rw [hsa] at hA hs <;> rw [hsb] at hB hs <;>
        simp only [reduceCtorEq, if_true, if_false, not_true_eq_false] at hA hB hs
      · exact ⟨by omega, by omega, fun h0 => (ofBit_of_nonneg (by omega)).symm⟩
      · exact ⟨by omega, by omega, fun h0 => (ofBit_of_neg (by omega)).symm⟩

/-- The signed compare is the comparison of the integers (R84), for operands with no negative zero (R21). -/
theorem cmpSigned_spec {cap : Nat} {a b : ScaledValue} (ha : ScaledCanonical cap a) (hb : ScaledCanonical cap b) :
    cmpSigned a b = compare a.toInt b.toInt := by
  have hab := cmpMag_spec ha.2.1 hb.2.1
  have hba := cmpMag_spec hb.2.1 ha.2.1
  have nz : ∀ {c : ScaledValue}, ScaledCanonical cap c → c.sign = .negative → 0 < limbsVal c.limbs := by
    intro c hc hn
    rcases Nat.eq_zero_or_pos (limbsVal c.limbs) with h0 | h0
    · have := hc.2.2 (eq_nil_of_limbsVal_eq_zero hc.2.1 h0)
      rw [this] at hn
      exact absurd hn (by decide)
    · exact h0
  have na := nz ha
  have nb := nz hb
  obtain ⟨la, sa⟩ := a
  obtain ⟨lb, sb⟩ := b
  simp only at hab hba na nb
  rw [cmpSigned]
  cases sa <;> cases sb <;> simp only [ScaledValue.toInt, ScaledValue.mag, ne_eq, not_true_eq_false, if_false, if_true,
    reduceCtorEq, not_false_eq_true]
  · rw [hab, Int.compare_eq_ite_lt, Nat.compare_eq_ite_lt]
    simp
  · have := nb rfl
    exact (Int.compare_eq_gt.mpr (by omega)).symm
  · have := na rfl
    exact (Int.compare_eq_lt.mpr (by omega)).symm
  · rw [hba, Int.compare_eq_ite_lt, Nat.compare_eq_ite_lt]
    simp

end Sys2Proof.Machine
end

