-- ==== Sys2Proof/Tests/Slice0.lean ====
section
/-! SUPPORT. Tests: the checks on a command's fields, the example word of every command, one or two vectors of
spec/95_test_vectors.md for each command (the expected values are the file's), the host's interface, and a concrete
state for the hypotheses of each statement. -/

namespace Sys2Proof.Tests

open Sys2Proof.Machine

/-! ### Ill-formed commands (R46, R47, R48, R61, R62, R108) -/

theorem test_wellFormed_rd : (Instr.wzero 8).wellFormed Config.standard = false := by decide
theorem test_wellFormed_ra : (Instr.stod 8).wellFormed Config.standard = false := by decide
theorem test_wellFormed_rb : (Instr.sadd 2 0 15).wellFormed Config.standard = false := by decide
theorem test_wellFormed_wide_index : (Instr.wstl 0 8).wellFormed Config.standard = false := by decide
theorem test_wellFormed_scaled_index : (Instr.sstl 0 6).wellFormed Config.standard = false := by decide
theorem test_wellFormed_char_index : (Instr.dget 155).wellFormed Config.standard = false := by decide
theorem test_wellFormed_wadd_alias_ra : (Instr.wadd 0 0 1).wellFormed Config.standard = false := by decide
theorem test_wellFormed_wadd_alias_rb : (Instr.wadd 1 0 1).wellFormed Config.standard = false := by decide
theorem test_wellFormed_wmul_alias_ra : (Instr.wmul 0 0 1).wellFormed Config.standard = false := by decide
theorem test_wellFormed_wmul_alias_rb : (Instr.wmul 1 0 1).wellFormed Config.standard = false := by decide
theorem test_wellFormed_sdivpr_alias : (Instr.sdivpr 1 0 1 4).wellFormed Config.standard = false := by decide
theorem test_dinFits_sldl : (Instr.sldl 0 0).dinFits 0x100000000 = false := by decide
theorem test_dinFits_saddd : (Instr.saddd 0 0).dinFits 0x100000000 = false := by decide
theorem test_dinFits_smuld : (Instr.smuld 0 0).dinFits 0x100000000 = false := by decide
theorem test_dinFits_sfromf : (Instr.sfromf 0).dinFits 0x100000000 = false := by decide
/-- The greatest legal fields and the counts beyond any capacity (R47). -/
theorem test_legal : (Instr.wadd 7 6 6).legal Config.standard 0 = true ∧
    (Instr.sshld 0 4095).legal Config.standard 0 = true ∧ (Instr.sldl 7 5).legal Config.standard 0xFFFFFFFF = true := by
  decide

/-! ### The word of every command, from its rule -/

theorem test_decode_rdcfg : decode 0x01000000#32 = .ok (.rdcfg) := by decide -- R129
theorem test_decode_rdflags : decode 0x02000000#32 = .ok (.rdflags) := by decide -- R130
theorem test_decode_wzero : decode 0x10300000#32 = .ok (.wzero 3) := by decide -- R54
theorem test_decode_wldl : decode 0x11000007#32 = .ok (.wldl 0 7) := by decide -- R55
theorem test_decode_wstl : decode 0x12000001#32 = .ok (.wstl 0 1) := by decide -- R56
theorem test_decode_wlen : decode 0x13020000#32 = .ok (.wlen 2) := by decide -- R57
theorem test_decode_waddl : decode 0x14000000#32 = .ok (.waddl 0) := by decide -- R59
theorem test_decode_wmull : decode 0x15000000#32 = .ok (.wmull 0) := by decide -- R60
theorem test_decode_wadd : decode 0x16201000#32 = .ok (.wadd 2 0 1) := by decide -- R61
theorem test_decode_wmul : decode 0x17201000#32 = .ok (.wmul 2 0 1) := by decide -- R62
theorem test_decode_wdacc : decode 0x18000000#32 = .ok (.wdacc 0) := by decide -- R65
theorem test_decode_wtodec : decode 0x19000000#32 = .ok (.wtodec 0) := by decide -- R67
theorem test_decode_dlen : decode 0x1A000000#32 = .ok (.dlen) := by decide -- R69
theorem test_decode_dget : decode 0x1B000013#32 = .ok (.dget 19) := by decide -- R70
theorem test_decode_szero : decode 0x20100000#32 = .ok (.szero 1) := by decide -- R75
theorem test_decode_sldl : decode 0x21000002#32 = .ok (.sldl 0 2) := by decide -- R76
theorem test_decode_sstl : decode 0x22000002#32 = .ok (.sstl 0 2) := by decide -- R77
theorem test_decode_sinfo : decode 0x23000000#32 = .ok (.sinfo 0) := by decide -- R78
theorem test_decode_smov : decode 0x24100000#32 = .ok (.smov 1 0) := by decide -- R79
theorem test_decode_sneg : decode 0x25100000#32 = .ok (.sneg 1 0) := by decide -- R80, vector V3.13
theorem test_decode_sabs : decode 0x26100000#32 = .ok (.sabs 1 0) := by decide -- R81
theorem test_decode_scmpm : decode 0x27001000#32 = .ok (.scmpm 0 1) := by decide -- R83
theorem test_decode_scmp : decode 0x28023000#32 = .ok (.scmp 2 3) := by decide -- R84
theorem test_decode_sadd : decode 0x29201000#32 = .ok (.sadd 2 0 1) := by decide -- R88
theorem test_decode_ssub : decode 0x2A201000#32 = .ok (.ssub 2 0 1) := by decide -- R89
theorem test_decode_smul : decode 0x2B201000#32 = .ok (.smul 2 0 1) := by decide -- R100
theorem test_decode_smuls : decode 0x2C201000#32 = .ok (.smuls 2 0 1) := by decide -- R101
theorem test_decode_sshld : decode 0x2D000002#32 = .ok (.sshld 0 2) := by decide -- R103
theorem test_decode_sshrd : decode 0x2E000002#32 = .ok (.sshrd 0 2) := by decide -- R104
theorem test_decode_smuld : decode 0x2F100000#32 = .ok (.smuld 1 0) := by decide -- R102, vector V5.19
theorem test_decode_saddd : decode 0x30100000#32 = .ok (.saddd 1 0) := by decide -- R90, vector V4.16
theorem test_decode_sdivp : decode 0x3110001F#32 = .ok (.sdivp 1 0 31) := by decide -- R107
theorem test_decode_sdivpr : decode 0x32102004#32 = .ok (.sdivpr 1 0 2 4) := by decide -- R108
theorem test_decode_smodp : decode 0x33100028#32 = .ok (.smodp 1 0 40) := by decide -- R106
theorem test_decode_smulp : decode 0x341000BF#32 = .ok (.smulp 1 0 191) := by decide -- R109, vector V6.20
theorem test_decode_sdacc : decode 0x35000000#32 = .ok (.sdacc 0) := by decide -- R111
theorem test_decode_sfromd : decode 0x40000000#32 = .ok (.sfromd 0) := by decide -- R121
theorem test_decode_sfromf : decode 0x41000000#32 = .ok (.sfromf 0) := by decide -- R122
theorem test_decode_stod : decode 0x42000000#32 = .ok (.stod 0) := by decide -- R125
theorem test_decode_stof : decode 0x43000000#32 = .ok (.stof 0) := by decide -- R126

theorem test_decode_reserved : decode 0x44000000#32 = .error (.reservedOpcode 0x44) := by decide
theorem test_decode_unused_field : decode 0x10010000#32 = .error (.unusedFieldNonzero 0x10) := by decide

/-! ### Vectors of spec/95_test_vectors.md -/

/-- A change to a state. -/
abbrev Change := State → State
/-- A WideUnsigned register with these limbs. -/
def w (r : RegField) (l : List WideLimb) : Change := fun s => s.setWide r (some l)
/-- A `Positive` ScaledInt register with these limbs. -/
def p (r : RegField) (l : List Digit) : Change := fun s => s.setScaled r (some ⟨l, .positive⟩)
/-- A `Negative` ScaledInt register with these limbs. -/
def n (r : RegField) (l : List Digit) : Change := fun s => s.setScaled r (some ⟨l, .negative⟩)
/-- An invalid WideUnsigned register. -/
def noW (r : RegField) : Change := fun s => s.setWide r none
/-- An invalid ScaledInt register. -/
def noS (r : RegField) : Change := fun s => s.setScaled r none
/-- The flags. -/
def fl (flags : BitVec 5) : Change := fun s => { s with flags := flags }
/-- The digit buffer. -/
def dg (text : String) : Change := fun s => { s with digits := text.toList.map fun c => BitVec.ofNat 8 c.toNat }

/-- A state after changes to it. -/
def changed (s : State) (changes : List Change) : State := changes.foldl (fun s c => c s) s

/-- The state a step answers. -/
def nextOf : Result → Option State
  | .next t => some t
  | .fault _ => none
  | .refused _ => none

/-- A vector: from the start state, the step in which the host issues the word with this `din` gives the response and
changes what is listed and nothing else. -/
def vector (start : List Change) (cmd : CommandWord) (din : DataWord) (changes : List Change) (status : Status)
    (dout : DataWord) : Bool :=
  let s := changed State.reset start
  nextOf (step (s.issuing cmd din [])) = some ((changed (s.executing din []) changes).respond status dout)

/-- V9.2: `RDCFG`. -/
theorem test_rdcfg_9_2 :
    vector [] 0x01000000 0xFFFFFFFFFFFFFFFF [] .ok 0x9B0208080608 = true := by decide

/-- V9.4: `RDFLAGS`. -/
theorem test_rdflags_9_4 :
    vector [fl 0x11] 0x02000000 0xDEADBEEFCAFEBABE [] .ok 0x11 = true := by decide

/-- V1.26: `WZERO w0`. -/
theorem test_wzero_1_26 :
    vector [noW 0] 0x10000000 0xDEADBEEFCAFEBABE [w 0 [0x0]] .ok 0x0 = true := by decide

/-- V1.2: `WLDL w0, #1`. -/
theorem test_wldl_1_2 :
    vector [] 0x11000001 0x1 [w 0 [0x0, 0x1]] .ok 0x0 = true := by decide

/-- V1.3: `WLDL w0, #1`. -/
theorem test_wldl_1_3 :
    vector [w 0 [0x7, 0x5]] 0x11000001 0x0 [w 0 [0x7]] .ok 0x0 = true := by decide

/-- V1.4: `WSTL w0, #1`. -/
theorem test_wstl_1_4 :
    vector [w 0 [0x0, 0x1]] 0x12000001 0xDEADBEEFCAFEBABE [] .ok 0x1 = true := by decide

/-- V1.5: `WSTL w0, #5`. -/
theorem test_wstl_1_5 :
    vector [w 0 [0x0, 0x1]] 0x12000005 0xDEADBEEFCAFEBABE [] .ok 0x0 = true := by decide

/-- V1.6: `WLEN w2`. -/
theorem test_wlen_1_6 :
    vector [w 2 [0xFFFFFFFFFFFFFFFF]] 0x13020000 0xDEADBEEFCAFEBABE [] .ok 0x1 = true := by decide

/-- V1.24: `WLEN w0`. -/
theorem test_wlen_1_24 :
    vector [noW 0] 0x13000000 0xDEADBEEFCAFEBABE [fl 0x10] (.raised .invalidOperand) 0 = true := by decide

/-- V1.10: `WADDL w0`. -/
theorem test_waddl_1_10 :
    vector [w 0 (List.replicate 7 0xFFFFFFFFFFFFFFFF)] 0x14000000 0x1 [w 0 (List.replicate 7 0x0 ++
        [0x1])] .ok 0x0 = true := by decide

/-- V1.8: `WADDL w0`. -/
theorem test_waddl_1_8 :
    vector [w 0 (List.replicate 8 0xFFFFFFFFFFFFFFFF)] 0x14000000 0x1 [noW 0,
        fl 0x1] (.raised .capacityOverflow) 0 = true := by decide

/-- V1.11: `WMULL w0`. -/
theorem test_wmull_1_11 :
    vector [w 0 [0xFFFFFFFFFFFFFFFF]] 0x15000000 0xFFFFFFFFFFFFFFFF [w 0 [0x1,
        0xFFFFFFFFFFFFFFFE]] .ok 0x0 = true := by decide

/-- V1.13: `WMULL w0`. -/
theorem test_wmull_1_13 :
    vector [w 0 (List.replicate 7 0x0 ++ [0x8000000000000000])] 0x15000000 0x2 [noW 0,
        fl 0x1] (.raised .capacityOverflow) 0 = true := by decide

/-- V1.17: `WADD w2, w0, w1`. -/
theorem test_wadd_1_17 :
    vector [w 0 (List.replicate 8 0xFFFFFFFFFFFFFFFF),
        w 1 [0x0]] 0x16201000 0xDEADBEEFCAFEBABE [w 2 (List.replicate 8 0xFFFFFFFFFFFFFFFF)] .ok 0x0 = true :=
  by decide

/-- V1.16: `WADD w1, w0, w0`. -/
theorem test_wadd_1_16 :
    vector [w 0 (List.replicate 7 0x0 ++ [0x8000000000000000])] 0x16100000 0xDEADBEEFCAFEBABE [noW 1,
        fl 0x1] (.raised .capacityOverflow) 0 = true := by decide

/-- V1.22: `WMUL w2, w0, w1`. -/
theorem test_wmul_1_22 :
    vector [w 0 (List.replicate 4 0x0 ++ [0x100000000000]), w 1 (List.replicate 3 0x0 ++
        [0x100])] 0x17201000 0xDEADBEEFCAFEBABE [w 2 (List.replicate 7 0x0 ++
        [0x10000000000000])] .ok 0x0 = true := by decide +kernel

/-- V1.21: `WMUL w2, w0, w0`. -/
theorem test_wmul_1_21 :
    vector [w 0 (List.replicate 4 0x0 ++ [0x1])] 0x17200000 0xDEADBEEFCAFEBABE [noW 2,
        fl 0x1] (.raised .capacityOverflow) 0 = true := by decide

/-- V2.4: `WDACC w0`. -/
theorem test_wdacc_2_4 :
    vector [w 0 (List.replicate 7 0x9999999999999999 ++
        [0x1999999999999999])] 0x18000000 0x35 [w 0 (List.replicate 8 0xFFFFFFFFFFFFFFFF)] .ok 0x0 = true :=
  by decide

/-- V2.3: `WDACC w0`. -/
theorem test_wdacc_2_3 :
    vector [w 0 [0xC]] 0x18000000 0x130 [fl 0x2] (.raised .malformedInput) 0 = true := by decide

/-- V2.9: `WTODEC w0`. -/
theorem test_wtodec_2_9 :
    vector [w 0 [0x1,
        0xFFFFFFFFFFFFFFFE]] 0x19000000 0xDEADBEEFCAFEBABE [dg "340282366920938463426481119284349108225"] .ok 0x0 = true :=
  by decide +kernel

/-- V2.16: `WTODEC w0`. -/
theorem test_wtodec_2_16 :
    vector [noW 0, dg "7"] 0x19000000 0xDEADBEEFCAFEBABE [fl 0x10] (.raised .invalidOperand) 0 = true :=
  by decide

/-- V2.15: `DLEN`. -/
theorem test_dlen_2_15 :
    vector [dg "18446744073709551616"] 0x1A000000 0xDEADBEEFCAFEBABE [] .ok 0x14 = true := by decide

/-- V2.10: `DLEN`. -/
theorem test_dlen_2_10 :
    vector [] 0x1A000000 0xDEADBEEFCAFEBABE [] .ok 0x0 = true := by decide

/-- V2.12: `DGET #19`. -/
theorem test_dget_2_12 :
    vector [dg "18446744073709551616"] 0x1B000013 0xDEADBEEFCAFEBABE [] .ok 0x36 = true := by decide

/-- V2.14: `DGET #155`. -/
theorem test_dget_2_14 :
    vector [dg "18446744073709551616"] 0x1B00009B 0xDEADBEEFCAFEBABE [fl 0x8] (.raised .illegalCommand) 0 = true :=
  by decide

/-- V3.1: `SZERO s1`. -/
theorem test_szero_3_1 :
    vector [noS 1] 0x20100000 0xDEADBEEFCAFEBABE [p 1 []] .ok 0x0 = true := by decide

/-- V3.4: `SLDL s0, #5`. -/
theorem test_sldl_3_4 :
    vector [n 0 [0x7]] 0x21000005 0xFFFFFFFF [n 0 ([0x7] ++ List.replicate 4 0x0 ++
        [0xFFFFFFFF])] .ok 0x0 = true := by decide

/-- V3.6: `SLDL s0, #0`. -/
theorem test_sldl_3_6 :
    vector [] 0x21000000 0x100000000 [fl 0x8] (.raised .illegalCommand) 0 = true := by decide

/-- V3.7: `SSTL s0, #2`. -/
theorem test_sstl_3_7 :
    vector [p 0 [0x0, 0x0, 0x1]] 0x22000002 0xDEADBEEFCAFEBABE [] .ok 0x1 = true := by decide

/-- V3.8: `SSTL s0, #5`. -/
theorem test_sstl_3_8 :
    vector [p 0 [0x0, 0x0, 0x1]] 0x22000005 0xDEADBEEFCAFEBABE [] .ok 0x0 = true := by decide

/-- V3.9: `SINFO s0`. -/
theorem test_sinfo_3_9 :
    vector [n 0 [0x0, 0x0, 0x1]] 0x23000000 0xDEADBEEFCAFEBABE [] .ok 0x103 = true := by decide

/-- V3.30: `SINFO s0`. -/
theorem test_sinfo_3_30 :
    vector [n 0 [0x23456789, 0x1]] 0x23000000 0xDEADBEEFCAFEBABE [] .ok 0x102 = true := by decide

/-- V3.11: `SMOV s1, s0`. -/
theorem test_smov_3_11 :
    vector [n 0 [0x5]] 0x24100000 0xDEADBEEFCAFEBABE [n 1 [0x5]] .ok 0x0 = true := by decide

/-- V3.25: `SMOV s1, s0`. -/
theorem test_smov_3_25 :
    vector [noS 0] 0x24100000 0xDEADBEEFCAFEBABE [fl 0x10] (.raised .invalidOperand) 0 = true := by decide

/-- V3.12: `SNEG s0, s0`. -/
theorem test_sneg_3_12 :
    vector [p 0 [0x7B]] 0x25000000 0xDEADBEEFCAFEBABE [n 0 [0x7B]] .ok 0x0 = true := by decide

/-- V3.13: `SNEG s1, s0`. -/
theorem test_sneg_3_13 :
    vector [n 1 [0x63]] 0x25100000 0xDEADBEEFCAFEBABE [p 1 []] .ok 0x0 = true := by decide

/-- V3.14: `SABS s1, s0`. -/
theorem test_sabs_3_14 :
    vector [n 0 [0x7B]] 0x26100000 0xDEADBEEFCAFEBABE [p 1 [0x7B]] .ok 0x0 = true := by decide

/-- V3.28: `SABS s1, s0`. -/
theorem test_sabs_3_28 :
    vector [n 1 [0x63]] 0x26100000 0xDEADBEEFCAFEBABE [p 1 []] .ok 0x0 = true := by decide

/-- V3.15: `SCMPM s0, s1`. -/
theorem test_scmpm_3_15 :
    vector [n 0 [0x5], p 1 [0x3]] 0x27001000 0xDEADBEEFCAFEBABE [] .ok 0x2 = true := by decide

/-- V3.23: `SCMPM s0, s1`. -/
theorem test_scmpm_3_23 :
    vector [p 0 [0x1, 0x2], p 1 [0x2, 0x2]] 0x27001000 0xDEADBEEFCAFEBABE [] .ok 0x0 = true := by decide

/-- V3.18: `SCMP s0, s1`. -/
theorem test_scmp_3_18 :
    vector [n 0 [0x5], n 1 [0x3]] 0x28001000 0xDEADBEEFCAFEBABE [] .ok 0x0 = true := by decide

/-- V3.22: `SCMP s0, s1`. -/
theorem test_scmp_3_22 :
    vector [p 0 [0x0, 0x1], p 1 [0xFFFFFFFF]] 0x28001000 0xDEADBEEFCAFEBABE [] .ok 0x2 = true := by decide

/-- V4.8: `SADD s2, s0, s1`. -/
theorem test_sadd_4_8 :
    vector [p 0 (List.replicate 6 0xFFFFFFFF), n 1 [0x1]] 0x29201000 0xDEADBEEFCAFEBABE [p 2 ([0xFFFFFFFE] ++
        List.replicate 5 0xFFFFFFFF)] .ok 0x0 = true := by decide

/-- V4.10: `SADD s0, s0, s1`. -/
theorem test_sadd_4_10 :
    vector [p 0 (List.replicate 6 0xFFFFFFFF), p 1 [0x1]] 0x29001000 0xDEADBEEFCAFEBABE [noS 0,
        fl 0x1] (.raised .capacityOverflow) 0 = true := by decide

/-- V4.14: `SSUB s2, s0, s1`. -/
theorem test_ssub_4_14 :
    vector [n 0 [0x3], n 1 [0x5]] 0x2A201000 0xDEADBEEFCAFEBABE [p 2 [0x2]] .ok 0x0 = true := by decide

/-- V4.5: `SSUB s2, s0, s1`. -/
theorem test_ssub_4_5 :
    vector [p 0 [0x0, 0x0, 0x1], p 1 [0x1]] 0x2A201000 0xDEADBEEFCAFEBABE [p 2 [0xFFFFFFFF,
        0xFFFFFFFF]] .ok 0x0 = true := by decide

/-- V4.15: `SADDD s0, s0`. -/
theorem test_saddd_4_15 :
    vector [p 0 [0xFFFFFFFF]] 0x30000000 0x1 [p 0 [0x0, 0x1]] .ok 0x0 = true := by decide

/-- V4.16: `SADDD s1, s0`. -/
theorem test_saddd_4_16 :
    vector [n 0 [0x5]] 0x30100000 0x1 [fl 0x10] (.raised .invalidOperand) 0 = true := by decide

/-- V5.15: `SMUL s2, s0, s1`. -/
theorem test_smul_5_15 :
    vector [p 0 [0x51B3B775, 0x2E159731, 0x8F464298], n 1 [0x53C33579,
        0xF7B7474C]] 0x2B201000 0xDEADBEEFCAFEBABE [n 2 [0x800BEF4D, 0x896F1655, 0xAA4873B6, 0xA374C84E,
        0x8AA35D61]] .ok 0x0 = true := by decide

/-- V5.9: `SMUL s2, s0, s1`. -/
theorem test_smul_5_9 :
    vector [p 0 (List.replicate 6 0xFFFFFFFF), p 1 [0x1]] 0x2B201000 0xDEADBEEFCAFEBABE [noS 2,
        fl 0x1] (.raised .capacityOverflow) 0 = true := by decide

/-- V5.3: `SMULS s2, s0, s1`. -/
theorem test_smuls_5_3 :
    vector [p 0 [0x0, 0x80000000, 0x1], n 1 [0x0, 0x40000000, 0x2]] 0x2C201000 0xDEADBEEFCAFEBABE [n 2 [0x0,
        0x60000000, 0x3]] .ok 0x0 = true := by decide

/-- V5.11: `SMULS s2, s0, s1`. -/
theorem test_smuls_5_11 :
    vector [p 0 [0x1], n 1 [0x0, 0x80000000],
        n 2 [0x63]] 0x2C201000 0xDEADBEEFCAFEBABE [p 2 []] .ok 0x0 = true := by decide

/-- V5.19: `SMULD s1, s0`. -/
theorem test_smuld_5_19 :
    vector [n 0 [0xFFFFFFFF]] 0x2F100000 0xFFFFFFFF [n 1 [0x1, 0xFFFFFFFE]] .ok 0x0 = true := by decide

/-- V5.22: `SMULD s1, s0`. -/
theorem test_smuld_5_22 :
    vector [p 0 (List.replicate 5 0x0 ++ [0x40000000])] 0x2F100000 0x3 [p 1 (List.replicate 5 0x0 ++
        [0xC0000000])] .ok 0x0 = true := by decide

/-- V6.3: `SSHLD s0, #5`. -/
theorem test_sshld_6_3 :
    vector [n 0 [0x1]] 0x2D000005 0xDEADBEEFCAFEBABE [n 0 (List.replicate 5 0x0 ++ [0x1])] .ok 0x0 = true :=
  by decide

/-- V6.4: `SSHLD s0, #6`. -/
theorem test_sshld_6_4 :
    vector [p 0 [0x1]] 0x2D000006 0xDEADBEEFCAFEBABE [noS 0, fl 0x1] (.raised .capacityOverflow) 0 = true :=
  by decide

/-- V6.5: `SSHRD s0, #2`. -/
theorem test_sshrd_6_5 :
    vector [p 0 [0x0, 0x60000000, 0x3]] 0x2E000002 0xDEADBEEFCAFEBABE [p 0 [0x3]] .ok 0x0 = true := by decide

/-- V6.6: `SSHRD s0, #3`. -/
theorem test_sshrd_6_6 :
    vector [n 0 [0x0, 0x60000000, 0x3]] 0x2E000003 0xDEADBEEFCAFEBABE [p 0 []] .ok 0x0 = true := by decide

/-- V6.12: `SDIVP s1, s0, #1`. -/
theorem test_sdivp_6_12 :
    vector [n 0 [0x3]] 0x31100001 0xDEADBEEFCAFEBABE [n 1 [0x1]] .ok 0x0 = true := by decide

/-- V6.13: `SDIVP s1, s0, #36`. -/
theorem test_sdivp_6_13 :
    vector [p 0 [0xABCDEF01, 0x23456789,
        0x1]] 0x31100024 0xDEADBEEFCAFEBABE [p 1 [0x12345678]] .ok 0x0 = true := by decide

/-- V6.18: `SDIVPR s0, s1, s0, #36`. -/
theorem test_sdivpr_6_18 :
    vector [p 0 [0xABCDEF01, 0x23456789, 0x1]] 0x32001024 0xDEADBEEFCAFEBABE [p 0 [0x12345678], p 1 [0xABCDEF01,
        0x9]] .ok 0x0 = true := by decide

/-- V6.19: `SDIVPR s1, s0, s0, #36`. -/
theorem test_sdivpr_6_19 :
    vector [p 0 [0xABCDEF01, 0x23456789, 0x1]] 0x32100024 0xDEADBEEFCAFEBABE [p 0 [0xABCDEF01, 0x9],
        p 1 [0x12345678]] .ok 0x0 = true := by decide

/-- V6.7: `SMODP s1, s0, #40`. -/
theorem test_smodp_6_7 :
    vector [p 0 [0xABCDEF01, 0x23456789, 0x1]] 0x33100028 0xDEADBEEFCAFEBABE [p 1 [0xABCDEF01,
        0x89]] .ok 0x0 = true := by decide

/-- V6.10: `SMODP s1, s0, #4095`. -/
theorem test_smodp_6_10 :
    vector [n 0 [0xABCDEF01, 0x23456789, 0x1]] 0x33100FFF 0xDEADBEEFCAFEBABE [n 1 [0xABCDEF01, 0x23456789,
        0x1]] .ok 0x0 = true := by decide

/-- V6.20: `SMULP s1, s0, #191`. -/
theorem test_smulp_6_20 :
    vector [p 0 [0x1]] 0x341000BF 0xDEADBEEFCAFEBABE [p 1 (List.replicate 5 0x0 ++
        [0x80000000])] .ok 0x0 = true := by decide

/-- V6.24: `SMULP s1, s0, #191`. -/
theorem test_smulp_6_24 :
    vector [p 0 [0x3]] 0x341000BF 0xDEADBEEFCAFEBABE [noS 1, fl 0x1] (.raised .capacityOverflow) 0 = true :=
  by decide

/-- V7.4: `SDACC s0`. -/
theorem test_sdacc_7_4 :
    vector [p 0 (List.replicate 5 0x99999999 ++
        [0x19999999])] 0x35000000 0x35 [p 0 (List.replicate 6 0xFFFFFFFF)] .ok 0x0 = true := by decide

/-- V7.3: `SDACC s0`. -/
theorem test_sdacc_7_3 :
    vector [n 0 [0xC]] 0x35000000 0x33 [fl 0x10] (.raised .invalidOperand) 0 = true := by decide

/-- V8.2: `SFROMD s0`. -/
theorem test_sfromd_8_2 :
    vector [] 0x40000000 0xC01400000001B7CE [n 0 [0x6DF38000, 0x0, 0x5]] .ok 0x0 = true := by decide

/-- V8.13: `SFROMD s0`. -/
theorem test_sfromd_8_13 :
    vector [] 0x40000000 0x3F20000000000001 [p 0 [0x0, 0x80000]] .ok 0x0 = true := by decide

/-- V8.31: `SFROMF s0`. -/
theorem test_sfromf_8_31 :
    vector [] 0x41000000 0x3FC00000 [p 0 [0x0, 0x80000000, 0x1]] .ok 0x0 = true := by decide

/-- V8.36: `SFROMF s0`. -/
theorem test_sfromf_8_36 :
    vector [] 0x41000000 0xAB000001 [n 0 [0x800001]] .ok 0x0 = true := by decide

/-- V8.24: `STOD s0`. -/
theorem test_stod_8_24 :
    vector [p 0 (List.replicate 3 0xFFFFFFFF)] 0x42000000 0xDEADBEEFCAFEBABE [] .ok 0x41F0000000000000 = true :=
  by decide +kernel

/-- V8.26: `STOD s0`. -/
theorem test_stod_8_26 :
    vector [p 0 [0x3, 0x200000]] 0x42000000 0xDEADBEEFCAFEBABE [] .ok 0x3F40000000000002 = true :=
  by decide +kernel

/-- V8.40: `STOF s0`. -/
theorem test_stof_8_40 :
    vector [p 0 [0x1000001]] 0x43000000 0xDEADBEEFCAFEBABE [] .ok 0x2B800000 = true := by decide +kernel

/-- V8.41: `STOF s0`. -/
theorem test_stof_8_41 :
    vector [p 0 [0x1000003]] 0x43000000 0xDEADBEEFCAFEBABE [] .ok 0x2B800002 = true := by decide +kernel

/-- V9.15: `reserved op 0x44`. -/
theorem test_reserved_opcode_9_15 :
    vector [fl 0x1] 0x44000000 0x0 [fl 0x9] (.raised .illegalCommand) 0 = true := by decide

/-! ### The host's interface, the pseudo-operations, the assembler text -/

/-- The opcode table's word of `SADD s2, s0, s1` reaches the decoder and runs as the next step after reset: 0 + 0 = 0. -/
theorem test_interface : decodeTableWord 32 0x29201000 = some (.sadd 2 0 1) ∧
    nextOf (step (State.reset.withFetchWord 32 0x29201000)) = some (State.reset.respond .ok 0) := by decide
/-- A reset of the host, and a step with no action of the host. -/
theorem test_reset : nextOf (step { changed State.reset [noW 3, fl 0x1F, dg "7"] with host := [.reset] }) =
    some State.reset := by decide
theorem test_idle : nextOf (step State.reset) = some State.reset := by decide
/-- `WFROMDEC w0, "42"` (R66) and `SFROMDEC s1, "-7"` (R112). -/
theorem test_wfromdec : ((nextOf (runFor 3 { State.reset with host := wfromdec 0 [0x34, 0x32] })).map
    fun s => s.wideReg 0) = some (some [42]) := by decide
theorem test_sfromdec : ((nextOf (runFor 3 { State.reset with host := sfromdec 1 true [0x37] })).map
    fun s => s.scaledReg 1) = some (some ⟨[7], .negative⟩) := by decide
/-- `WLOADI` and `SLOADI` send the nonzero limbs only (R52). -/
theorem test_wloadi : wloadi 0 (2 ^ 64) = [send (.wzero 0) 0, send (.wldl 0 1) 1] := by decide
theorem test_sloadi : sloadi Config.standard 2 .negative (2 ^ 32 * 5) =
    [send (.szero 2) 0, send (.sldl 2 1) 5, send (.sneg 2 2) 0] := by decide
/-- `WTOSTR` of a one-character string: `WTODEC`, `DLEN`, `DGET #0` (R71). -/
theorem test_wtostr : wtostr 0 1 = [send (.wtodec 0) 0, send .dlen 0, send (.dget 0) 0] := by decide
/-- R51: the quotient, the remainder, the source, the count. -/
theorem test_assembly : commandText (.sdivpr 1 0 2 4) = "SDIVPR s1, s2, s0, #4" := by decide

/-! ### A state for the hypotheses of each statement -/

/-- `2^512 − 1`. -/
def topWide : List WideLimb := List.replicate 8 0xFFFFFFFFFFFFFFFF
/-- `2^(32·6) − 1`. -/
def topScaled : List Digit := List.replicate 6 0xFFFFFFFF
/-- A negative value. -/
def negative : ScaledValue := ⟨[0x123], .negative⟩

/-- A state at the limits, with invalid registers and a text in the digit buffer. -/
def edge (din : DataWord) : State :=
  { changed State.reset [w 0 topWide, w 1 [1], w 2 [5, 7], noW 3, p 0 topScaled, p 1 [1], n 2 [0x123], noS 3,
      p 4 (List.replicate 5 0xFFFFFFFF), p 5 [0, 0, 0, 0, 0x80000000], p 6 [2], dg "7", fl 0b00001] with din := din }

theorem edge_inv (din : DataWord) : (edge din).Inv where
  wide r a h := (by decide : ∀ r, ∀ a ∈ (edge 0).wideReg r, WideCanonical a) r a h
  scaled r a h := (by decide : ∀ r, ∀ a ∈ (edge 0).scaledReg r, ScaledCanonical 6 a) r a h
  digits := by show DigitsCanonical (edge 0).digits; decide

theorem witness_EncodeOfDecode : decode 0x29201000#32 = .ok (.sadd 2 0 1) := by decide
theorem witness_DecodeSelectsByMask : ∃ row ∈ opcodeMap, row.op = 0x29 ∧
    0x29201000#32 &&& row.format.mask = pack row.op 0 0 0 0 := by decide
theorem witness_ReservedOpcodeIsIllegal :
    (∀ row ∈ opcodeMap, row.op ≠ opOf 0x44000000#32) ∧ (∀ row ∈ opcodeMap, row.op ≠ opOf 0x0F000000#32) :=
  by decide
theorem witness_UnusedFieldNonzeroIsIllegal : ∃ row ∈ opcodeMap, opOf 0x10010000#32 = row.op ∧
    0x10010000#32 &&& row.format.mask &&& 0x00FFFFFF#32 ≠ 0 := by decide
theorem witness_IllegalCommandIsRefused : isCommand Config.standard 0x21000005#32 0xFFFFFFFF = true ∧
    isCommand Config.standard 0x21000005#32 0x100000000 = false := by decide
theorem witness_StepRunsTheDecodedCommand : decode 0x14000000#32 = .ok (.waddl 0) := by decide
theorem witness_ResetLeavesTheResetState : (7 : RegField).toNat < 8 := by decide
theorem witness_IdleStep : (edge 0).host = [] := by decide
theorem witness_StepKeepsInv : (edge 0).Inv ∧ (nextOf (step (edge 0))).isSome = true :=
  ⟨edge_inv 0, by decide⟩
/-- A command that ends `OK`, one that overflows, and the reset. -/
theorem witness_FlagsRecordTheStatus :
    ((nextOf (exec (.wzero 3) (edge 0))).map fun t => t.flags) = some 0b00001 ∧
    ((nextOf (exec (.waddl 3) (edge 0))).map fun t => t.flags) = some 0b10001 ∧
    (edge 0).flags.getLsbD 0 = true ∧ (∀ rest, (edge 0).host ≠ .reset :: rest) := by
  refine ⟨by decide, by decide, by decide, fun rest h => ?_⟩
  have e : (edge 0).host = [] := by decide
  rw [e] at h
  cases h
/-- Each fault class is raised. -/
theorem witness_RaiseEffect :
    ((nextOf (exec (.waddl 0) (edge 1))).bind fun t => t.response) = some ⟨.raised .capacityOverflow, 0⟩ ∧
    ((nextOf (exec (.wdacc 1) (edge 0x3A))).bind fun t => t.response) = some ⟨.raised .malformedInput, 0⟩ ∧
    ((nextOf (exec (.sfromd 0) (edge 0x7FF0000000000000))).bind fun t => t.response) =
      some ⟨.raised .domainError, 0⟩ ∧
    ((nextOf (exec (.wzero 8) (edge 0))).bind fun t => t.response) = some ⟨.raised .illegalCommand, 0⟩ ∧
    ((nextOf (exec (.wlen 3) (edge 0))).bind fun t => t.response) = some ⟨.raised .invalidOperand, 0⟩ :=
  by decide
theorem witness_FrameOfEveryCommand : (nextOf (exec (.waddl 1) (edge 1))).isSome = true ∧
    Dest.wide 0 ∉ destsOf (.waddl 1) ∧ Dest.scaled 1 ∉ destsOf (.waddl 1) ∧ (∀ ra, Instr.waddl 1 ≠ .wtodec ra) := by
  decide
/-- A valid bit that a command sets, one that an overflow clears, and an invalid source. -/
theorem witness_ValidBit : ((nextOf (exec (.wzero 3) (edge 0))).bind fun t => t.response) = some ⟨.ok, 0⟩ ∧
    (edge 1).valid (.wide 0) = true ∧ ((nextOf (exec (.waddl 0) (edge 1))).map fun t => t.valid (.wide 0)) = some false ∧
    (Instr.waddl 3).legal (edge 0).config 0 = true ∧ (∃ x ∈ sourcesOf (.waddl 3), (edge 0).valid x = false) :=
  by decide
theorem witness_ReadsChangeNothing : isReadOnly (.wlen 2) = true ∧
    ((nextOf (exec (.wlen 2) (edge 0))).bind fun t => t.response) = some ⟨.ok, 2⟩ := by decide
theorem witness_UnusableOperandIsRefused : (Instr.sdacc 2).legal (edge 0x30).config 0x30 = true ∧
    operandsUsable (.sdacc 2) (edge 0x30) = false ∧ operandsUsable (.sdacc 1) (edge 0x30) = true := by decide
/-- Every status, with the earlier cause deciding where two apply. -/
theorem witness_StatusOfEveryCommand : (edge 0x3A).Inv ∧ statusOf (.wzero 0) (edge 0x3A) = .ok ∧
    statusOf (.wdacc 3) (edge 0x3A) = .raised .invalidOperand ∧
    statusOf (.wdacc 0) (edge 0x3A) = .raised .malformedInput ∧
    statusOf (.wadd 3 3 0) (edge 0x3A) = .raised .illegalCommand ∧
    statusOf (.sfromd 0) (edge 0x7FF0000000000000) = .raised .domainError ∧
    statusOf (.waddl 0) (edge 1) = .raised .capacityOverflow := ⟨edge_inv _, by decide +kernel⟩
theorem witness_ResultsDependOnOperandsOnly : Instr.wlen 2 ≠ .rdflags ∧ dinUse (.wlen 2) = .none ∧
    (nextOf (exec (.wlen 2) (edge 0))).isSome = true := by decide
theorem witness_WideWriteStoresTheNumber : (7 : RegField).toNat < 8 ∧ (2 ^ 512 - 1 : Nat) < 2 ^ 512 :=
  by decide +kernel
theorem witness_ScaledWriteStoresTheNumber : (7 : RegField).toNat < 8 ∧
    (2 ^ 192 - 1 : Nat) < 2 ^ (32 * (edge 0).config.sCap) := by decide
theorem witness_RdcfgReadsTheParameters : (edge 0).config.sCap = 6 := by decide
theorem witness_ZeroMakesCanonicalZero : (3 : RegField).toNat < 8 := by decide
theorem witness_WldlReplacesOneLimb : (edge 0).Inv ∧ (0 : RegField).toNat < 8 ∧ (7 : Immediate).toNat < 8 ∧
    (edge 0).wideReg 0 = some topWide := ⟨edge_inv 0, by decide⟩
/-- The last limb of a register, and a limb at or above `length` and `used`. -/
theorem witness_LimbReads : (edge 0).wideReg 2 = some [5, 7] ∧ (7 : Immediate).toNat < 8 ∧
    ([5, 7] : List WideLimb).length ≤ (7 : Immediate).toNat ∧ (edge 0).scaledReg 2 = some negative ∧
    (5 : Immediate).toNat < (edge 0).config.sCap ∧ negative.limbs.length ≤ (5 : Immediate).toNat := by decide
theorem witness_LengthReads : (edge 0).Inv ∧ (edge 0).wideReg 0 = some topWide ∧ (edge 0).scaledReg 2 = some negative :=
  ⟨edge_inv 0, by decide⟩
/-- The sums `2^512 − 1` and `2^512`. -/
theorem witness_WaddlAddsExactly : (edge 0).Inv ∧ (edge 0).wideReg 0 = some topWide ∧
    wval topWide + (edge 0).din.toNat < 2 ^ 512 ∧ 2 ^ 512 ≤ wval topWide + (edge 1).din.toNat ∧ (edge 0).din = 0 :=
  ⟨edge_inv 0, by decide +kernel⟩
/-- The products `2^512 − 1` and `2·(2^512 − 1)`. -/
theorem witness_WmullMultipliesExactly : (edge 1).Inv ∧ (edge 1).wideReg 0 = some topWide ∧
    wval topWide * (edge 1).din.toNat < 2 ^ 512 ∧ 2 ^ 512 ≤ wval topWide * (edge 2).din.toNat ∧ (edge 0).din = 0 :=
  ⟨edge_inv 1, by decide +kernel⟩
/-- The sums `2^512 − 1` and `2^512`. -/
theorem witness_WaddAddsExactly : (edge 0).Inv ∧ (edge 0).wideReg 0 = some topWide ∧ (edge 0).wideReg 4 = some [0] ∧
    (edge 0).wideReg 1 = some [1] ∧ (7 : RegField) ≠ 0 ∧ (7 : RegField) ≠ 1 ∧ (7 : RegField) ≠ 4 ∧
    wval topWide + wval [0] < 2 ^ 512 ∧ 2 ^ 512 ≤ wval topWide + wval [1] := ⟨edge_inv 0, by decide +kernel⟩
/-- The products `2^512 − 1` and more. -/
theorem witness_WmulMultipliesExactly : (edge 0).Inv ∧ (edge 0).wideReg 0 = some topWide ∧
    (edge 0).wideReg 1 = some [1] ∧ (edge 0).wideReg 2 = some [5, 7] ∧ (7 : RegField) ≠ 0 ∧ (7 : RegField) ≠ 1 ∧
    (7 : RegField) ≠ 2 ∧ wval topWide * wval [1] < 2 ^ 512 ∧ 2 ^ 512 ≤ wval topWide * wval [5, 7] :=
  ⟨edge_inv 0, by decide +kernel⟩
theorem witness_WideSumsAndProductsCommute : (edge 0).Inv ∧
    ((nextOf (exec (.wadd 4 2 1) (edge 0))).bind fun t => t.response) = some ⟨.ok, 0⟩ ∧
    ((nextOf (exec (.wadd 4 2 1) (edge 0))).bind fun t => t.wideReg 4) = some [6, 7] ∧
    ((nextOf (exec (.wmul 4 2 1) (edge 0))).bind fun t => t.response) = some ⟨.ok, 0⟩ ∧
    ((nextOf (exec (.wmul 4 2 1) (edge 0))).bind fun t => t.wideReg 4) = some [5, 7] :=
  ⟨edge_inv 0, by decide +kernel⟩
/-- The first and last digit, and the two codes beside them. -/
theorem witness_WdaccAccumulatesADigit : (edge 0x30).Inv ∧ (edge 0x30).wideReg 1 = some [1] ∧
    (edge 0x30).din.toNat = 0x30 + 0 ∧ (edge 0x39).din.toNat = 0x30 + 9 ∧ 10 * wval [1] + 9 < 2 ^ 512 ∧
    2 ^ 512 ≤ 10 * wval topWide + 0 ∧ (edge 0x2F).din.toNat < 0x30 ∧ 0x39 < (edge 0x3A).din.toNat :=
  ⟨edge_inv 0x30, by decide +kernel⟩
theorem witness_WtodecWritesTheDecimalText : (edge 0).Inv ∧ (edge 0).wideReg 0 = some topWide ∧
    (edge 0).wideReg 3 = none := ⟨edge_inv 0, by decide⟩
/-- An index beyond the buffer, the last index of the buffer with no character, and a character. -/
theorem witness_DigitBufferReads : (edge 0).Inv ∧ 155 ≤ (155 : Immediate).toNat ∧ (154 : Immediate).toNat < 155 ∧
    (edge 0).digits.length ≤ (154 : Immediate).toNat ∧ (edge 0).digits[(0 : Immediate).toNat]? = some 0x37 :=
  ⟨edge_inv 0, by decide⟩
theorem witness_SldlReplacesOneLimb : (edge 0xFFFFFFFF).Inv ∧ (5 : Immediate).toNat < (edge 0xFFFFFFFF).config.sCap ∧
    (edge 0xFFFFFFFF).din.toNat < 2 ^ 32 ∧ (edge 0xFFFFFFFF).scaledReg 2 = some negative :=
  ⟨edge_inv _, by decide⟩
theorem witness_SignMoves : (edge 0).Inv ∧ (edge 0).scaledReg 2 = some negative := ⟨edge_inv 0, by decide⟩
theorem witness_ComparesByValue : (edge 0).Inv ∧ (edge 0).scaledReg 2 = some negative ∧
    (edge 0).scaledReg 1 = some ⟨[1], .positive⟩ ∧ negative.toInt = -0x123 := ⟨edge_inv 0, by decide⟩
/-- The magnitudes `2^192 − 1` and `2^192` of a sum and of a difference. -/
theorem witness_SaddSsubAreExact : (edge 0).Inv ∧ (edge 0).scaledReg 0 = some ⟨topScaled, .positive⟩ ∧
    (edge 0).scaledReg 7 = some ⟨[], .positive⟩ ∧ (edge 0).scaledReg 1 = some ⟨[1], .positive⟩ ∧
    (edge 0).scaledReg 2 = some negative ∧
    ((⟨topScaled, .positive⟩ : ScaledValue).toInt + (⟨[], .positive⟩ : ScaledValue).toInt).natAbs < 2 ^ (32 * 6) ∧
    2 ^ (32 * 6) ≤ ((⟨topScaled, .positive⟩ : ScaledValue).toInt + (⟨[1], .positive⟩ : ScaledValue).toInt).natAbs ∧
    ((⟨topScaled, .positive⟩ : ScaledValue).toInt - (⟨[], .positive⟩ : ScaledValue).toInt).natAbs < 2 ^ (32 * 6) ∧
    2 ^ (32 * 6) ≤ ((⟨topScaled, .positive⟩ : ScaledValue).toInt - negative.toInt).natAbs :=
  ⟨edge_inv 0, by decide⟩
theorem witness_SadddAddsADigit : (edge 0).Inv ∧ (edge 0).din.toNat < 2 ^ 32 ∧ (edge 1).din.toNat < 2 ^ 32 ∧
    (edge 0).scaledReg 0 = some ⟨topScaled, .positive⟩ ∧
    (⟨topScaled, .positive⟩ : ScaledValue).mag + (edge 0).din.toNat < 2 ^ (32 * 6) ∧
    2 ^ (32 * 6) ≤ (⟨topScaled, .positive⟩ : ScaledValue).mag + (edge 1).din.toNat ∧
    (edge 0).scaledReg 3 = none ∧ (edge 0).scaledReg 2 = some negative ∧ negative.sign = .negative :=
  ⟨edge_inv 0, by decide⟩
theorem witness_SmuldMultipliesByADigit : (edge 1).Inv ∧ (edge 1).din.toNat < 2 ^ 32 ∧ (edge 2).din.toNat < 2 ^ 32 ∧
    (edge 1).scaledReg 0 = some ⟨topScaled, .positive⟩ ∧
    (⟨topScaled, .positive⟩ : ScaledValue).mag * (edge 1).din.toNat < 2 ^ (32 * 6) ∧
    2 ^ (32 * 6) ≤ (⟨topScaled, .positive⟩ : ScaledValue).mag * (edge 2).din.toNat := ⟨edge_inv 1, by decide⟩
/-- The products `2^160 − 1` and `2^160`, which are the limits of `SMUL` and `SMULS`. -/
theorem witness_SmulMultipliesExactly : (edge 0).Inv ∧
    (edge 0).scaledReg 4 = some ⟨List.replicate 5 0xFFFFFFFF, .positive⟩ ∧
    (edge 0).scaledReg 1 = some ⟨[1], .positive⟩ ∧ (edge 0).scaledReg 5 = some ⟨[0, 0, 0, 0, 0x80000000], .positive⟩ ∧
    (edge 0).scaledReg 6 = some ⟨[2], .positive⟩ ∧
    (⟨List.replicate 5 0xFFFFFFFF, .positive⟩ : ScaledValue).mag * (⟨[1], .positive⟩ : ScaledValue).mag <
      2 ^ (32 * ((edge 0).config.sCap - 1)) ∧
    2 ^ (32 * ((edge 0).config.sCap - 1)) ≤
      (⟨[0, 0, 0, 0, 0x80000000], .positive⟩ : ScaledValue).mag * (⟨[2], .positive⟩ : ScaledValue).mag :=
  ⟨edge_inv 0, by decide⟩
theorem witness_SmulsRescalesTheProduct : (edge 0).Inv ∧ (edge 0).scaledReg 5 =
      some ⟨[0, 0, 0, 0, 0x80000000], .positive⟩ ∧ (edge 0).scaledReg 1 = some ⟨[1], .positive⟩ ∧
    (edge 0).scaledReg 6 = some ⟨[2], .positive⟩ ∧
    (⟨[0, 0, 0, 0, 0x80000000], .positive⟩ : ScaledValue).mag * (⟨[1], .positive⟩ : ScaledValue).mag <
      2 ^ (32 * ((edge 0).config.sCap - 1)) ∧
    2 ^ (32 * ((edge 0).config.sCap - 1)) ≤
      (⟨[0, 0, 0, 0, 0x80000000], .positive⟩ : ScaledValue).mag * (⟨[2], .positive⟩ : ScaledValue).mag :=
  ⟨edge_inv 0, by decide⟩
/-- Zero by any count; the last count that fits, and the next. -/
theorem witness_LimbShifts : (edge 0).Inv ∧ (edge 0).scaledReg 7 = some ⟨[], .positive⟩ ∧
    (⟨[], .positive⟩ : ScaledValue).mag = 0 ∧ (edge 0).scaledReg 2 = some negative ∧
    negative.limbs.length + (5 : Immediate).toNat ≤ (edge 0).config.sCap ∧
    negative.mag ≠ 0 ∧ (edge 0).config.sCap < negative.limbs.length + (6 : Immediate).toNat :=
  ⟨edge_inv 0, by decide⟩
theorem witness_DivideAndModuloByPowerOfTwo : (edge 0).Inv ∧ (edge 0).scaledReg 2 = some negative :=
  ⟨edge_inv 0, by decide⟩
theorem witness_SdivprQuotientAndRemainder : (edge 0).Inv ∧ (2 : RegField) ≠ 1 ∧ (edge 0).scaledReg 2 = some negative :=
  ⟨edge_inv 0, by decide⟩
/-- The products `2^191` and `2^192`. -/
theorem witness_SmulpMultipliesByPowerOfTwo : (edge 0).Inv ∧ (edge 0).scaledReg 1 = some ⟨[1], .positive⟩ ∧
    (⟨[1], .positive⟩ : ScaledValue).mag * 2 ^ (191 : Immediate).toNat < 2 ^ (32 * (edge 0).config.sCap) ∧
    2 ^ (32 * (edge 0).config.sCap) ≤ (⟨[1], .positive⟩ : ScaledValue).mag * 2 ^ (192 : Immediate).toNat :=
  ⟨edge_inv 0, by decide⟩
theorem witness_SdaccAccumulatesADigit : (edge 0x30).Inv ∧ (edge 0x30).scaledReg 1 = some ⟨[1], .positive⟩ ∧
    (edge 0x30).din.toNat = 0x30 + 0 ∧ (edge 0x39).din.toNat = 0x30 + 9 ∧
    10 * (⟨[1], .positive⟩ : ScaledValue).mag + 9 < 2 ^ (32 * 6) ∧
    2 ^ (32 * 6) ≤ 10 * (⟨topScaled, .positive⟩ : ScaledValue).mag + 0 ∧
    (edge 0x30).scaledReg 0 = some ⟨topScaled, .positive⟩ ∧ (edge 0x2F).din.toNat < 0x30 ∧ 0x39 < (edge 0x3A).din.toNat ∧
    (edge 0x30).scaledReg 3 = none ∧ (edge 0x30).scaledReg 2 = some negative ∧ negative.sign = .negative :=
  ⟨edge_inv 0x30, by decide⟩
/-- binary64: an all-ones exponent, `2^128` and the largest pattern below it. binary32: infinity, and the largest
finite pattern. -/
theorem witness_FloatPatternsExtract :
    binary64.exponentOf 0x7FF0000000000000 = 0x7FF ∧ 32 * (6 : Int) ≤ binary64.unbiasedOf 0x47F0000000000000 + 64 ∧
    binary64.exponentOf 0x47EFFFFFFFFFFFFF ≠ 0x7FF ∧ binary64.unbiasedOf 0x47EFFFFFFFFFFFFF + 64 < 32 * (6 : Int) ∧
    binary32.exponentOf 0x7F800000 = 0xFF ∧ binary32.exponentOf 0x7F7FFFFF ≠ 0xFF ∧
    binary32.unbiasedOf 0x7F7FFFFF + 64 < 32 * (6 : Int) ∧ (0x7F800000 : DataWord).toNat < 2 ^ 32 := by decide
/-- A zero window and a window that is not zero. -/
theorem witness_FloatPatternsAssemble : (edge 0).scaledReg 7 = some ⟨[], .positive⟩ ∧
    (⟨[], .positive⟩ : ScaledValue).mag % 2 ^ 96 = 0 ∧ (edge 0).scaledReg 2 = some negative ∧
    negative.mag % 2 ^ 96 ≠ 0 := by decide
/-- A tie of binary64 (vector V8.25), and a window binary64 holds exactly. -/
theorem witness_RoundIsToNearestEven : binary64 ∈ [binary64, binary32] ∧ (0x20000000000001 : Nat) < 2 ^ 96 ∧
    binary64.round 0x20000000000001 = (1012, 0) ∧
    2 * (((2 ^ 52 + 0) * 2 ^ (1012 + 64 - 1023) : Nat) - (0x20000000000001 : Int) * 2 ^ 52).natAbs =
      2 ^ (bitlen 0x20000000000001 - 1) ∧
    binary64.round 0x100 = (967, 0) ∧ (1 : Nat) < 2 ^ (binary64.mantissaBits + 1) ∧ 0x100 = 1 * 2 ^ 8 := by
  decide +kernel
/-- `1.0`; the exponents 31 and −64 at the ends of the range, the second with a right shift; binary32 `1.5`. -/
theorem witness_FloatPatternsRoundTrip : -64 ≤ binary64.unbiasedOf 0x3FF0000000000000 ∧
    binary64.unbiasedOf 0x41EFFFFFFFFFFFFF = 31 ∧ binary64.unbiasedOf 0x3BF0000000000000 = -64 ∧
    binary64.shiftOf 0x3BF0000000000000 = -52 ∧ 2 ^ 52 ∣ binary64.significandOf 0x3BF0000000000000 ∧
    binary32.unbiasedOf 0x3FC00000 = 0 ∧ (0x3FC00000 : DataWord).toNat < 2 ^ 32 ∧ 0 ≤ binary32.shiftOf 0x3FC00000 := by
  decide
/-- A digit string below `2^512`, and one of 155 nines, above it. -/
theorem witness_WfromdecReadsTheNumber : (∀ d ∈ [4, 2], d < 10) ∧ spelled [4, 2] < 2 ^ 512 ∧
    (∀ d ∈ List.replicate 155 9, d < 10) ∧ 2 ^ 512 ≤ spelled (List.replicate 155 9) ∧
    { State.reset with host := wfromdec 0 ([4, 2].map digitDin) }.host = wfromdec 0 ([4, 2].map digitDin) ++ [] := by
  decide +kernel
theorem witness_SfromdecReadsTheNumber : (∀ d ∈ [0, 7], d < 10) ∧ spelled [0, 7] < 2 ^ (32 * 6) ∧
    2 ^ (32 * 6) ≤ spelled (List.replicate 58 9) ∧ { State.reset with host := sfromdec 1 true ([0, 7].map digitDin) }.host =
      sfromdec 1 true ([0, 7].map digitDin) ++ [] := by decide +kernel
theorem witness_DecimalTextRoundTrips : (∀ d ∈ [0, 0, 7], d < 10) ∧ spelled [0, 0, 7] < 2 ^ 512 ∧
    { State.reset with host := wfromdec 0 ([0, 0, 7].map digitDin) ++ [send (.wtodec 0) 0] }.host =
      wfromdec 0 ([0, 0, 7].map digitDin) ++ send (.wtodec 0) 0 :: [] := by decide +kernel

/-! For the clauses that say where a command is refused: an invalid source, an index or a `din` out of range. -/

theorem witness_ZeroMakesCanonicalZero_refused : 8 ≤ (8 : RegField).toNat := by decide
theorem witness_WldlReplacesOneLimb_refused : (edge 0).Inv ∧ 8 ≤ (8 : Immediate).toNat ∧ (7 : Immediate).toNat < 8 ∧
    (edge 0).wideReg 3 = none := ⟨edge_inv _, by decide⟩
theorem witness_LimbReads_refused : 8 ≤ (8 : Immediate).toNat ∧ (edge 0).config.sCap ≤ (6 : Immediate).toNat ∧
    (edge 0).wideReg 3 = none ∧ (edge 0).scaledReg 3 = none := by decide
theorem witness_LengthReads_refused : (edge 0).Inv ∧ (edge 0).wideReg 3 = none ∧ (edge 0).scaledReg 3 = none :=
  ⟨edge_inv _, by decide⟩
theorem witness_SldlReplacesOneLimb_refused : (edge 0).Inv ∧ (edge 0).config.sCap ≤ (6 : Immediate).toNat ∧
    2 ^ 32 ≤ (edge 0x100000000).din.toNat ∧ (5 : Immediate).toNat < (edge 0).config.sCap ∧
    (edge 0).din.toNat < 2 ^ 32 ∧ (edge 0).scaledReg 3 = none := ⟨edge_inv _, by decide⟩
theorem witness_SignMoves_refused : (edge 0).Inv ∧ (edge 0).scaledReg 3 = none := ⟨edge_inv _, by decide⟩
theorem witness_LimbShifts_refused : (edge 0).Inv ∧ (edge 0).scaledReg 3 = none := ⟨edge_inv _, by decide⟩
theorem witness_DivideAndModuloByPowerOfTwo_refused : (edge 0).Inv ∧ (edge 0).scaledReg 3 = none :=
  ⟨edge_inv _, by decide⟩
theorem witness_SmulpMultipliesByPowerOfTwo_refused : (edge 0).Inv ∧ (edge 0).scaledReg 3 = none :=
  ⟨edge_inv _, by decide⟩
theorem witness_SmulMultipliesExactly_refused : (edge 0).Inv ∧ (edge 0).scaledReg 3 = none :=
  ⟨edge_inv _, by decide⟩
theorem witness_SmulsRescalesTheProduct_refused : (edge 0).Inv ∧ (edge 0).scaledReg 3 = none :=
  ⟨edge_inv _, by decide⟩
theorem witness_SadddAddsADigit_refused : (edge 0x100000000).Inv ∧ 2 ^ 32 ≤ (edge 0x100000000).din.toNat ∧
    (edge 0).din.toNat < 2 ^ 32 ∧ (edge 0).scaledReg 3 = none := ⟨edge_inv _, by decide⟩
theorem witness_SmuldMultipliesByADigit_refused : (edge 0x100000000).Inv ∧ 2 ^ 32 ≤ (edge 0x100000000).din.toNat ∧
    (edge 0).din.toNat < 2 ^ 32 ∧ (edge 0).scaledReg 3 = none := ⟨edge_inv _, by decide⟩
theorem witness_SdivprQuotientAndRemainder_refused : (edge 0).Inv ∧ (1 : RegField) = 1 ∧ (1 : RegField) ≠ 2 ∧ (edge 0).scaledReg 3 = none :=
  ⟨edge_inv _, by decide⟩
theorem witness_FloatPatternsExtract_refused : 2 ^ 32 ≤ (edge 0x100000000).din.toNat := by decide
theorem witness_FloatPatternsAssemble_refused : (edge 0).scaledReg 3 = none := by decide

end Sys2Proof.Tests
end

section
/-! PROOFS. The reset state (spec/10_state.md rule R30), and everything a step can be (spec/30_encoding.md rule R41). -/

namespace Sys2Proof.Machine

theorem resetWith_wideReg (c : Config) (r : RegField) :
    (State.resetWith c).wideReg r = if r.toNat < 8 then some [0] else none := by
  rw [State.wideReg, State.resetWith, Vector.getElem?_replicate]
  split <;> rfl

theorem resetWith_scaledReg (c : Config) (r : RegField) :
    (State.resetWith c).scaledReg r = if r.toNat < 8 then some ⟨[], .positive⟩ else none := by
  rw [State.scaledReg, State.resetWith, Vector.getElem?_replicate]
  split <;> rfl

/-- The reset state of a core satisfies the invariants (R16, R21, R25). -/
theorem inv_resetWith (c : Config) : (State.resetWith c).Inv where
  wide r a ha := by
    rw [resetWith_wideReg] at ha
    split at ha <;> cases ha
    decide
  scaled r a ha := by
    rw [resetWith_scaledReg] at ha
    split at ha <;> cases ha
    simp [ScaledCanonical]
  digits := by show DigitsCanonical []; decide

/-- Everything a step can be: a wait, the host's reset, a word that selects no command, or a command. -/
inductive StepTo (s : State) : State → Prop where
  | idle (h : s.host = []) : StepTo s { s with response := none }
  | reset (rest : List HostAction) (h : s.host = .reset :: rest) : StepTo s (s.afterReset rest)
  | undecoded (cmd : CommandWord) (din : DataWord) (rest : List HostAction) (h : s.host = .issue cmd din :: rest) :
      StepTo s ((s.executing din rest).faulted .illegalCommand [])
  | command (cmd : CommandWord) (din : DataWord) (rest : List HostAction) (i : Instr) (t : State)
      (h : s.host = .issue cmd din :: rest) (ht : exec i (s.executing din rest) = .next t) : StepTo s t

theorem stepTo_of_step {s t : State} (h : step s = .next t) : StepTo s t := by
  rw [step, takeAction] at h
  split at h
  · next hh => cases h; exact .idle hh
  · next rest hh => cases h; exact .reset rest hh
  · next cmd din rest hh =>
    rw [runWord] at h
    split at h
    · next i _ => exact .command cmd din rest i t hh h
    · cases h; exact .undecoded cmd din rest hh

/-- Settles O11: `State.reset` is the reset state of the core with the default capacity. -/
theorem invAtReset : Obligations.InvAtReset := ⟨inv_resetWith _, inv_resetWith⟩

/-- Settles O9: the host's reset leaves `State.resetWith` of the same parameter, whose fields are R30's. -/
theorem resetLeavesTheResetState : Obligations.ResetLeavesTheResetState := by
  have regs (c : Config) (r : RegField) (hr : r.toNat < 8) : (State.resetWith c).wideReg r = some [0] ∧
      (State.resetWith c).scaledReg r = some ⟨[], .positive⟩ :=
    ⟨(resetWith_wideReg c r).trans (if_pos hr), (resetWith_scaledReg c r).trans (if_pos hr)⟩
  refine ⟨fun s rest => ⟨s.afterReset rest, rfl, regs s.config, rfl, rfl, rfl, rfl⟩, regs _, rfl, rfl, ?_⟩
  decide

end Sys2Proof.Machine
end

section
/-! PROOFS. Every step keeps the invariants (spec/10_state.md rules R16, R21, R25): one lemma for each operand form and
each ending, and a walk over the commands that gives each result its length. -/

namespace Sys2Proof.Machine

/-- Whatever state the result is, it has the invariants. -/
def KeepsInv (r : Result) : Prop := ∀ t, r = .next t → t.Inv

/-- A signed sum has no more limbs than the capacity (R87). -/
theorem length_of_signedAdd {cap : Nat} {a b : ScaledValue} {l : List Digit} {sg : Sign}
    (ha : a.limbs.length ≤ cap) (hb : b.limbs.length ≤ cap) (hac : a.limbs.getLast? ≠ some 0)
    (hbc : b.limbs.getLast? ≠ some 0) (h : signedAdd cap a b = some (l, sg)) : l.length ≤ cap := by
  have hspec := signedAdd_spec ha hb hac hbc
  rw [h] at hspec
  obtain ⟨-, hl, -⟩ := hspec
  exact hl

/-- A product leaves the top limb of the capacity free (R99). -/
theorem length_of_mulMag {cap : Nat} {a b l : List Digit} (hb : b.length ≤ 64) (h : mulMag cap a b = some l) :
    l.length ≤ cap - 1 := by
  have hspec := mulMag_spec (cap := cap) a b hb
  rw [h] at hspec
  obtain ⟨-, -, hl⟩ := hspec
  exact hl

/-- The check of R48 that a command makes with its other ones. -/
theorem din_lt_of_dinIs32 {ok : Bool} {din : DataWord} (h : (ok && dinIs32 din) = true) : din.toNat < 2 ^ 32 := by
  rw [Bool.and_eq_true, dinIs32, decide_eq_true_eq] at h
  exact h.2

section Forms
variable {s : State} (h : s.Inv)
include h

theorem keepsInv_raise (f : FaultClass) (dests : List Dest) : KeepsInv (s.raise f dests) := by
  rintro t ⟨⟩
  exact h.faulted f dests

theorem keepsInv_finish (d : DataWord) : KeepsInv (s.finish d) := by
  rintro t ⟨⟩
  exact h.respond .ok d

theorem keepsInv_whenLegal {ok : Bool} {next : Result} (k : ok = true → KeepsInv next) :
    KeepsInv (s.whenLegal ok next) := by
  cases ok
  · exact keepsInv_raise h .illegalCommand []
  · exact k rfl

theorem keepsInv_withWide {r : RegField} {next : List WideLimb → Result}
    (k : ∀ a, WideCanonical a → KeepsInv (next a)) : KeepsInv (s.withWide r next) := by
  rw [State.withWide]
  split
  · next a ha => exact k a (h.wide r a ha)
  · exact keepsInv_raise h .invalidOperand []

theorem keepsInv_withScaled {r : RegField} {next : ScaledValue → Result}
    (k : ∀ a, ScaledCanonical s.config.sCap a → KeepsInv (next a)) : KeepsInv (s.withScaled r next) := by
  rw [State.withScaled]
  split
  · next a ha => exact k a (h.scaled r a ha)
  · exact keepsInv_raise h .invalidOperand []

theorem keepsInv_whenPositive {a : ScaledValue} {next : Result} (k : KeepsInv next) :
    KeepsInv (s.whenPositive a next) := by
  rw [State.whenPositive]
  split
  · exact k
  · exact keepsInv_raise h .invalidOperand []

theorem keepsInv_withDigit {next : Nat → Result} (k : ∀ d < 10, KeepsInv (next d)) : KeepsInv (s.withDigit next) := by
  rw [State.withDigit]
  split
  · exact keepsInv_raise h .malformedInput []
  · exact k _ (by omega)

theorem keepsInv_finishWide {rd : RegField} {o : Option (List WideLimb)} (hl : ∀ l, o = some l → l.length ≤ 8) :
    KeepsInv (s.finishWide rd o) := by
  cases o with
  | some l => exact keepsInv_finish (h.writeWide rd (hl l rfl)) 0
  | none => exact keepsInv_raise h .capacityOverflow [.wide rd]

theorem keepsInv_finishScaled {rd : RegField} {o : Option (List Digit × Sign)}
    (hl : ∀ l sg, o = some (l, sg) → l.length ≤ s.config.sCap) : KeepsInv (s.finishScaled rd o) := by
  cases o with
  | some p => exact keepsInv_finish (h.writeScaled rd p.2 (hl p.1 p.2 rfl)) 0
  | none => exact keepsInv_raise h .capacityOverflow [.scaled rd]

/-- The ending of a command whose sign does not depend on the magnitude it computes. -/
theorem keepsInv_finishMagnitude {rd : RegField} {sg : Sign} {o : Option (List Digit)}
    (hl : ∀ l, o = some l → l.length ≤ s.config.sCap) : KeepsInv (s.finishScaled rd (o.map (·, sg))) := by
  refine keepsInv_finishScaled h fun l sg' ho => ?_
  obtain ⟨l', hl', e⟩ := Option.map_eq_some_iff.mp ho
  cases e
  exact hl _ hl'

theorem keepsInv_extract (f : FloatFormat) (rd : RegField) : KeepsInv (s.extract f rd) := by
  rw [State.extract]
  split
  · exact keepsInv_raise h .domainError [.scaled rd]
  · exact keepsInv_finish (h.writeScaled rd _ (by simp [FloatFormat.limbsOf])) 0

/-- Every command keeps the invariants. -/
theorem exec_keepsInv (i : Instr) : KeepsInv (exec i s) := by
  cases i with
  | rdcfg => exact keepsInv_finish h _
  | rdflags => exact keepsInv_finish h _
  | wzero rd => exact keepsInv_whenLegal h fun _ => keepsInv_finish (h.writeWide rd (by simp)) 0
  | wldl rd imm =>
    refine keepsInv_whenLegal h fun _ => keepsInv_withWide h fun a _ => ?_
    exact keepsInv_finish (h.writeWide rd (by simp)) 0
  | wstl ra imm => exact keepsInv_whenLegal h fun _ => keepsInv_withWide h fun a _ => keepsInv_finish h _
  | wlen ra => exact keepsInv_whenLegal h fun _ => keepsInv_withWide h fun a _ => keepsInv_finish h _
  | waddl rd =>
    refine keepsInv_whenLegal h fun _ => keepsInv_withWide h fun a ⟨_, ha, _⟩ => ?_
    exact keepsInv_finishWide h fun l hl => (hl ▸ addLimb_spec a s.din ha).2
  | wmull rd =>
    refine keepsInv_whenLegal h fun _ => keepsInv_withWide h fun a ⟨_, ha, _⟩ => ?_
    exact keepsInv_finishWide h fun l hl => (hl ▸ mulLimb_spec a s.din ha).2
  | wadd rd ra rb =>
    refine keepsInv_whenLegal h fun _ => keepsInv_withWide h fun a ⟨_, ha, _⟩ => ?_
    refine keepsInv_withWide h fun b ⟨_, hb, _⟩ => ?_
    exact keepsInv_finishWide h fun l hl => (hl ▸ addWide_spec a b ha hb).2
  | wmul rd ra rb =>
    refine keepsInv_whenLegal h fun _ => keepsInv_withWide h fun a ⟨ha0, ha, _⟩ => ?_
    refine keepsInv_withWide h fun b ⟨_, hb, _⟩ => ?_
    exact keepsInv_finishWide h fun l hl => (hl ▸ mulWide_spec a b ha hb ha0).2
  | wdacc rd =>
    refine keepsInv_whenLegal h fun _ => keepsInv_withWide h fun a ⟨_, ha, _⟩ => ?_
    refine keepsInv_withDigit h fun d hd => ?_
    exact keepsInv_finishWide h fun l hl => (hl ▸ wideDigitStep_spec a d ha hd).2
  | wtodec ra =>
    refine keepsInv_whenLegal h fun _ => keepsInv_withWide h fun a ha => ?_
    rw [toDecimal_eq]
    exact keepsInv_finish (h.withDigits (limbsVal_lt_of_wideCanonical ha)) 0
  | dlen => exact keepsInv_finish h _
  | dget imm =>
    refine keepsInv_whenLegal h fun _ => ?_
    split
    · exact keepsInv_finish h _
    · exact keepsInv_raise h .invalidOperand []
  | szero rd => exact keepsInv_whenLegal h fun _ => keepsInv_finish (h.writeScaled rd _ (by simp)) 0
  | sldl rd imm =>
    refine keepsInv_whenLegal h fun _ => keepsInv_withScaled h fun a ha => ?_
    exact keepsInv_finish (h.writeScaled rd _ (by simp)) 0
  | sstl ra imm => exact keepsInv_whenLegal h fun _ => keepsInv_withScaled h fun a _ => keepsInv_finish h _
  | sinfo ra => exact keepsInv_whenLegal h fun _ => keepsInv_withScaled h fun a _ => keepsInv_finish h _
  | smov rd ra =>
    exact keepsInv_whenLegal h fun _ => keepsInv_withScaled h fun a ha => keepsInv_finish (h.writeScaled rd _ ha.1) 0
  | sneg rd ra =>
    exact keepsInv_whenLegal h fun _ => keepsInv_withScaled h fun a ha => keepsInv_finish (h.writeScaled rd _ ha.1) 0
  | sabs rd ra =>
    exact keepsInv_whenLegal h fun _ => keepsInv_withScaled h fun a ha => keepsInv_finish (h.writeScaled rd _ ha.1) 0
  | scmpm ra rb =>
    refine keepsInv_whenLegal h fun _ => keepsInv_withScaled h fun a _ => ?_
    exact keepsInv_withScaled h fun b _ => keepsInv_finish h _
  | scmp ra rb =>
    refine keepsInv_whenLegal h fun _ => keepsInv_withScaled h fun a _ => ?_
    exact keepsInv_withScaled h fun b _ => keepsInv_finish h _
  | sadd rd ra rb =>
    refine keepsInv_whenLegal h fun _ => keepsInv_withScaled h fun a ⟨ha, hac, _⟩ => ?_
    refine keepsInv_withScaled h fun b ⟨hb, hbc, _⟩ => ?_
    exact keepsInv_finishScaled h fun l sg hl => length_of_signedAdd ha hb hac hbc hl
  | ssub rd ra rb =>
    refine keepsInv_whenLegal h fun _ => keepsInv_withScaled h fun a ⟨ha, hac, _⟩ => ?_
    refine keepsInv_withScaled h fun b ⟨hb, hbc, _⟩ => ?_
    exact keepsInv_finishScaled h fun l sg hl => length_of_signedAdd (b := ⟨b.limbs, b.sign.flip⟩) ha hb hac hbc hl
  | smul rd ra rb =>
    refine keepsInv_whenLegal h fun _ => keepsInv_withScaled h fun a _ => keepsInv_withScaled h fun b hb => ?_
    refine keepsInv_finishMagnitude h fun l hl => ?_
    exact (length_of_mulMag (hb.1.trans s.config.sCap_le) hl).trans (Nat.sub_le _ _)
  | smuls rd ra rb =>
    refine keepsInv_whenLegal h fun _ => keepsInv_withScaled h fun a _ => keepsInv_withScaled h fun b hb => ?_
    refine keepsInv_finishScaled h fun l sg ho => ?_
    obtain ⟨p, hp, e⟩ := Option.map_eq_some_iff.mp ho
    have hlen := length_of_mulMag (hb.1.trans s.config.sCap_le) hp
    cases e
    rw [List.length_drop]
    omega
  | sshld rd imm =>
    refine keepsInv_whenLegal h fun _ => keepsInv_withScaled h fun a ⟨ha, hac, _⟩ => ?_
    exact keepsInv_finishMagnitude h fun l hl => (hl ▸ shiftLeftDigits_spec (n := imm.toNat) ha hac).2
  | sshrd rd imm =>
    refine keepsInv_whenLegal h fun _ => keepsInv_withScaled h fun a ha => ?_
    exact keepsInv_finish (h.writeScaled rd _ ((shiftRightDigits_spec a.limbs imm.toNat).2.trans ha.1)) 0
  | smuld rd ra =>
    refine keepsInv_whenLegal h fun hok => keepsInv_withScaled h fun a ha => ?_
    exact keepsInv_finishMagnitude h fun l hl => (hl ▸ mulDigit_spec ha.1 (din_lt_of_dinIs32 hok)).2
  | saddd rd ra =>
    refine keepsInv_whenLegal h fun hok => keepsInv_withScaled h fun a ha => keepsInv_whenPositive h ?_
    exact keepsInv_finishMagnitude h fun l hl => (hl ▸ addDigit_spec ha.1 (din_lt_of_dinIs32 hok)).2
  | sdivp rd ra imm =>
    refine keepsInv_whenLegal h fun _ => keepsInv_withScaled h fun a ha => ?_
    exact keepsInv_finish (h.writeScaled rd _ ((divPow2_spec a.limbs imm.toNat).2.trans ha.1)) 0
  | sdivpr rd ra rb imm =>
    refine keepsInv_whenLegal h fun _ => keepsInv_withScaled h fun a ha => ?_
    have hrem := h.writeScaled rb a.sign ((modPow2_spec a.limbs imm.toNat).2.le.trans ha.1)
    exact keepsInv_finish (hrem.writeScaled rd a.sign ((divPow2_spec a.limbs imm.toNat).2.trans ha.1)) 0
  | smodp rd ra imm =>
    refine keepsInv_whenLegal h fun _ => keepsInv_withScaled h fun a ha => ?_
    exact keepsInv_finish (h.writeScaled rd _ ((modPow2_spec a.limbs imm.toNat).2.le.trans ha.1)) 0
  | smulp rd ra imm =>
    refine keepsInv_whenLegal h fun _ => keepsInv_withScaled h fun a _ => ?_
    exact keepsInv_finishMagnitude h fun l hl => (hl ▸ mulPow2_spec s.config.sCap imm.toNat a.limbs).2
  | sdacc rd =>
    refine keepsInv_whenLegal h fun _ => keepsInv_withScaled h fun a ha => keepsInv_whenPositive h ?_
    refine keepsInv_withDigit h fun d hd => ?_
    exact keepsInv_finishMagnitude h fun l hl => (hl ▸ scaledDigitStep_spec ha.1 hd).2
  | sfromd rd => exact keepsInv_whenLegal h fun _ => keepsInv_extract h binary64 rd
  | sfromf rd => exact keepsInv_whenLegal h fun _ => keepsInv_extract h binary32 rd
  | stod ra => exact keepsInv_whenLegal h fun _ => keepsInv_withScaled h fun a _ => keepsInv_finish h _
  | stof ra => exact keepsInv_whenLegal h fun _ => keepsInv_withScaled h fun a _ => keepsInv_finish h _

end Forms

/-- Settles O12: by the kinds of a step; a command keeps the invariants by `exec_keepsInv`. -/
theorem stepKeepsInv : Obligations.StepKeepsInv := by
  intro s t hs h
  have hex (din : DataWord) (rest : List HostAction) : (s.executing din rest).Inv := hs.of_same rfl rfl rfl rfl
  cases stepTo_of_step h with
  | idle _ => exact hs.of_same rfl rfl rfl rfl
  | reset rest _ => exact (inv_resetWith s.config).of_same rfl rfl rfl rfl
  | undecoded cmd din rest _ => exact (hex din rest).faulted .illegalCommand []
  | command cmd din rest i t _ ht => exact exec_keepsInv (hex din rest) i t ht

end Sys2Proof.Machine
end

section
/-! PROOFS. What the write of a number into a register stores (spec/10_state.md rules R16 to R18, R21, R22). -/

namespace Sys2Proof.Machine

/-- The record of a number below `2^512` (R16, R18). -/
theorem wideOfNat_spec {n : Nat} (hn : n < 2 ^ 512) : wval (wideOfNat n) = n ∧ WideCanonical (wideOfNat n) := by
  have hn' : n < 2 ^ (64 * Config.wCap) := by rwa [show 64 * Config.wCap = 512 from rfl]
  exact ⟨(limbsVal_canonicalWide _).trans (limbsVal_limbsOfNat_of_lt hn'), wideCanonical_canonicalWide (by simp)⟩

/-- The record of a magnitude that fits and a sign (R21, R22). -/
theorem scaledOfNat_spec {c : Config} {m : Nat} (hm : m < 2 ^ (32 * c.sCap)) (sign : Sign) :
    (scaledOfNat c m sign).mag = m ∧ (scaledOfNat c m sign).sign = (if m = 0 then .positive else sign) ∧
    ScaledCanonical c.sCap (scaledOfNat c m sign) := by
  have hval := limbsVal_limbsOfNat_of_lt hm
  refine ⟨(clamp_mag _ _).trans hval, ?_, scaledCanonical_clamp (by simp) sign⟩
  rw [scaledOfNat, clamp_sign, hval]

/-- Settles O22: the register reads as `wideOfNat n`, whose value gives its limbs and its length. -/
theorem wideWriteStoresTheNumber : Obligations.WideWriteStoresTheNumber := by
  intro s r n hr hn
  obtain ⟨hval, hcan⟩ := wideOfNat_spec hn
  have hread (q : RegField) : (s.writeWideNat r n).wideReg q = if q = r ∧ r.toNat < 8 then some (wideOfNat n) else
      s.wideReg q := wideReg_writeWide ..
  refine ⟨⟨wideOfNat n, ?_, ?_, fun k _ => ?_, hval, hcan⟩, fun q hq => ?_, rfl⟩
  · rw [hread, if_pos ⟨rfl, hr⟩]
  · rw [length_of_wideCanonical hcan, hval]
  · rw [limbAt_toNat, ← wval, hval]
  · rw [hread, if_neg (fun h => hq h.1)]

/-- Settles O23: the register reads as `scaledOfNat`, whose magnitude gives its limbs and `used`. -/
theorem scaledWriteStoresTheNumber : Obligations.ScaledWriteStoresTheNumber := by
  intro s r m sign hr hm
  obtain ⟨hval, hsign, hcan⟩ := scaledOfNat_spec hm sign
  have hread (q : RegField) : (s.writeScaledNat r m sign).scaledReg q =
      if q = r ∧ r.toNat < 8 then some (scaledOfNat s.config m sign) else s.scaledReg q := scaledReg_writeScaled ..
  refine ⟨⟨scaledOfNat s.config m sign, ?_, ?_, fun k _ => ?_, hsign, hval, hcan⟩, fun q hq => ?_, rfl⟩
  · rw [hread, if_pos ⟨rfl, hr⟩]
  · rw [length_eq_limbCount (by decide) hcan.2.1, ← ScaledValue.mag, hval]
  · rw [limbAt_toNat, ← ScaledValue.mag, hval]
  · rw [hread, if_neg (fun h => hq h.1)]

end Sys2Proof.Machine
end

section
/-! PROOFS. What the status of a command says of the flags, the response and the valid bits (spec/10_state.md rules R24,
R26, R28, spec/60_exceptions.md rule R137), read off everything a command can do (`exec_ends`). -/

namespace Sys2Proof.Machine

/-- The flags after a command with this status: a fault sets its own (R26). -/
def Status.recordIn (flags : BitVec 5) : Status → BitVec 5
  | .ok => flags
  | .raised f => setSticky flags f

/-- The sticky flag of a fault is the one its status code numbers (R26, R132). -/
theorem setSticky_eq (flags : BitVec 5) (f : FaultClass) :
    setSticky flags f = flags ||| (1#5 <<< ((Status.raised f).code.toNat - 1)) := by
  cases f <;> rfl

/-- No fault clears a flag (R26). -/
theorem getLsbD_setSticky {flags : BitVec 5} {k : Nat} (f : FaultClass) (h : flags.getLsbD k = true) :
    (setSticky flags f).getLsbD k = true := by
  rw [setSticky, BitVec.getLsbD_or, h, Bool.true_or]

/-- A command that ends `OK` has written registers or the digit buffer only. -/
theorem Written.frame {i : Instr} {s t : State} (h : Written i s t) :
    t.config = s.config ∧ t.flags = s.flags ∧ t.host = s.host ∧ t.din = s.din := by
  cases h <;> exact ⟨rfl, rfl, rfl, rfl⟩

/-- How every command closes: with a response, whose `dout` is 0 unless it is `OK`, the flag of its status recorded, and
the host's side as it was. -/
theorem exec_closes {i : Instr} {s t : State} (h : exec i s = .next t) : ∃ r, t.response = some r ∧
    (r.status ≠ .ok → r.dout = 0) ∧ t.flags = r.status.recordIn s.flags ∧ t.host = s.host ∧ t.din = s.din := by
  have faulted (f : FaultClass) (dests : List Dest) : ∃ r, (s.faulted f dests).response = some r ∧
      (r.status ≠ .ok → r.dout = 0) ∧ (s.faulted f dests).flags = r.status.recordIn s.flags ∧
      (s.faulted f dests).host = s.host ∧ (s.faulted f dests).din = s.din :=
    ⟨⟨.raised f, 0⟩, rfl, fun _ => rfl, rfl, faulted_host .., faulted_din ..⟩
  have hends := exec_ends i s
  rw [h] at hends
  cases hends with
  | illegal | unusable | malformed | outOfDomain | overflow => exact faulted ..
  | done u d _ _ _ hw =>
    obtain ⟨-, hflags, hhost, hdin⟩ := hw.frame
    exact ⟨⟨.ok, d⟩, rfl, fun hne => absurd rfl hne, hflags, hhost, hdin⟩

/-- A step that is not the host's reset clears no flag (R26). -/
theorem step_keeps_flag {s t : State} {k : Nat} (h : step s = .next t) (hr : ∀ rest, s.host ≠ .reset :: rest)
    (hk : s.flags.getLsbD k = true) : t.flags.getLsbD k = true := by
  cases stepTo_of_step h with
  | idle _ => exact hk
  | reset rest hh => exact absurd hh (hr rest)
  | undecoded cmd din rest _ => exact getLsbD_setSticky .illegalCommand hk
  | command cmd din rest i t _ ht =>
    obtain ⟨r, -, -, hflags, -⟩ := exec_closes ht
    rw [hflags]
    cases r.status with
    | ok => exact hk
    | raised f => exact getLsbD_setSticky f hk

/-- Settles O14: a command closes by `exec_closes`, a step by `step_keeps_flag`, and reset by its definition. -/
theorem flagsRecordTheStatus : Obligations.FlagsRecordTheStatus := by
  refine ⟨fun i s t h => ?_, fun s t k h hr hk => step_keeps_flag h hr hk, fun s t rest hh h => ?_⟩
  · obtain ⟨⟨status, dout⟩, hresp, hdout, hflags, -⟩ := exec_closes h
    refine ⟨⟨status, dout⟩, hresp, ?_⟩
    cases status with
    | ok => exact hflags
    | raised f => exact ⟨hdout (by simp), hflags.trans (setSticky_eq s.flags f)⟩
  · rw [step, takeAction, hh] at h
    cases h
    rfl

/-- The valid bits after a fault: only a fault that invalidates clears one, and only of a destination (R24, R137). -/
theorem valid_faulted (s : State) (f : FaultClass) (dests : List Dest) (x : Dest) :
    (s.faulted f dests).valid x = if f.invalidates ∧ x ∈ dests then false else s.valid x := by
  cases x with
  | wide r => rw [State.valid, faulted_wideReg]; split <;> rfl
  | scaled r => rw [State.valid, faulted_scaledReg]; split <;> rfl

theorem valid_writeWide (s : State) {r : RegField} (l : List WideLimb) (hr : r.toNat < 8) (x : Dest) :
    (s.writeWide r l).valid x = (s.valid x || x = .wide r) := by
  cases x with
  | wide q => by_cases h : q = r <;> simp [State.valid, wideReg_writeWide, h, hr]
  | scaled q => simp [State.valid]

theorem valid_writeScaled (s : State) {r : RegField} (l : List Digit) (sg : Sign) (hr : r.toNat < 8) (x : Dest) :
    (s.writeScaled r l sg).valid x = (s.valid x || x = .scaled r) := by
  cases x with
  | wide q => simp [State.valid]
  | scaled q => by_cases h : q = r <;> simp [State.valid, scaledReg_writeScaled, h, hr]

/-- The valid bits after a command that ends `OK`: those of before, and every destination's (R24). -/
theorem Written.valid {i : Instr} {s t : State} (h : Written i s t) (x : Dest) :
    t.valid x = (s.valid x || x ∈ destsOf i) := by
  cases h with
  | nothing hd _ => simp [hd]
  | wide rd l hd h8 => simp [hd, valid_writeWide s l h8]
  | scaled rd l sg hd h8 => simp [hd, valid_writeScaled s l sg h8]
  | both rd rb l l' sg sg' hd h8 h8' =>
    simp [hd, valid_writeScaled _ l sg h8, valid_writeScaled s l' sg' h8', Bool.or_assoc, Bool.or_comm (x = .scaled rb)]
  | digits ra l hi _ =>
    subst hi
    show s.valid x = _
    simp [destsOf]

/-- A fault clears the valid bit of a destination only, and only if it is of a class that invalidates (R24). -/
theorem invalidates_of_valid_cleared {s : State} {f : FaultClass} {dests : List Dest} {x : Dest}
    (hs : s.valid x = true) (ht : (s.faulted f dests).valid x = false) : f.invalidates ∧ x ∈ dests := by
  by_contra hc
  rw [valid_faulted, if_neg hc, hs] at ht
  cases ht

/-- A command that ends `OK` leaves every register it writes valid. -/
theorem valid_of_ok {i : Instr} {s t : State} {d : DataWord} (h : Ends i s (.next t))
    (hok : t.response = some ⟨.ok, d⟩) {x : Dest} (hx : x ∈ destsOf i) : t.valid x = true := by
  cases h with
  | illegal | unusable | malformed | outOfDomain | overflow => cases hok
  | done u _ _ _ _ hw =>
    show u.valid x = true
    rw [hw.valid, decide_eq_true hx, Bool.or_true]

/-- A command that clears a valid bit clears a destination's and ends with one of the two classes that invalidate. -/
theorem dest_of_cleared {i : Instr} {s t : State} (h : Ends i s (.next t)) {x : Dest} (hs : s.valid x = true)
    (ht : t.valid x = false) : x ∈ destsOf i ∧
      (t.response = some ⟨.raised .capacityOverflow, 0⟩ ∨ t.response = some ⟨.raised .domainError, 0⟩) := by
  cases h with
  | illegal | unusable | malformed => cases (invalidates_of_valid_cleared hs ht).2
  | outOfDomain => exact ⟨(invalidates_of_valid_cleared hs ht).2, .inr rfl⟩
  | overflow => exact ⟨(invalidates_of_valid_cleared hs ht).2, .inl rfl⟩
  | done u _ _ _ _ hw =>
    have hu : u.valid x = false := ht
    rw [hw.valid, hs, Bool.true_or] at hu
    cases hu

/-- A legal command with an invalid source register is refused for it, whatever else is wrong (R138, R139). -/
theorem invalidOperand_of_invalid_source {i : Instr} {s t : State} (h : Ends i s (.next t))
    (hl : i.legal s.config s.din = true) {x : Dest} (hx : x ∈ sourcesOf i) (hv : s.valid x = false) :
    t.response = some ⟨.raised .invalidOperand, 0⟩ := by
  have hunusable := unusable_of_invalid hx hv
  cases h with
  | illegal hi => simp [hl] at hi
  | unusable => rfl
  | malformed _ hu | outOfDomain _ hu | overflow _ hu | done _ _ _ hu => simp [hunusable] at hu

/-- Settles O17: each clause is read off the way the command ends (`exec_ends`). -/
theorem validBit : Obligations.ValidBit := by
  intro i s t h
  have hends : Ends i s (.next t) := h ▸ exec_ends i s
  exact ⟨fun d hok x hx => valid_of_ok hends hok hx, fun x hs ht => dest_of_cleared hends hs ht,
    fun hl ⟨x, hx, hv⟩ => invalidOperand_of_invalid_source hends hl hx hv⟩

end Sys2Proof.Machine
end

section
/-! PROOFS. Nothing but its own operands decides what a command does (spec/10_state.md rules R26, R28,
spec/30_encoding.md rule R48): the same command on a state with other flags, another host, another last response and, if
it does not use it, another `din` writes the same registers and gives the same response. -/

namespace Sys2Proof.Machine

/-- What a state holds beside the core's registers and digit buffer. -/
structure Surroundings where
  flags : BitVec 5
  host : List HostAction
  din : DataWord
  response : Option Response

/-- The same registers and digit buffer in other surroundings. -/
def State.inside (s : State) (e : Surroundings) : State :=
  { s with flags := e.flags, host := e.host, din := e.din, response := e.response }

/-- What a command that gives this response leaves of the surroundings it started in. -/
def Surroundings.after (e : Surroundings) (r : Response) : Surroundings :=
  { e with flags := r.status.recordIn e.flags, response := some r }

/-- The second result is the first one in the surroundings that follow from `e`. -/
def SameEnd (e : Surroundings) (a b : Result) : Prop :=
  ∃ t r, a = .next t ∧ t.response = some r ∧ b = .next (t.inside (e.after r))

theorem foldl_invalidate_inside (e : Surroundings) : ∀ (dests : List Dest) (s : State),
    dests.foldl State.invalidate (s.inside e) = (dests.foldl State.invalidate s).inside e
  | [], _ => rfl
  | .wide r :: ds, s => foldl_invalidate_inside e ds (s.setWide r none)
  | .scaled r :: ds, s => foldl_invalidate_inside e ds (s.setScaled r none)

section Forms
variable {s : State} {e : Surroundings}

theorem sameEnd_raise (f : FaultClass) (dests : List Dest) :
    SameEnd e (s.raise f dests) ((s.inside e).raise f dests) := by
  refine ⟨s.faulted f dests, ⟨.raised f, 0⟩, rfl, rfl, congrArg Host.Outcome.next ?_⟩
  unfold State.faulted
  rw [foldl_invalidate_inside]
  cases f.invalidates <;> rfl

theorem sameEnd_finish (d : DataWord) : SameEnd e (s.finish d) ((s.inside e).finish d) :=
  ⟨s.respond .ok d, ⟨.ok, d⟩, rfl, rfl, rfl⟩

theorem sameEnd_whenLegal (ok : Bool) {a b : Result} (k : SameEnd e a b) :
    SameEnd e (s.whenLegal ok a) ((s.inside e).whenLegal ok b) := by
  cases ok
  · exact sameEnd_raise .illegalCommand []
  · exact k

theorem sameEnd_withWide (r : RegField) {a b : List WideLimb → Result} (k : ∀ x, SameEnd e (a x) (b x)) :
    SameEnd e (s.withWide r a) ((s.inside e).withWide r b) := by
  have hread : (s.inside e).wideReg r = s.wideReg r := rfl
  cases hr : s.wideReg r with
  | some x => rw [withWide_some hr, withWide_some (hread.trans hr)]; exact k x
  | none => rw [withWide_none hr, withWide_none (hread.trans hr)]; exact sameEnd_raise .invalidOperand []

theorem sameEnd_withScaled (r : RegField) {a b : ScaledValue → Result} (k : ∀ x, SameEnd e (a x) (b x)) :
    SameEnd e (s.withScaled r a) ((s.inside e).withScaled r b) := by
  have hread : (s.inside e).scaledReg r = s.scaledReg r := rfl
  cases hr : s.scaledReg r with
  | some x => rw [withScaled_some hr, withScaled_some (hread.trans hr)]; exact k x
  | none => rw [withScaled_none hr, withScaled_none (hread.trans hr)]; exact sameEnd_raise .invalidOperand []

theorem sameEnd_whenPositive (x : ScaledValue) {a b : Result} (k : SameEnd e a b) :
    SameEnd e (s.whenPositive x a) ((s.inside e).whenPositive x b) := by
  cases hx : x.sign
  · rw [whenPositive_positive hx, whenPositive_positive hx]; exact k
  · rw [whenPositive_negative hx, whenPositive_negative hx]; exact sameEnd_raise .invalidOperand []

theorem sameEnd_withDigit (hd : e.din = s.din) {a b : Nat → Result} (k : ∀ d, SameEnd e (a d) (b d)) :
    SameEnd e (s.withDigit a) ((s.inside e).withDigit b) := by
  have hread : (s.inside e).din = s.din := hd
  simp only [State.withDigit, hread]
  split
  · exact sameEnd_raise .malformedInput []
  · exact k _

theorem sameEnd_writeWide (rd : RegField) (l : List WideLimb) :
    SameEnd e ((s.writeWide rd l).finish 0) (((s.inside e).writeWide rd l).finish 0) :=
  sameEnd_finish (s := s.writeWide rd l) 0

theorem sameEnd_writeScaled (rd : RegField) (l : List Digit) (sg : Sign) :
    SameEnd e ((s.writeScaled rd l sg).finish 0) (((s.inside e).writeScaled rd l sg).finish 0) :=
  sameEnd_finish (s := s.writeScaled rd l sg) 0

theorem sameEnd_finishWide (rd : RegField) (o : Option (List WideLimb)) :
    SameEnd e (s.finishWide rd o) ((s.inside e).finishWide rd o) := by
  cases o with
  | some l => exact sameEnd_writeWide rd l
  | none => exact sameEnd_raise .capacityOverflow [.wide rd]

theorem sameEnd_finishScaled (rd : RegField) (o : Option (List Digit × Sign)) :
    SameEnd e (s.finishScaled rd o) ((s.inside e).finishScaled rd o) := by
  cases o with
  | some p => exact sameEnd_writeScaled rd p.1 p.2
  | none => exact sameEnd_raise .capacityOverflow [.scaled rd]

theorem sameEnd_extract (hd : e.din = s.din) (f : FloatFormat) (rd : RegField) :
    SameEnd e (s.extract f rd) ((s.inside e).extract f rd) := by
  have hread : (s.inside e).din = s.din := hd
  have hcap : (s.inside e).config = s.config := rfl
  simp only [State.extract, hread, hcap]
  split
  · exact sameEnd_raise .domainError [.scaled rd]
  · exact sameEnd_writeScaled rd _ _

end Forms

/-- The same command in other surroundings ends the same: only `RDFLAGS` reads the flags, only the commands that use
`din` read it, and every other thing a command reads is by definition the same in `s.inside e`. -/
theorem exec_inside (i : Instr) (s : State) (e : Surroundings) (hf : e.flags = s.flags ∨ i ≠ .rdflags)
    (hd : e.din = s.din ∨ dinUse i = .none) : SameEnd e (exec i s) (exec i (s.inside e)) := by
  obtain ⟨flags, host, din, response⟩ := e
  cases i with
  | rdcfg => exact sameEnd_finish _
  | rdflags =>
    obtain rfl : flags = s.flags := hf.resolve_right fun h => h rfl
    exact sameEnd_finish _
  | wzero rd => exact sameEnd_whenLegal _ (sameEnd_writeWide rd _)
  | wldl rd imm =>
    obtain rfl : din = s.din := hd.resolve_right nofun
    exact sameEnd_whenLegal _ (sameEnd_withWide rd fun a => sameEnd_writeWide rd _)
  | wstl ra imm => exact sameEnd_whenLegal _ (sameEnd_withWide ra fun a => sameEnd_finish _)
  | wlen ra => exact sameEnd_whenLegal _ (sameEnd_withWide ra fun a => sameEnd_finish _)
  | waddl rd =>
    obtain rfl : din = s.din := hd.resolve_right nofun
    exact sameEnd_whenLegal _ (sameEnd_withWide rd fun a => sameEnd_finishWide rd _)
  | wmull rd =>
    obtain rfl : din = s.din := hd.resolve_right nofun
    exact sameEnd_whenLegal _ (sameEnd_withWide rd fun a => sameEnd_finishWide rd _)
  | wadd rd ra rb =>
    exact sameEnd_whenLegal _ (sameEnd_withWide ra fun a => sameEnd_withWide rb fun b => sameEnd_finishWide rd _)
  | wmul rd ra rb =>
    exact sameEnd_whenLegal _ (sameEnd_withWide ra fun a => sameEnd_withWide rb fun b => sameEnd_finishWide rd _)
  | wdacc rd =>
    obtain rfl : din = s.din := hd.resolve_right nofun
    exact sameEnd_whenLegal _ (sameEnd_withWide rd fun a => sameEnd_withDigit rfl fun d => sameEnd_finishWide rd _)
  | wtodec ra =>
    exact sameEnd_whenLegal _ (sameEnd_withWide ra fun a => sameEnd_finish (s := { s with digits := toDecimal a }) 0)
  | dlen => exact sameEnd_finish _
  | dget imm =>
    refine sameEnd_whenLegal _ ?_
    have hread : (s.inside ⟨flags, host, din, response⟩).digits = s.digits := rfl
    rw [hread]
    split
    · exact sameEnd_finish _
    · exact sameEnd_raise .invalidOperand []
  | szero rd => exact sameEnd_whenLegal _ (sameEnd_writeScaled rd _ _)
  | sldl rd imm =>
    obtain rfl : din = s.din := hd.resolve_right nofun
    exact sameEnd_whenLegal _ (sameEnd_withScaled rd fun a => sameEnd_writeScaled rd _ _)
  | sstl ra imm => exact sameEnd_whenLegal _ (sameEnd_withScaled ra fun a => sameEnd_finish _)
  | sinfo ra => exact sameEnd_whenLegal _ (sameEnd_withScaled ra fun a => sameEnd_finish _)
  | smov rd ra => exact sameEnd_whenLegal _ (sameEnd_withScaled ra fun a => sameEnd_writeScaled rd _ _)
  | sneg rd ra => exact sameEnd_whenLegal _ (sameEnd_withScaled ra fun a => sameEnd_writeScaled rd _ _)
  | sabs rd ra => exact sameEnd_whenLegal _ (sameEnd_withScaled ra fun a => sameEnd_writeScaled rd _ _)
  | scmpm ra rb =>
    exact sameEnd_whenLegal _ (sameEnd_withScaled ra fun a => sameEnd_withScaled rb fun b => sameEnd_finish _)
  | scmp ra rb =>
    exact sameEnd_whenLegal _ (sameEnd_withScaled ra fun a => sameEnd_withScaled rb fun b => sameEnd_finish _)
  | sadd rd ra rb =>
    exact sameEnd_whenLegal _ (sameEnd_withScaled ra fun a => sameEnd_withScaled rb fun b => sameEnd_finishScaled rd _)
  | ssub rd ra rb =>
    exact sameEnd_whenLegal _ (sameEnd_withScaled ra fun a => sameEnd_withScaled rb fun b => sameEnd_finishScaled rd _)
  | smul rd ra rb =>
    exact sameEnd_whenLegal _ (sameEnd_withScaled ra fun a => sameEnd_withScaled rb fun b => sameEnd_finishScaled rd _)
  | smuls rd ra rb =>
    exact sameEnd_whenLegal _ (sameEnd_withScaled ra fun a => sameEnd_withScaled rb fun b => sameEnd_finishScaled rd _)
  | sshld rd imm => exact sameEnd_whenLegal _ (sameEnd_withScaled rd fun a => sameEnd_finishScaled rd _)
  | sshrd rd imm => exact sameEnd_whenLegal _ (sameEnd_withScaled rd fun a => sameEnd_writeScaled rd _ _)
  | smuld rd ra =>
    obtain rfl : din = s.din := hd.resolve_right nofun
    exact sameEnd_whenLegal _ (sameEnd_withScaled ra fun a => sameEnd_finishScaled rd _)
  | saddd rd ra =>
    obtain rfl : din = s.din := hd.resolve_right nofun
    exact sameEnd_whenLegal _ (sameEnd_withScaled ra fun a => sameEnd_whenPositive a (sameEnd_finishScaled rd _))
  | sdivp rd ra imm => exact sameEnd_whenLegal _ (sameEnd_withScaled ra fun a => sameEnd_writeScaled rd _ _)
  | sdivpr rd ra rb imm =>
    refine sameEnd_whenLegal _ (sameEnd_withScaled ra fun a => ?_)
    exact sameEnd_finish (s := (s.writeScaled rb _ a.sign).writeScaled rd _ a.sign) 0
  | smodp rd ra imm => exact sameEnd_whenLegal _ (sameEnd_withScaled ra fun a => sameEnd_writeScaled rd _ _)
  | smulp rd ra imm => exact sameEnd_whenLegal _ (sameEnd_withScaled ra fun a => sameEnd_finishScaled rd _)
  | sdacc rd =>
    obtain rfl : din = s.din := hd.resolve_right nofun
    refine sameEnd_whenLegal _ (sameEnd_withScaled rd fun a => sameEnd_whenPositive a ?_)
    exact sameEnd_withDigit rfl fun d => sameEnd_finishScaled rd _
  | sfromd rd =>
    obtain rfl : din = s.din := hd.resolve_right nofun
    exact sameEnd_whenLegal _ (sameEnd_extract rfl binary64 rd)
  | sfromf rd =>
    obtain rfl : din = s.din := hd.resolve_right nofun
    exact sameEnd_whenLegal _ (sameEnd_extract rfl binary32 rd)
  | stod ra => exact sameEnd_whenLegal _ (sameEnd_withScaled ra fun a => sameEnd_finish _)
  | stof ra => exact sameEnd_whenLegal _ (sameEnd_withScaled ra fun a => sameEnd_finish _)

/-- Settles O21: both parts are `exec_inside`. -/
theorem resultsDependOnOperandsOnly : Obligations.ResultsDependOnOperandsOnly := by
  refine ⟨fun i s t flags host response hi h => ?_, fun i s t din hi h => ?_⟩
  · obtain ⟨u, r, hu, hr, h'⟩ := exec_inside i s ⟨flags, host, s.din, response⟩ (.inr hi) (.inl rfl)
    obtain rfl : u = t := by simpa [h] using hu.symm
    exact ⟨_, h', hr.symm, rfl, rfl, rfl⟩
  · obtain ⟨u, r, hu, hr, h'⟩ := exec_inside i s ⟨s.flags, s.host, din, s.response⟩ (.inl rfl) (.inr hi)
    obtain rfl : u = t := by simpa [h] using hu.symm
    obtain ⟨r', hr', -, hflags, hhost, -⟩ := exec_closes h
    obtain rfl : r' = r := by simpa [hr] using hr'.symm
    refine h'.trans (congrArg Host.Outcome.next ?_)
    rw [State.inside, Surroundings.after, ← hflags, ← hhost, ← hr]

end Sys2Proof.Machine
end

section
/-! PROOFS. The reading commands change no state and answer the same when repeated (spec/20_memory.md rule R37): they
have nothing to write (`exec_ends`), and what they answer does not depend on the last response (`exec_inside`). -/

namespace Sys2Proof.Machine

/-- A reading command has no destination register and does not fill the digit buffer (R37). -/
theorem writes_nothing_of_isReadOnly {i : Instr} (h : isReadOnly i = true) :
    destsOf i = [] ∧ ∀ ra, i ≠ .wtodec ra := by
  match i, h with
  | .rdcfg, _ | .rdflags, _ | .wstl _ _, _ | .wlen _, _ | .dlen, _ | .dget _, _ | .sstl _ _, _ | .sinfo _, _
  | .scmpm _ _, _ | .scmp _ _, _ | .stod _, _ | .stof _, _ => exact ⟨rfl, nofun⟩

theorem Written.eq_of_isReadOnly {i : Instr} {s t : State} (h : Written i s t) (hi : isReadOnly i = true) : t = s := by
  obtain ⟨hdests, hwtodec⟩ := writes_nothing_of_isReadOnly hi
  cases h with
  | nothing => rfl
  | wide _ _ hd | scaled _ _ _ hd | both _ _ _ _ _ _ hd => cases hdests.symm.trans hd
  | digits ra _ hra => exact absurd hra (hwtodec ra)

/-- A reading command that ends `OK` leaves the state with its response, and nothing else, changed. -/
theorem eq_respond_of_isReadOnly {i : Instr} {s t : State} {d : DataWord} (h : Ends i s (.next t))
    (hi : isReadOnly i = true) (hok : t.response = some ⟨.ok, d⟩) : t = s.respond .ok d := by
  cases h with
  | illegal | unusable | malformed | outOfDomain | overflow => cases hok
  | done u _ _ _ _ hw =>
    cases hok
    rw [hw.eq_of_isReadOnly hi]

/-- A command does not read the last response: from a state that differs in it only, it answers the same state. -/
theorem exec_respond {i : Instr} {s t : State} (status : Status) (d : DataWord) (h : exec i s = .next t) :
    exec i (s.respond status d) = .next t := by
  obtain ⟨u, r, hu, hr, hrepeat⟩ := exec_inside i s ⟨s.flags, s.host, s.din, some ⟨status, d⟩⟩ (.inl rfl) (.inl rfl)
  obtain rfl : u = t := by simpa [h] using hu.symm
  obtain ⟨r', hr', -, hflags, hhost, hdin⟩ := exec_closes h
  obtain rfl : r' = r := by simpa [hr] using hr'.symm
  refine hrepeat.trans (congrArg Host.Outcome.next ?_)
  rw [State.inside, Surroundings.after, ← hflags, ← hhost, ← hdin, ← hr]

/-- Settles O18: a reading command only responds (`eq_respond_of_isReadOnly`), and a response is not read
(`exec_respond`). -/
theorem readsChangeNothing : Obligations.ReadsChangeNothing := by
  intro i s t d hi h hok
  have ht : t = s.respond .ok d := eq_respond_of_isReadOnly (h ▸ exec_ends i s) hi hok
  exact ⟨ht, (congrArg (exec i) ht).trans (exec_respond .ok d h)⟩

end Sys2Proof.Machine
end

section
/-! PROOFS. The decoder inverts the encoder and chooses by masks (spec/30_encoding.md rules R42 to R45 and R49):
everything `decode` can answer is said once (`Decoded`). -/

namespace Sys2Proof

/-- The opcode field of a command's word (R42, R44). -/
theorem opOf_encode (i : Instr) : opOf (encode i) = i.opcode := by
  cases i <;> exact opOf_pack ..

/-- Settles O1: the word's opcode selects the arm of the command's format, and there each used field reads back and each
unused one is zero. -/
theorem decodeOfEncode : Obligations.DecodeOfEncode := by
  intro i
  rw [decode, opOf_encode]
  cases i with
  | rdcfg | rdflags | dlen => exact decodeN_ok.mpr (by simp [encode])
  | wzero rd | waddl rd | wmull rd | wdacc rd | szero rd | sdacc rd | sfromd rd | sfromf rd =>
    exact decodeD_ok.mpr (by simp [encode])
  | wlen ra | wtodec ra | sinfo ra | stod ra | stof ra => exact decodeA_ok.mpr (by simp [encode])
  | dget imm => exact decodeI_ok.mpr (by simp [encode])
  | wldl rd imm | sldl rd imm | sshld rd imm | sshrd rd imm => exact decodeDI_ok.mpr (by simp [encode])
  | wstl ra imm | sstl ra imm => exact decodeAI_ok.mpr (by simp [encode])
  | smov rd ra | sneg rd ra | sabs rd ra | smuld rd ra | saddd rd ra => exact decodeDA_ok.mpr (by simp [encode])
  | scmpm ra rb | scmp ra rb => exact decodeAB_ok.mpr (by simp [encode])
  | wadd rd ra rb | wmul rd ra rb | sadd rd ra rb | ssub rd ra rb | smul rd ra rb | smuls rd ra rb =>
    exact decodeDAB_ok.mpr (by simp [encode])
  | sdivp rd ra imm | smodp rd ra imm | smulp rd ra imm => exact decodeDAI_ok.mpr (by simp [encode])
  | sdivpr rd ra rb imm => exact decodeDABI_ok.mpr (by simp [encode])

/-- The word with the given opcode, the fields the format uses taken from `cmd` and the others zero. -/
def Format.word (f : Format) (op : BitVec 8) (cmd : CommandWord) : CommandWord :=
  match f with
  | .n => pack op 0 0 0 0
  | .d => pack op (rdOf cmd) 0 0 0
  | .a => pack op 0 (raOf cmd) 0 0
  | .i => pack op 0 0 0 (immOf cmd)
  | .di => pack op (rdOf cmd) 0 0 (immOf cmd)
  | .ai => pack op 0 (raOf cmd) 0 (immOf cmd)
  | .da => pack op (rdOf cmd) (raOf cmd) 0 0
  | .ab => pack op 0 (raOf cmd) (rbOf cmd) 0
  | .dab => pack op (rdOf cmd) (raOf cmd) (rbOf cmd) 0
  | .dai => pack op (rdOf cmd) (raOf cmd) 0 (immOf cmd)
  | .dabi => pack op (rdOf cmd) (raOf cmd) (rbOf cmd) (immOf cmd)

/-- Dropping unused fields that are zero loses no bit of the word (R45). -/
theorem Format.word_eq {f : Format} {cmd : CommandWord} (h : f.unusedZero cmd) : f.word (opOf cmd) cmd = cmd := by
  refine Eq.trans ?_ (pack_fields cmd)
  cases f <;> simp_all [Format.word, Format.unusedZero]

/-- An opcode has one row (R44). -/
theorem row_eq_of_op {row row' : OpcodeRow} (h : row ∈ opcodeMap) (h' : row' ∈ opcodeMap) (hop : row.op = row'.op) :
    row = row' :=
  have hnodup : (opcodeMap.map OpcodeRow.op).Nodup := by decide
  List.inj_on_of_nodup_map hnodup h h' hop

/-- Everything the decoder can answer: the command whose word it is, where a row of the map has the word's opcode and a
format whose unused fields are zero, and an error where no row does (R43, R45, R49). -/
inductive Decoded (cmd : CommandWord) : Except DecodeError Instr → Prop where
  | command (i : Instr) (row : OpcodeRow) (hrow : row ∈ opcodeMap) (hop : opOf cmd = row.op)
      (hz : row.format.unusedZero cmd) (hi : encode i = cmd) : Decoded cmd (.ok i)
  | rejected (e : DecodeError) (h : ∀ row ∈ opcodeMap, opOf cmd = row.op → ¬row.format.unusedZero cmd) :
      Decoded cmd (.error e)

/-- One arm of the decoder: `i` where the unused fields of the row's format are zero, an error elsewhere. -/
theorem decoded_arm {cmd : CommandWord} {op : BitVec 8} {i : Instr} {r : Except DecodeError Instr} (f : Format)
    (hop : opOf cmd = op) (hrow : ∃ row ∈ opcodeMap, row.op = op ∧ row.format = f)
    (hok : ∀ j, r = .ok j ↔ f.unusedZero cmd ∧ j = i) (hi : encode i = f.word op cmd) : Decoded cmd r := by
  obtain ⟨row, hrow, rfl, rfl⟩ := hrow
  cases r with
  | ok j =>
    obtain ⟨hz, rfl⟩ := (hok j).mp rfl
    rw [← hop, Format.word_eq hz] at hi
    exact .command j row hrow hop hz hi
  | error e =>
    refine .rejected e fun row' hrow' hop' hz => ?_
    rw [row_eq_of_op hrow' hrow (hop'.symm.trans hop)] at hz
    exact absurd ((hok i).mpr ⟨hz, rfl⟩) nofun

/-- Arm by arm, the arms of one format together; they are numbered in the order of `decode`. -/
theorem decode_decoded (cmd : CommandWord) : Decoded cmd (decode cmd) := by
  rw [decode]
  split
  case h_1 hop | h_2 hop | h_13 hop => exact decoded_arm .n hop (by decide) (fun _ => decodeN_ok) rfl
  case h_3 hop | h_7 hop | h_8 hop | h_11 hop | h_15 hop | h_36 hop | h_37 hop | h_38 hop =>
    exact decoded_arm .d hop (by decide) (fun _ => decodeD_ok) rfl
  case h_6 hop | h_12 hop | h_18 hop | h_39 hop | h_40 hop =>
    exact decoded_arm .a hop (by decide) (fun _ => decodeA_ok) rfl
  case h_14 hop => exact decoded_arm .i hop (by decide) (fun _ => decodeI_ok) rfl
  case h_4 hop | h_16 hop | h_28 hop | h_29 hop =>
    exact decoded_arm .di hop (by decide) (fun _ => decodeDI_ok) rfl
  case h_5 hop | h_17 hop => exact decoded_arm .ai hop (by decide) (fun _ => decodeAI_ok) rfl
  case h_19 hop | h_20 hop | h_21 hop | h_30 hop | h_31 hop =>
    exact decoded_arm .da hop (by decide) (fun _ => decodeDA_ok) rfl
  case h_22 hop | h_23 hop => exact decoded_arm .ab hop (by decide) (fun _ => decodeAB_ok) rfl
  case h_9 hop | h_10 hop | h_24 hop | h_25 hop | h_26 hop | h_27 hop =>
    exact decoded_arm .dab hop (by decide) (fun _ => decodeDAB_ok) rfl
  case h_32 hop | h_34 hop | h_35 hop => exact decoded_arm .dai hop (by decide) (fun _ => decodeDAI_ok) rfl
  case h_33 hop =>
    exact decoded_arm .dabi hop (by decide) (fun _ => by simpa [Format.unusedZero] using decodeDABI_ok) rfl
  case h_41 =>
    refine .rejected _ fun row hrow hop _ => ?_
    have hmem : opOf cmd ∈ opcodeMap.map OpcodeRow.op := hop ▸ List.mem_map_of_mem hrow
    simp_all [opcodeMap, opcodeMapWide, opcodeMapScaled]

/-- A word that decodes to a command is that command's word, and is in the form of a row (R43). -/
theorem decoded_of_ok {cmd : CommandWord} {i : Instr} (h : decode cmd = .ok i) : Decoded cmd (.ok i) :=
  h ▸ decode_decoded cmd

/-- Settles O2: a word that decodes to a command is that command's word (`Decoded.command`). -/
theorem encodeOfDecode : Obligations.EncodeOfDecode := by
  intro cmd i h
  cases decoded_of_ok h with
  | command _ _ _ _ _ hi => exact hi

/-- Settles O3: a masked word is a row's pattern where the opcode is the row's and the unused fields are zero
(`and_mask_eq_iff`), which is when the decoder answers a command (`Decoded`); and an opcode has one row. -/
theorem decodeSelectsByMask : Obligations.DecodeSelectsByMask := by
  intro cmd
  simp only [and_mask_eq_iff]
  refine ⟨fun i h => ?_, fun row hrow ⟨hop, hz⟩ => ?_, fun row hrow row' hrow' ⟨hop, _⟩ ⟨hop', _⟩ => ?_⟩
  · cases decoded_of_ok h with
    | command _ row hrow hop hz hi => exact ⟨row, hrow, by rw [← hop, ← hi, opOf_encode], hop, hz⟩
  · have hd := decode_decoded cmd
    generalize decode cmd = r at hd
    cases hd with
    | command i _ _ _ _ hi => exact ⟨i, rfl, by rw [← opOf_encode, hi, hop]⟩
    | rejected e h => exact absurd hz (h row hrow hop)
  · exact row_eq_of_op hrow hrow' (hop.symm.trans hop')

end Sys2Proof
end

section
/-! PROOFS. The step in which the host issues a word (spec/30_encoding.md rules R41, R45 and R49): it runs the
command the word decodes to, and a word that no row of the map selects changes nothing but `FLAGS.IL`. -/

namespace Sys2Proof.Machine

/-- A step in which the host issues a word runs the word (R41). -/
theorem step_issuing (s : State) (cmd : CommandWord) (din : DataWord) (rest : List HostAction) :
    step (s.issuing cmd din rest) = runWord cmd (s.executing din rest) := rfl

theorem runWord_of_decode {cmd : CommandWord} {i : Instr} (h : decode cmd = .ok i) (s : State) :
    runWord cmd s = exec i s := by
  rw [runWord, h]

/-- Settles O8: by the definition of a step and of the run of a word. -/
theorem stepRunsTheDecodedCommand : Obligations.StepRunsTheDecodedCommand :=
  fun s cmd din rest _ h => (step_issuing s cmd din rest).trans (runWord_of_decode h _)

/-- A word that matches no row of the map sets `FLAGS.IL`, answers `ILLEGAL_COMMAND`, and changes nothing else (R43,
R136). -/
theorem step_of_no_row {cmd : CommandWord}
    (h : ∀ row ∈ opcodeMap, cmd &&& row.format.mask ≠ pack row.op 0 0 0 0)
    (s : State) (din : DataWord) (rest : List HostAction) :
    step (s.issuing cmd din rest) = .next ((s.executing din rest).refusedWith .illegalCommand) := by
  obtain ⟨hselects, -, -⟩ := decodeSelectsByMask cmd
  rw [step_issuing, runWord]
  cases hd : decode cmd with
  | ok i =>
    obtain ⟨row, hrow, -, hmask⟩ := hselects i hd
    exact absurd hmask (h row hrow)
  | error e => exact congrArg Host.Outcome.next (faulted_eq_refusedWith rfl [])

/-- Settles O5: the reserved opcodes by a look at each of the 256, and a word with one of them matches no row. -/
theorem reservedOpcodeIsIllegal : Obligations.ReservedOpcodeIsIllegal := by
  refine ⟨by decide, fun s cmd din rest h => step_of_no_row (fun row hrow hmask => ?_) s din rest⟩
  exact h row hrow ((and_mask_eq_iff _ _ _).mp hmask).1.symm

/-- A row's pattern has no bit outside the opcode field. -/
theorem pattern_and_fields (op : BitVec 8) : pack op 0 0 0 0 &&& 0x00FFFFFF#32 = 0 := by
  rw [show 0x00FFFFFF#32 = pack 0#8 0xF 0xF 0xF 0xFFF from rfl, pack_and, BitVec.and_zero]
  rfl

/-- Settles O6: a row that matched the word would be the row of its opcode, whose mask leaves the set bit in place. -/
theorem unusedFieldNonzeroIsIllegal : Obligations.UnusedFieldNonzeroIsIllegal := by
  intro s cmd din rest row hrow hop hne
  have hno : ∀ row' ∈ opcodeMap, cmd &&& row'.format.mask ≠ pack row'.op 0 0 0 0 := by
    intro row' hrow' hmask
    obtain ⟨hop', -⟩ := (and_mask_eq_iff _ _ _).mp hmask
    obtain rfl := row_eq_of_op hrow hrow' (hop.symm.trans hop')
    exact hne (by rw [hmask, pattern_and_fields])
  exact ⟨hno, step_of_no_row hno s din rest⟩

end Sys2Proof.Machine
end

section
/-! PROOFS. Reading a digit string (spec/41_wide_decimal.md rule R66, spec/46_scaled_decimal.md rule R112): `Reads`
says what the register and the flags hold of the number spelled so far, and one accumulating command takes it to the
number with the digit appended. -/

namespace Sys2Proof.Machine

/-! ### The commands of a sequence -/

/-- A step in which the host sends a command runs it (R41, R52). -/
theorem step_send {s : State} {i : Instr} {din : DataWord} {rest : List HostAction} (h : s.host = send i din :: rest) :
    step s = exec i (s.executing din rest) := by
  have hs : s = s.issuing (encode i) din rest := by rw [State.issuing, ← send, ← h]
  exact (congrArg step hs).trans (stepRunsTheDecodedCommand s _ din rest i (decodeOfEncode i))

/-- A command sent once per digit takes a property of the number read so far to one of the whole number, if it does so
for one digit. -/
theorem runFor_digits {i : Instr} {P : Nat → State → Prop}
    (hi : ∀ n d s rest, d < 10 → P n s → ∃ t, exec i (s.executing (digitDin d) rest) = .next t ∧ P (10 * n + d) t)
    {rest : List HostAction} {digits : List Nat} (hdigits : ∀ d ∈ digits, d < 10) {n : Nat} {s : State} (hP : P n s)
    (hh : s.host = (digits.map digitDin).map (send i) ++ rest) :
    ∃ t, runFor digits.length s = .next t ∧ t.host = rest ∧ P (digits.foldl (fun n d => 10 * n + d) n) t := by
  induction digits generalizing n s with
  | nil => exact ⟨s, rfl, hh, hP⟩
  | cons d ds ih =>
    obtain ⟨hd, hds⟩ := List.forall_mem_cons.mp hdigits
    obtain ⟨t, ht, hPt⟩ := hi n d s _ hd hP
    obtain ⟨-, -, -, -, hhost, -⟩ := exec_closes ht
    obtain ⟨u, hu, hrest, hPu⟩ := ih hds hPt hhost
    exact ⟨u, (runFor_of_step ((step_send hh).trans ht) _).trans hu, hrest, hPu⟩

/-- A register set to zero and a command sent once per digit read the number the digits spell (R66, R112). -/
theorem runFor_spelled {start i : Instr} {s : State} {P : Nat → State → Prop} {digits : List Nat}
    {rest : List HostAction} (hstart : ∀ rest, ∃ t, exec start (s.executing 0 rest) = .next t ∧ P 0 t)
    (hi : ∀ n d s rest, d < 10 → P n s → ∃ t, exec i (s.executing (digitDin d) rest) = .next t ∧ P (10 * n + d) t)
    (hdigits : ∀ d ∈ digits, d < 10) (hh : s.host = send start 0 :: (digits.map digitDin).map (send i) ++ rest) :
    ∃ t, runFor (digits.length + 1) s = .next t ∧ t.host = rest ∧ P (spelled digits) t := by
  obtain ⟨t, ht, hPt⟩ := hstart _
  obtain ⟨-, -, -, -, hhost, -⟩ := exec_closes ht
  obtain ⟨u, hu, hrest, hPu⟩ := runFor_digits hi hdigits hPt hhost
  exact ⟨u, (runFor_of_step ((step_send hh).trans ht) _).trans hu, hrest, hPu⟩

/-- What is read of a number `n`: below the limit its record is in the register `reg` and the flags are those of
`before`; else the register is invalid and `FLAGS.CO` is set (R66, R112). -/
structure Reads {α : Type} (limit n : Nat) (record : α) (reg : Option α) (before after : BitVec 5) : Prop where
  fits : n < limit → reg = some record ∧ after = before
  overflows : limit ≤ n → reg = none ∧ after.getLsbD 0 = true

section Reads
variable {α : Type} {limit n : Nat} {record : α} {reg : Option α} {before after : BitVec 5}

theorem Reads.of_fits (h : n < limit) : Reads limit n record (some record) before before :=
  ⟨fun _ => ⟨rfl, rfl⟩, fun hge => absurd h (Nat.not_lt.mpr hge)⟩

theorem Reads.of_overflows (h : limit ≤ n) (hco : after.getLsbD 0 = true) :
    Reads limit n record none before after :=
  ⟨fun hlt => absurd hlt (Nat.not_lt.mpr h), fun _ => ⟨rfl, hco⟩⟩

end Reads

/-- An overflow sets `FLAGS.CO`. -/
theorem getLsbD_setSticky_overflow (flags : BitVec 5) : (setSticky flags .capacityOverflow).getLsbD 0 = true := by
  rw [setSticky, BitVec.getLsbD_or]
  simp [FaultClass.flag, FaultClass.code]

theorem digitDin_toNat {d : Nat} (h : d < 10) : (digitDin d).toNat = 0x30 + d := by
  rw [digitDin, BitVec.toNat_ofNat]
  omega

/-- The check of step 3 of R53 passes a digit on. -/
theorem withDigit_digitDin {s : State} {d : Nat} (hd : d < 10) (hdin : s.din = digitDin d) (next : Nat → Result) :
    s.withDigit next = next d := by
  have hval : s.din.toNat = 0x30 + d := by rw [hdin, digitDin_toNat hd]
  rw [withDigit_digit (by omega), hval, Nat.add_sub_cancel_left]

/-- A field below 8 passes the check of R46. -/
theorem regOk_of_lt {r : RegField} (h : r.toNat < 8) : regOk r = true := decide_eq_true h

/-! ### WideUnsigned -/

/-- A WideUnsigned register while a string is read into it: `n` is the number spelled so far. -/
def WideReads (rd : RegField) (flags : BitVec 5) (n : Nat) (s : State) : Prop :=
  Reads (2 ^ 512) n (wideOfNat n) (s.wideReg rd) flags s.flags

section Wide
variable {s : State} {rd : RegField} (hr : rd.toNat < 8)
include hr

theorem wideReg_wroteWide (n : Nat) : (s.wroteWide rd n).wideReg rd = some (wideOfNat n) :=
  (wideReg_writeWide ..).trans (if_pos ⟨rfl, hr⟩)

theorem wideReads_wroteWide {n : Nat} (hn : n < 2 ^ 512) : WideReads rd s.flags n (s.wroteWide rd n) := by
  rw [WideReads, wideReg_wroteWide hr]
  exact .of_fits hn

theorem exec_wzero : exec (.wzero rd) s = .next (s.wroteWide rd 0) := by
  show s.whenLegal (regOk rd) _ = _
  rw [regOk_of_lt hr]
  rfl

/-- `WDACC` with a digit, by value (R65). -/
theorem exec_wdacc_digit {a : List WideLimb} {d : Nat} (ha : s.wideReg rd = some a) (hl : a.length ≤ 8) (hd : d < 10)
    (hdin : s.din = digitDin d) : exec (.wdacc rd) s =
      if 10 * wval a + d < 2 ^ 512 then .next (s.wroteWide rd (10 * wval a + d))
      else .next (s.faulted .capacityOverflow [.wide rd]) := by
  show s.whenLegal (regOk rd) _ = _
  rw [regOk_of_lt hr, whenLegal_true, withWide_some ha, withDigit_digitDin hd hdin]
  exact finishWide_value (wideDigitStep_spec a d hl hd)

theorem exec_wdacc_invalid (ha : s.wideReg rd = none) :
    exec (.wdacc rd) s = .next (s.faulted .invalidOperand []) := by
  show s.whenLegal (regOk rd) _ = _
  rw [regOk_of_lt hr, whenLegal_true, withWide_none ha]

/-- `WDACC` appends a digit to what is read (R65, R66). A register that is invalid stays so, for the number only
grows. -/
theorem wdacc_wideReads {n d : Nat} {flags : BitVec 5} (hd : d < 10) (hdin : s.din = digitDin d)
    (h : WideReads rd flags n s) : ∃ t, exec (.wdacc rd) s = .next t ∧ WideReads rd flags (10 * n + d) t := by
  rcases lt_or_ge n (2 ^ 512) with hn | hn
  · obtain ⟨hreg, rfl⟩ := h.fits hn
    obtain ⟨hval, -, hlen, -⟩ := wideOfNat_spec hn
    have hexec := exec_wdacc_digit hr hreg hlen hd hdin
    rw [hval] at hexec
    split at hexec
    · next hlt => exact ⟨_, hexec, wideReads_wroteWide hr hlt⟩
    · next hge =>
      refine ⟨_, hexec, ?_⟩
      rw [WideReads, faulted_wideReg, if_pos ⟨rfl, List.mem_singleton_self _⟩]
      exact .of_overflows (Nat.not_lt.mp hge) (getLsbD_setSticky_overflow _)
  · obtain ⟨hreg, hco⟩ := h.overflows hn
    refine ⟨_, exec_wdacc_invalid hr hreg, ?_⟩
    rw [WideReads, faulted_wideReg, if_neg (by simp), hreg]
    exact .of_overflows (hn.trans (by omega : n ≤ 10 * n + d)) (getLsbD_setSticky _ hco)

end Wide

/-- Settles O56: `WZERO` makes the register the number of the empty string, and each `WDACC` appends a digit. -/
theorem wfromdecReadsTheNumber : Obligations.WfromdecReadsTheNumber := by
  intro rd s digits rest hr hdigits hh
  obtain ⟨t, ht, hrest, hreads⟩ := runFor_spelled (P := WideReads rd s.flags)
    (fun _ => ⟨_, exec_wzero hr, wideReads_wroteWide hr (by positivity)⟩)
    (fun _ _ _ _ hd h => wdacc_wideReads hr hd rfl h) hdigits hh
  exact ⟨t, ht, hrest, hreads.fits, hreads.overflows⟩

/-! ### ScaledInt -/

/-- A ScaledInt register of a core with parameter `c` while a string is read into it, and after the sign is set. -/
def ScaledReads (rd : RegField) (c : Config) (flags : BitVec 5) (sign : Sign) (n : Nat) (s : State) : Prop :=
  s.config = c ∧ Reads (2 ^ (32 * c.sCap)) n (scaledOfNat c n sign) (s.scaledReg rd) flags s.flags

section Scaled
variable {s : State} {rd : RegField} (hr : rd.toNat < 8)
include hr

theorem scaledReads_wroteScaled {n : Nat} (hn : n < 2 ^ (32 * s.config.sCap)) (sign : Sign) :
    ScaledReads rd s.config s.flags sign n (s.wroteScaled rd n sign) := by
  have hread : (s.wroteScaled rd n sign).scaledReg rd = some (scaledOfNat s.config n sign) :=
    (scaledReg_writeScaled ..).trans (if_pos ⟨rfl, hr⟩)
  rw [ScaledReads, hread]
  exact ⟨rfl, .of_fits hn⟩

theorem exec_szero : exec (.szero rd) s = .next (s.wroteScaled rd 0 .positive) := by
  show s.whenLegal (regOk rd) _ = _
  rw [regOk_of_lt hr]
  rfl

/-- `SDACC` with a digit into a `Positive` register, by value (R111). -/
theorem exec_sdacc_digit {a : ScaledValue} {d : Nat} (ha : s.scaledReg rd = some a) (hpos : a.sign = .positive)
    (hl : a.limbs.length ≤ s.config.sCap) (hd : d < 10) (hdin : s.din = digitDin d) : exec (.sdacc rd) s =
      if 10 * a.mag + d < 2 ^ (32 * s.config.sCap) then .next (s.wroteScaled rd (10 * a.mag + d) .positive)
      else .next (s.faulted .capacityOverflow [.scaled rd]) := by
  show s.whenLegal (regOk rd) _ = _
  rw [regOk_of_lt hr, whenLegal_true, withScaled_some ha, whenPositive_positive hpos,
    withDigit_digitDin hd hdin]
  exact finishScaled_full (scaledDigitStep_spec hl hd)

theorem exec_sdacc_invalid (ha : s.scaledReg rd = none) :
    exec (.sdacc rd) s = .next (s.faulted .invalidOperand []) := by
  show s.whenLegal (regOk rd) _ = _
  rw [regOk_of_lt hr, whenLegal_true, withScaled_none ha]

/-- `SNEG` in place, by value (R80). -/
theorem exec_sneg_same {a : ScaledValue} (ha : s.scaledReg rd = some a) (hlt : a.mag < 2 ^ (32 * s.config.sCap)) :
    exec (.sneg rd rd) s = .next (s.wroteScaled rd a.mag a.sign.flip) := by
  show s.whenLegal (regOk rd && regOk rd) _ = _
  rw [regOk_of_lt hr, Bool.and_self, whenLegal_true, withScaled_some ha]
  exact writeScaled_finish rfl hlt

theorem exec_sneg_invalid (ha : s.scaledReg rd = none) :
    exec (.sneg rd rd) s = .next (s.faulted .invalidOperand []) := by
  show s.whenLegal (regOk rd && regOk rd) _ = _
  rw [regOk_of_lt hr, Bool.and_self, whenLegal_true, withScaled_none ha]

omit hr in
/-- A command refused because the number has overflowed before leaves it so (R138). -/
theorem scaledReads_refused {c : Config} {flags : BitVec 5} {sign sign' : Sign} {n m : Nat}
    (h : ScaledReads rd c flags sign n s) (hn : 2 ^ (32 * c.sCap) ≤ n) (hm : n ≤ m) :
    ScaledReads rd c flags sign' m (s.faulted .invalidOperand []) := by
  obtain ⟨hreg, hco⟩ := h.2.overflows hn
  refine ⟨(faulted_config ..).trans h.1, ?_⟩
  rw [faulted_scaledReg, if_neg (by simp), hreg]
  exact .of_overflows (hn.trans hm) (getLsbD_setSticky _ hco)

/-- `SDACC` appends a digit to what is read (R111, R112). -/
theorem sdacc_scaledReads {c : Config} {n d : Nat} {flags : BitVec 5} (hd : d < 10) (hdin : s.din = digitDin d)
    (h : ScaledReads rd c flags .positive n s) :
    ∃ t, exec (.sdacc rd) s = .next t ∧ ScaledReads rd c flags .positive (10 * n + d) t := by
  rcases lt_or_ge n (2 ^ (32 * c.sCap)) with hn | hn
  · obtain ⟨rfl, hreads⟩ := h
    obtain ⟨hreg, rfl⟩ := hreads.fits hn
    obtain ⟨hval, hsign, hlen, -⟩ := scaledOfNat_spec hn .positive
    have hexec := exec_sdacc_digit hr hreg (hsign.trans (ite_self _)) hlen hd hdin
    rw [hval] at hexec
    split at hexec
    · next hlt => exact ⟨_, hexec, scaledReads_wroteScaled hr hlt .positive⟩
    · next hge =>
      refine ⟨_, hexec, faulted_config .., ?_⟩
      rw [faulted_scaledReg, if_pos ⟨rfl, List.mem_singleton_self _⟩]
      exact .of_overflows (Nat.not_lt.mp hge) (getLsbD_setSticky_overflow _)
  · exact ⟨_, exec_sdacc_invalid hr (h.2.overflows hn).1, scaledReads_refused h hn (by omega)⟩

/-- `SNEG` after the digits makes the number negative, unless it is zero (R80, R112). -/
theorem sneg_scaledReads {c : Config} {n : Nat} {flags : BitVec 5} (h : ScaledReads rd c flags .positive n s) :
    ∃ t, exec (.sneg rd rd) s = .next t ∧ ScaledReads rd c flags .negative n t := by
  rcases lt_or_ge n (2 ^ (32 * c.sCap)) with hn | hn
  · obtain ⟨rfl, hreads⟩ := h
    obtain ⟨hreg, rfl⟩ := hreads.fits hn
    obtain ⟨hval, hsign, -⟩ := scaledOfNat_spec hn .positive
    have hexec := exec_sneg_same hr hreg (hval.symm ▸ hn)
    rw [hval, hsign, ite_self] at hexec
    exact ⟨_, hexec, scaledReads_wroteScaled hr hn .negative⟩
  · exact ⟨_, exec_sneg_invalid hr (h.2.overflows hn).1, scaledReads_refused h hn le_rfl⟩

end Scaled

/-- Settles O57: `SZERO` makes the register the number of the empty string, each `SDACC` appends a digit, and `SNEG`
sets the sign last. -/
theorem sfromdecReadsTheNumber : Obligations.SfromdecReadsTheNumber := by
  intro rd s minus digits rest hr hdigits hh
  rw [sfromdec, List.append_assoc] at hh
  obtain ⟨t, ht, hrest, hreads⟩ := runFor_spelled (P := ScaledReads rd s.config s.flags .positive)
    (fun _ => ⟨_, exec_szero hr, scaledReads_wroteScaled hr (by positivity) .positive⟩)
    (fun _ _ _ _ hd h => sdacc_scaledReads hr hd rfl h) hdigits hh
  cases minus with
  | false => exact ⟨t, ht, hrest, hreads.2.fits, hreads.2.overflows⟩
  | true =>
    obtain ⟨u, hu, hneg⟩ := sneg_scaledReads (s := t.executing 0 rest) hr hreads
    obtain ⟨-, -, -, -, hhost, -⟩ := exec_closes hu
    have hstep : step t = .next u := (step_send hrest).trans hu
    exact ⟨u, (runFor_add ht 1).trans (runFor_of_step hstep 0), hhost, hneg.2.fits, hneg.2.overflows⟩

end Sys2Proof.Machine
end

section
/-! PROOFS. What every command leaves unchanged (spec/20_memory.md rule R38, spec/60_exceptions.md rule R137), read off
everything a command can do (`exec_ends`). -/

namespace Sys2Proof.Machine

/-- The state `t` differs from `s` in no register but the command's destinations, not in the digit buffer unless the
command is `WTODEC`, and not in the parameter or on the host's side. -/
def Framed (i : Instr) (s t : State) : Prop :=
  (∀ r, Dest.wide r ∉ destsOf i → t.wideReg r = s.wideReg r) ∧
  (∀ r, Dest.scaled r ∉ destsOf i → t.scaledReg r = s.scaledReg r) ∧
  ((∀ ra, i ≠ .wtodec ra) → t.digits = s.digits) ∧ t.config = s.config ∧ t.host = s.host ∧ t.din = s.din

/-- A fault invalidates nothing but destinations (R137). -/
theorem framed_faulted {i : Instr} {dests : List Dest} (s : State) (f : FaultClass) (hsub : dests ⊆ destsOf i) :
    Framed i s (s.faulted f dests) := by
  refine ⟨fun r hr => ?_, fun r hr => ?_, fun _ => faulted_digits .., faulted_config .., faulted_host ..,
    faulted_din ..⟩
  · exact (faulted_wideReg ..).trans (if_neg fun h => hr (hsub h.2))
  · exact (faulted_scaledReg ..).trans (if_neg fun h => hr (hsub h.2))

theorem wideReg_writeWide_of_ne (s : State) {r q : RegField} (l : List WideLimb) (h : q ≠ r) :
    (s.writeWide r l).wideReg q = s.wideReg q := (wideReg_writeWide ..).trans (if_neg fun e => h e.1)

theorem scaledReg_writeScaled_of_ne (s : State) {r q : RegField} (l : List Digit) (sg : Sign) (h : q ≠ r) :
    (s.writeScaled r l sg).scaledReg q = s.scaledReg q := (scaledReg_writeScaled ..).trans (if_neg fun e => h e.1)

/-- A command that ends `OK` writes nothing but its destinations and, if it is `WTODEC`, the digit buffer. -/
theorem Written.framed {i : Instr} {s t : State} (h : Written i s t) : Framed i s t := by
  obtain ⟨hconfig, -, hhost, hdin⟩ := h.frame
  cases h with
  | nothing => exact ⟨fun _ _ => rfl, fun _ _ => rfl, fun _ => rfl, hconfig, hhost, hdin⟩
  | wide rd l hd =>
    refine ⟨fun r hr => wideReg_writeWide_of_ne s l ?_, fun _ _ => rfl, fun _ => rfl, hconfig, hhost, hdin⟩
    simpa [hd] using hr
  | scaled rd l sg hd =>
    refine ⟨fun _ _ => rfl, fun r hr => scaledReg_writeScaled_of_ne s l sg ?_, fun _ => rfl, hconfig, hhost, hdin⟩
    simpa [hd] using hr
  | both rd rb l l' sg sg' hd =>
    refine ⟨fun _ _ => rfl, fun r hr => ?_, fun _ => rfl, hconfig, hhost, hdin⟩
    obtain ⟨hrd, hrb⟩ : r ≠ rd ∧ r ≠ rb := by simpa [hd] using hr
    exact (scaledReg_writeScaled_of_ne _ l sg hrd).trans (scaledReg_writeScaled_of_ne s l' sg' hrb)
  | digits ra l hi =>
    exact ⟨fun _ _ => rfl, fun _ _ => rfl, fun hne => absurd hi (hne ra), hconfig, hhost, hdin⟩

/-- Settles O16: by the way the command ends, a fault (`framed_faulted`) or a write (`Written.framed`). -/
theorem frameOfEveryCommand : Obligations.FrameOfEveryCommand := by
  intro i s t h
  have hends : Ends i s (.next t) := h ▸ exec_ends i s
  show Framed i s t
  cases hends with
  | illegal | unusable | malformed => exact framed_faulted s _ (List.nil_subset _)
  | outOfDomain | overflow => exact framed_faulted s _ (List.Subset.refl _)
  | done u _ _ _ _ hw => exact hw.framed

end Sys2Proof.Machine
end

section
/-! PROOFS. The checks of spec/40_wide_unsigned.md rule R53 on a command with one source register: what it does where
one of them fails (spec/60_exceptions.md rules R136 and R138), and where all pass. -/

namespace Sys2Proof.Machine

theorem regOk_of_le {r : RegField} (h : 8 ≤ r.toNat) : regOk r = false := decide_eq_false (Nat.not_lt.mpr h)

theorem wideIndexOk_of_lt {imm : Immediate} (h : imm.toNat < 8) : wideIndexOk imm = true := decide_eq_true h

theorem wideIndexOk_of_le {imm : Immediate} (h : 8 ≤ imm.toNat) : wideIndexOk imm = false :=
  decide_eq_false (Nat.not_lt.mpr h)

theorem scaledIndexOk_of_lt {c : Config} {imm : Immediate} (h : imm.toNat < c.sCap) : scaledIndexOk c imm = true :=
  decide_eq_true h

theorem scaledIndexOk_of_le {c : Config} {imm : Immediate} (h : c.sCap ≤ imm.toNat) : scaledIndexOk c imm = false :=
  decide_eq_false (Nat.not_lt.mpr h)

section Source
variable {s : State} {ok : Bool} {r : RegField}

theorem whenLegal_refused (hok : ok = false) (next : Result) :
    s.whenLegal ok next = .next (s.refusedWith .illegalCommand) := by
  rw [hok, whenLegal_false, faulted_eq_refusedWith rfl]

theorem legal_withWide_none (hok : ok = true) (h : s.wideReg r = none) (next : List WideLimb → Result) :
    s.whenLegal ok (s.withWide r next) = .next (s.refusedWith .invalidOperand) := by
  rw [hok, whenLegal_true, withWide_none h, faulted_eq_refusedWith rfl]

theorem legal_withWide_some (hok : ok = true) {a : List WideLimb} (h : s.wideReg r = some a)
    (next : List WideLimb → Result) : s.whenLegal ok (s.withWide r next) = next a := by
  rw [hok, whenLegal_true, withWide_some h]

theorem legal_withScaled_none (hok : ok = true) (h : s.scaledReg r = none) (next : ScaledValue → Result) :
    s.whenLegal ok (s.withScaled r next) = .next (s.refusedWith .invalidOperand) := by
  rw [hok, whenLegal_true, withScaled_none h, faulted_eq_refusedWith rfl]

theorem legal_withScaled_some (hok : ok = true) {a : ScaledValue} (h : s.scaledReg r = some a)
    (next : ScaledValue → Result) : s.whenLegal ok (s.withScaled r next) = next a := by
  rw [hok, whenLegal_true, withScaled_some h]

end Source

end Sys2Proof.Machine
end

section
/-! PROOFS. Zero, the replacement of one limb, and the commands that read a limb or a count
(spec/40_wide_unsigned.md rules R54 to R57, spec/42_scaled_basic.md rules R75, R77 and R78). -/

namespace Sys2Proof.Machine

/-! ### Zero -/

theorem wideOfNat_zero : wideOfNat 0 = [0] := by decide

theorem scaledOfNat_zero (c : Config) (sg : Sign) : scaledOfNat c 0 sg = ⟨[], .positive⟩ :=
  clamp_eq_of_val (b := []) sg ((limbsVal_limbsOfNat ..).trans (Nat.zero_mod _))

theorem scaledReg_wroteScaled {s : State} {rd : RegField} (hr : rd.toNat < 8) (m : Nat) (sg : Sign) :
    (s.wroteScaled rd m sg).scaledReg rd = some (scaledOfNat s.config m sg) :=
  (scaledReg_writeScaled ..).trans (if_pos ⟨rfl, hr⟩)

/-- Settles O26: `WZERO` and `SZERO` read no register, so only their field can be refused, and they write the record of
zero. -/
theorem zeroMakesCanonicalZero : Obligations.ZeroMakesCanonicalZero := by
  intro rd s
  refine ⟨rfl, rfl, fun hr => ⟨exec_wzero hr, ?_, exec_szero hr, ?_⟩, fun hr => ⟨?_, ?_⟩⟩
  · rw [wideReg_wroteWide hr, wideOfNat_zero]
  · rw [scaledReg_wroteScaled hr, scaledOfNat_zero]
  · exact whenLegal_refused (regOk_of_le hr) _
  · exact whenLegal_refused (regOk_of_le hr) _

/-! ### One limb -/

/-- Settles O27: the number written is below the limit by `replaced_lt`, and its limbs are those `limb_of_replaced`
gives. -/
theorem wldlReplacesOneLimb : Obligations.WldlReplacesOneLimb := by
  intro rd imm s hs hr
  have hok (hi : imm.toNat < 8) : (regOk rd && wideIndexOk imm) = true := by
    rw [regOk_of_lt hr, wideIndexOk_of_lt hi, Bool.and_self]
  refine ⟨rfl, fun hi => ?_, fun hi hreg => legal_withWide_none (hok hi) hreg _, fun a hi ha => ?_⟩
  · exact whenLegal_refused (by rw [wideIndexOk_of_le hi, Bool.and_false]) _
  · have hlt := replaced_lt 64 (wval a) imm.toNat s.din.toNat 8 s.din.isLt hi
    rw [show 64 * 8 = 512 from rfl] at hlt
    exact ⟨_, rfl, hlt (limbsVal_lt_of_wideCanonical (hs.wide rd a ha)),
      limb_of_replaced 64 (wval a) imm.toNat s.din.toNat s.din.isLt, legal_withWide_some (hok hi) ha _⟩

/-- Settles O28: both commands answer `limbAt`, whose value is `limbAt_toNat`. -/
theorem limbReads : Obligations.LimbReads := by
  intro ra imm s hr
  have hwide (hi : imm.toNat < 8) : (regOk ra && wideIndexOk imm) = true := by
    rw [regOk_of_lt hr, wideIndexOk_of_lt hi, Bool.and_self]
  have hscaled (hi : imm.toNat < s.config.sCap) : (regOk ra && scaledIndexOk s.config imm) = true := by
    rw [regOk_of_lt hr, scaledIndexOk_of_lt hi, Bool.and_self]
  refine ⟨rfl, rfl, fun hi => ?_, fun hi => ?_, fun hi hreg => legal_withWide_none (hwide hi) hreg _,
    fun hi hreg => legal_withScaled_none (hscaled hi) hreg _, fun a hi ha => ?_, fun a hi ha => ?_⟩
  · exact whenLegal_refused (by rw [wideIndexOk_of_le hi, Bool.and_false]) _
  · exact whenLegal_refused (by rw [scaledIndexOk_of_le hi, Bool.and_false]) _
  · exact ⟨limbAt a imm.toNat, legal_withWide_some (hwide hi) ha _, limbAt_toNat a imm.toNat,
      List.getD_eq_default a 0⟩
  · refine ⟨(limbAt a.limbs imm.toNat).setWidth 64, legal_withScaled_some (hscaled hi) ha _, ?_, fun hlen => ?_⟩
    · rw [BitVec.toNat_setWidth_of_le (by decide), limbAt_toNat, ScaledValue.mag]
    · rw [limbAt_of_length_le hlen]; rfl

/-! ### The counts -/

/-- The word `SINFO` answers (R78): `used` in bits 7:0, the sign in bit 8, and 0 above. -/
theorem infoWord_fields {used : Nat} (h : used < 256) (sg : Sign) :
    let d : DataWord := BitVec.ofNat 64 (used % 2 ^ 8 + sg.bit * 2 ^ 8)
    (d.extractLsb' 0 8).toNat = used ∧ d.getLsbD 8 = decide (sg = .negative) ∧ d.extractLsb' 9 55 = 0 := by
  intro d
  have hbit : sg.bit ≤ 1 := by cases sg <;> decide
  have hd : d.toNat = used + sg.bit * 256 := by
    rw [BitVec.toNat_ofNat]
    omega
  have hsign : d.toNat / 2 ^ 8 % 2 = sg.bit := by omega
  refine ⟨?_, ?_, BitVec.eq_of_toNat_eq ?_⟩
  · rw [BitVec.extractLsb'_toNat, Nat.shiftRight_zero]
    omega
  · rw [BitVec.getLsbD, Nat.testBit_eq_decide_div_mod_eq, hsign]
    cases sg <;> rfl
  · rw [BitVec.extractLsb'_toNat, Nat.shiftRight_eq_div_pow, toNat_zero']
    omega

/-- Settles O29: the counts are the lengths of canonical records (`length_of_wideCanonical`, `length_eq_limbCount`), and
a canonical ScaledInt without limbs is `Positive`. -/
theorem lengthReads : Obligations.LengthReads := by
  intro ra s hs hr
  have hok : regOk ra = true := regOk_of_lt hr
  refine ⟨rfl, rfl, fun hreg => legal_withWide_none hok hreg _, fun hreg => legal_withScaled_none hok hreg _,
    fun a ha => ?_, fun a ha => ?_⟩
  · have hcan := hs.wide ra a ha
    have ⟨hpos, (hle : a.length ≤ 8), _⟩ := hcan
    refine ⟨BitVec.ofNat 64 a.length, legal_withWide_some hok ha _, ?_, length_of_wideCanonical hcan, hpos, hle⟩
    exact Nat.mod_eq_of_lt (by omega)
  · obtain ⟨hle, hlast, hzero⟩ := hs.scaled ra a ha
    have hcap := s.config.sCap_le
    obtain ⟨hused, hsign, hrest⟩ := infoWord_fields (by omega : a.limbs.length < 256) a.sign
    refine ⟨_, legal_withScaled_some hok ha _, hused, hsign, hrest, length_eq_limbCount (by decide) hlast, fun hd => ?_⟩
    rw [hd] at hused hsign
    have hpositive : a.sign = .positive := hzero (List.length_eq_zero_iff.mp hused.symm)
    rw [hpositive] at hsign
    exact absurd hsign (by decide)

end Sys2Proof.Machine
end

section
/-! PROOFS. The WideUnsigned sums and products by value (spec/40_wide_unsigned.md rules R59 to R64): the two commands
that work in place have one form, and the two that write a third register another. -/

namespace Sys2Proof.Machine

/-- A result decided by a limit, as the two clauses a statement makes of it. -/
theorem clauses_of_eq_ite {r x y : Result} {n limit : Nat} (h : r = if n < limit then x else y) :
    (n < limit → r = x) ∧ (limit ≤ n → r = y) :=
  ⟨fun hlt => h.trans (if_pos hlt), fun hge => h.trans (if_neg (Nat.not_lt.mpr hge))⟩

/-- A limb algorithm answers at most eight limbs with the value `n`, or overflows where `n` is `2^512` or more (R63). -/
def Answers (o : Option (List WideLimb)) (n : Nat) : Prop :=
  match o with
  | some r => limbsVal r = n ∧ r.length ≤ 8
  | none => 2 ^ 512 ≤ n

theorem Answers.finishWide {s : State} {rd : RegField} {o : Option (List WideLimb)} {n : Nat} (h : Answers o n) :
    s.finishWide rd o =
      if n < 2 ^ 512 then .next (s.wroteWide rd n) else .next (s.faulted .capacityOverflow [.wide rd]) :=
  finishWide_value h

theorem answers_addLimb {a : List WideLimb} (ha : WideCanonical a) (v : WideLimb) :
    Answers (addLimb a v) (wval a + v.toNat) := addLimb_spec a v ha.2.1

theorem answers_mulLimb {a : List WideLimb} (ha : WideCanonical a) (v : WideLimb) :
    Answers (mulLimb a v) (wval a * v.toNat) := mulLimb_spec a v ha.2.1

theorem answers_addWide {a b : List WideLimb} (ha : WideCanonical a) (hb : WideCanonical b) :
    Answers (addWide a b) (wval a + wval b) := addWide_spec a b ha.2.1 hb.2.1

theorem answers_mulWide {a b : List WideLimb} (ha : WideCanonical a) (hb : WideCanonical b) :
    Answers (mulWide a b) (wval a * wval b) := mulWide_spec a b ha.2.1 hb.2.1 ha.1

/-! ### In place -/

/-- A canonical record is the record of its number: writing the number back changes nothing (R16, R18). -/
theorem wideOfNat_wval {a : List WideLimb} (h : WideCanonical a) : wideOfNat (wval a) = a := by
  obtain ⟨hval, hcan⟩ := wideOfNat_spec (limbsVal_lt_of_wideCanonical h)
  exact wide_eq_of_wval_eq hcan h hval

section InPlace
variable {s : State} {rd : RegField} {a : List WideLimb} (hs : s.Inv) (hr : rd.toNat < 8) (ha : s.wideReg rd = some a)
include hs hr ha

/-- `WADDL` by value (R59). -/
theorem exec_waddl : exec (.waddl rd) s =
    if wval a + s.din.toNat < 2 ^ 512 then .next (s.wroteWide rd (wval a + s.din.toNat))
    else .next (s.faulted .capacityOverflow [.wide rd]) :=
  (legal_withWide_some (regOk_of_lt hr) ha _).trans (answers_addLimb (hs.wide rd a ha) s.din).finishWide

/-- `WMULL` by value (R60). -/
theorem exec_wmull : exec (.wmull rd) s =
    if wval a * s.din.toNat < 2 ^ 512 then .next (s.wroteWide rd (wval a * s.din.toNat))
    else .next (s.faulted .capacityOverflow [.wide rd]) :=
  (legal_withWide_some (regOk_of_lt hr) ha _).trans (answers_mulLimb (hs.wide rd a ha) s.din).finishWide

end InPlace

/-- Settles O30: by `exec_waddl`; adding 0 writes the register's own record back. -/
theorem waddlAddsExactly : Obligations.WaddlAddsExactly := by
  intro rd s a hs hr ha
  obtain ⟨hfits, hover⟩ := clauses_of_eq_ite (exec_waddl hs hr ha)
  refine ⟨hfits, hover, fun hdin => ?_⟩
  rw [hdin, toNat_zero', Nat.add_zero, wideReg_wroteWide hr, wideOfNat_wval (hs.wide rd a ha)]

/-- Settles O31: by `exec_wmull`; multiplying by 0 writes the record of zero. -/
theorem wmullMultipliesExactly : Obligations.WmullMultipliesExactly := by
  intro rd s a hs hr ha
  obtain ⟨hfits, hover⟩ := clauses_of_eq_ite (exec_wmull hs hr ha)
  refine ⟨hfits, hover, fun hdin => ?_⟩
  rw [hdin, toNat_zero', Nat.mul_zero, wideReg_wroteWide hr, wideOfNat_zero]

/-! ### Into a third register -/

/-- The form of `WADD` and `WMUL` (R61, R62), with the limb algorithm left open. -/
def State.combineWide (s : State) (op : List WideLimb → List WideLimb → Option (List WideLimb))
    (rd ra rb : RegField) : Result :=
  s.whenLegal (regOk rd && regOk ra && regOk rb && rd != ra && rd != rb) <|
  s.withWide ra fun a =>
  s.withWide rb fun b =>
  s.finishWide rd (op a b)

theorem exec_wadd_eq (s : State) (rd ra rb : RegField) : exec (.wadd rd ra rb) s = s.combineWide addWide rd ra rb := rfl

theorem exec_wmul_eq (s : State) (rd ra rb : RegField) : exec (.wmul rd ra rb) s = s.combineWide mulWide rd ra rb := rfl

section ThirdRegister
variable {s : State} {op : List WideLimb → List WideLimb → Option (List WideLimb)} {rd ra rb : RegField}

/-- A legal command of this form with valid sources ends as its limb algorithm answers. -/
theorem combineWide_value {a b : List WideLimb} {n : Nat} (hrd : rd.toNat < 8) (hra : ra.toNat < 8) (hrb : rb.toNat < 8)
    (hda : rd ≠ ra) (hdb : rd ≠ rb) (ha : s.wideReg ra = some a) (hb : s.wideReg rb = some b)
    (h : Answers (op a b) n) : s.combineWide op rd ra rb =
      if n < 2 ^ 512 then .next (s.wroteWide rd n) else .next (s.faulted .capacityOverflow [.wide rd]) := by
  have hok : (regOk rd && regOk ra && regOk rb && rd != ra && rd != rb) = true := by
    simp [regOk_of_lt, hrd, hra, hrb, hda, hdb]
  exact (legal_withWide_some hok ha _).trans ((withWide_some hb _).trans h.finishWide)

/-- The order in which two sources are checked cannot be seen: both checks end the command in the same way (R138). -/
theorem withWide_comm (next : List WideLimb → List WideLimb → Result) :
    (s.withWide ra fun a => s.withWide rb fun b => next a b) =
      s.withWide rb fun b => s.withWide ra fun a => next a b := by
  cases ha : s.wideReg ra with
  | none => cases hb : s.wideReg rb <;> simp [State.withWide, ha, hb]
  | some a => simp only [withWide_some ha]

/-- Swapping the sources changes nothing where the limb algorithm answers a number symmetric in them (R64). -/
theorem combineWide_comm {f : Nat → Nat → Nat} (hf : ∀ m n, f m n = f n m)
    (hop : ∀ a b, WideCanonical a → WideCanonical b → Answers (op a b) (f (wval a) (wval b))) (hs : s.Inv) :
    s.combineWide op rd ra rb = s.combineWide op rd rb ra := by
  have hlegal : (regOk rd && regOk ra && regOk rb && rd != ra && rd != rb) =
      (regOk rd && regOk rb && regOk ra && rd != rb && rd != ra) := by
    rw [Bool.and_right_comm (regOk rd), Bool.and_right_comm _ (rd != ra)]
  rw [State.combineWide, State.combineWide, hlegal, withWide_comm]
  congr 1
  cases hb : s.wideReg rb with
  | none => rw [withWide_none hb, withWide_none hb]
  | some b =>
    rw [withWide_some hb, withWide_some hb]
    cases ha : s.wideReg ra with
    | none => rw [withWide_none ha, withWide_none ha]
    | some a =>
      have hca := hs.wide ra a ha
      have hcb := hs.wide rb b hb
      rw [withWide_some ha, withWide_some ha, (hop a b hca hcb).finishWide, (hop b a hcb hca).finishWide, hf]

end ThirdRegister

/-- Settles O32: `combineWide_value` with the sum `add` answers. -/
theorem waddAddsExactly : Obligations.WaddAddsExactly := by
  intro rd ra rb s a b hs hrd hra hrb hda hdb ha hb
  rw [exec_wadd_eq]
  exact clauses_of_eq_ite
    (combineWide_value hrd hra hrb hda hdb ha hb (answers_addWide (hs.wide ra a ha) (hs.wide rb b hb)))

/-- Settles O33: `combineWide_value` with the product `multiply` answers. -/
theorem wmulMultipliesExactly : Obligations.WmulMultipliesExactly := by
  intro rd ra rb s a b hs hrd hra hrb hda hdb ha hb
  rw [exec_wmul_eq]
  exact clauses_of_eq_ite
    (combineWide_value hrd hra hrb hda hdb ha hb (answers_mulWide (hs.wide ra a ha) (hs.wide rb b hb)))

/-- Settles O34: sum and product are symmetric (`combineWide_comm`), and every command keeps its registers canonical
(`exec_keepsInv`). -/
theorem wideSumsAndProductsCommute : Obligations.WideSumsAndProductsCommute := by
  intro rd ra rb s hs
  refine ⟨combineWide_comm Nat.add_comm (fun _ _ => answers_addWide) hs,
    combineWide_comm Nat.mul_comm (fun _ _ => answers_mulWide) hs, fun t _ a ht _ ha => ?_, fun t _ a ht _ ha => ?_⟩
  · exact (exec_keepsInv hs (.wadd rd ra rb) t ht).wide rd a ha
  · exact (exec_keepsInv hs (.wmul rd ra rb) t ht).wide rd a ha

end Sys2Proof.Machine
end

section
/-! PROOFS. The WideUnsigned decimal codec (spec/41_wide_decimal.md): a digit accumulated (R65), a number rendered into
the digit buffer (R67), the reads of the buffer (R69, R70), and the round trip of a digit string (R72). -/

namespace Sys2Proof.Machine

/-! ### A digit accumulated -/

theorem eq_digitDin {din : DataWord} {d : Nat} (hd : d < 10) (h : din.toNat = 0x30 + d) : din = digitDin d :=
  BitVec.eq_of_toNat_eq (h.trans (digitDin_toNat hd).symm)

/-- The check of step 3 of R53 refuses a `din` that is no digit (R134). -/
theorem withDigit_malformed {s : State} (h : s.din.toNat < 0x30 ∨ 0x39 < s.din.toNat) (next : Nat → Result) :
    s.withDigit next = .next (s.refusedWith .malformedInput) := by
  rw [withDigit_other (by omega), faulted_eq_refusedWith rfl]

/-- Settles O35: a digit by `exec_wdacc_digit`, any other `din` by `withDigit_malformed`. -/
theorem wdaccAccumulatesADigit : Obligations.WdaccAccumulatesADigit := by
  intro rd s a hs hr ha
  refine ⟨rfl, fun digit hd hdin => ?_, fun hdin => ?_⟩
  · have ⟨_, hlen, _⟩ := hs.wide rd a ha
    exact clauses_of_eq_ite (exec_wdacc_digit hr ha hlen hd (eq_digitDin hd hdin))
  · exact (legal_withWide_some (regOk_of_lt hr) ha _).trans (withDigit_malformed hdin _)

/-! ### The digit buffer -/

/-- `WTODEC` by value (R67). -/
theorem exec_wtodec {s : State} {ra : RegField} {a : List WideLimb} (hr : ra.toNat < 8) (ha : s.wideReg ra = some a) :
    exec (.wtodec ra) s = .next { s with digits := decimalText (wval a), response := some ⟨.ok, 0⟩ } := by
  refine (legal_withWide_some (regOk_of_lt hr) ha _).trans ?_
  rw [toDecimal_eq]
  rfl

theorem decimalText_ne_nil (n : Nat) : decimalText n ≠ [] := by
  by_cases h : n = 0
  · simp [decimalText, h]
  · simp [decimalText, h, Nat.digits_ne_nil_iff_ne_zero]

/-- Settles O36: by `exec_wtodec`; a register is below `2^512`, so its text fits the buffer. -/
theorem wtodecWritesTheDecimalText : Obligations.WtodecWritesTheDecimalText := by
  intro ra s hs hr
  refine ⟨rfl, fun a ha => ⟨exec_wtodec hr ha, ?_, ?_⟩, fun hreg => legal_withWide_none (regOk_of_lt hr) hreg _⟩
  · exact List.length_pos_iff.mpr (decimalText_ne_nil _)
  · exact (digitsCanonical_decimalText (limbsVal_lt_of_wideCanonical (hs.wide ra a ha))).1

theorem charIndexOk_of_lt {imm : Immediate} (h : imm.toNat < 155) : charIndexOk imm = true := decide_eq_true h

theorem charIndexOk_of_le {imm : Immediate} (h : 155 ≤ imm.toNat) : charIndexOk imm = false :=
  decide_eq_false (Nat.not_lt.mpr h)

/-- `DGET` of an index the buffer holds no character at (R70). -/
theorem exec_dget_none {s : State} {imm : Immediate} (hi : imm.toNat < 155) (h : s.digits[imm.toNat]? = none) :
    exec (.dget imm) s = .next (s.refusedWith .invalidOperand) := by
  show s.whenLegal (charIndexOk imm) _ = _
  rw [charIndexOk_of_lt hi, whenLegal_true, h]
  exact congrArg Host.Outcome.next (faulted_eq_refusedWith rfl [])

/-- `DGET` of an index of the buffer that holds a character (R70). -/
theorem exec_dget_some {s : State} {imm : Immediate} {c : Character} (hi : imm.toNat < 155)
    (h : s.digits[imm.toNat]? = some c) : exec (.dget imm) s = .next (s.respond .ok (c.setWidth 64)) := by
  show s.whenLegal (charIndexOk imm) _ = _
  rw [charIndexOk_of_lt hi, whenLegal_true, h]
  rfl

/-- Settles O37: the buffer holds at most 155 characters, each a digit (R25), so every index below `dlen` is in
range. -/
theorem digitBufferReads : Obligations.DigitBufferReads := by
  intro s hs
  have ⟨(hlen : s.digits.length ≤ 155), hchars, _⟩ := hs.digits
  refine ⟨rfl, fun _ => rfl, ⟨BitVec.ofNat 64 s.digits.length, rfl, Nat.mod_eq_of_lt (by omega)⟩,
    fun imm => ⟨fun hi => ?_, fun hi hge => ?_, fun c hc => ?_⟩⟩
  · exact whenLegal_refused (charIndexOk_of_le hi) _
  · exact exec_dget_none hi (List.getElem?_eq_none hge)
  · obtain ⟨hi, -⟩ := List.getElem?_eq_some_iff.mp hc
    have hval : (c.setWidth 64).toNat = c.toNat := BitVec.toNat_setWidth_of_le (by decide)
    refine ⟨c.setWidth 64, exec_dget_some (hi.trans_le hlen) hc, hval, ?_⟩
    rw [hval]
    exact hchars c (List.mem_of_getElem? hc)

/-! ### The round trip -/

/-- The number a digit string spells, read with the units first. -/
theorem spelled_eq_ofDigits (digits : List Nat) : spelled digits = Nat.ofDigits 10 digits.reverse := by
  rw [Nat.ofDigits_eq_foldr, List.foldr_reverse]
  simp [spelled, Nat.add_comm]

theorem spelled_dropWhile_zero (digits : List Nat) : spelled (digits.dropWhile (· == 0)) = spelled digits := by
  induction digits with
  | nil => rfl
  | cons d ds ih =>
    by_cases hd : d = 0
    · subst hd
      exact ih
    · rw [List.dropWhile_cons_of_neg (by simpa using hd)]

/-- A string of decimal digits without a leading zero is the decimal text of the number it spells (R67, R72). -/
theorem decimalText_spelled {d : Nat} {ds : List Nat} (hdigits : ∀ x ∈ d :: ds, x < 10) (hd : d ≠ 0) :
    decimalText (spelled (d :: ds)) = (d :: ds).map digitChar := by
  have htext : Nat.digits 10 (spelled (d :: ds)) = (d :: ds).reverse := by
    rw [spelled_eq_ofDigits]
    refine Nat.digits_ofDigits 10 (by decide) _ (fun x hx => hdigits x (List.mem_reverse.mp hx)) fun _ => ?_
    rwa [List.getLast_reverse]
  have hne : spelled (d :: ds) ≠ 0 := fun h0 => by simp [h0] at htext
  rw [decimalText, if_neg hne, htext, List.reverse_reverse]

/-- The decimal text of the number a digit string spells is the string without its leading zeros, or `"0"` (R72). -/
theorem decimalText_spelled_dropWhile {digits : List Nat} (hdigits : ∀ d ∈ digits, d < 10) :
    decimalText (spelled digits) = (match digits.dropWhile (· == 0) with
      | [] => [0]
      | d :: ds => d :: ds).map digitChar := by
  rw [← spelled_dropWhile_zero]
  cases hrest : digits.dropWhile (· == 0) with
  | nil => rfl
  | cons d ds =>
    have hhead := List.head?_dropWhile_not (· == 0) digits
    have hd : d ≠ 0 := by simpa [hrest] using hhead
    exact decimalText_spelled (fun x hx => hdigits x (List.dropWhile_subset _ (hrest ▸ hx))) hd

/-- Settles O58: `WFROMDEC` leaves the record of the number spelled (`wfromdecReadsTheNumber`), and `WTODEC` renders
it. -/
theorem decimalTextRoundTrips : Obligations.DecimalTextRoundTrips := by
  intro rd s digits rest hr hdigits hlt hh
  obtain ⟨t, ht, hhost, hfits, -⟩ := wfromdecReadsTheNumber rd s digits _ hr hdigits hh
  have hreg : (t.executing 0 rest).wideReg rd = some (wideOfNat (spelled digits)) := (hfits hlt).1
  refine ⟨_, (runFor_add ht 1).trans (runFor_of_step ((step_send hhost).trans (exec_wtodec hr hreg)) 0), rfl, ?_⟩
  exact (congrArg decimalText (wideOfNat_spec hlt).1).trans (decimalText_spelled_dropWhile hdigits)

end Sys2Proof.Machine
end

section
/-! PROOFS. The ScaledInt commands that replace a limb, move a value with a sign, or compare two values
(spec/42_scaled_basic.md rules R76 and R79 to R84). -/

namespace Sys2Proof.Machine

/-! ### One limb -/

theorem dinIs32_of_lt {din : DataWord} (h : din.toNat < 2 ^ 32) : dinIs32 din = true := decide_eq_true h

theorem dinIs32_of_le {din : DataWord} (h : 2 ^ 32 ≤ din.toNat) : dinIs32 din = false :=
  decide_eq_false (Nat.not_lt.mpr h)

/-- Settles O38: the magnitude written is below the limit by `replaced_lt`, and its limbs are those `limb_of_replaced`
gives. -/
theorem sldlReplacesOneLimb : Obligations.SldlReplacesOneLimb := by
  intro rd imm s hs hr
  have hok (hi : imm.toNat < s.config.sCap) (hd : s.din.toNat < 2 ^ 32) :
      (regOk rd && scaledIndexOk s.config imm && dinIs32 s.din) = true := by
    rw [regOk_of_lt hr, scaledIndexOk_of_lt hi, dinIs32_of_lt hd, Bool.and_self, Bool.and_self]
  refine ⟨rfl, fun hbad => whenLegal_refused ?_ _, fun hi hd hreg => legal_withScaled_none (hok hi hd) hreg _,
    fun a hi hd ha => ?_⟩
  · rcases hbad with hi | hd
    · rw [scaledIndexOk_of_le hi, Bool.and_false, Bool.false_and]
    · rw [dinIs32_of_le hd, Bool.and_false]
  · exact ⟨_, rfl, replaced_lt 32 a.mag imm.toNat s.din.toNat s.config.sCap hd hi
        (mag_lt_of_scaledCanonical (hs.scaled rd a ha)),
      limb_of_replaced 32 a.mag imm.toNat s.din.toNat hd, legal_withScaled_some (hok hi hd) ha _⟩

/-! ### Signs -/

/-- A canonical value is the record of its magnitude and sign: writing them back changes nothing (R21, R22). -/
theorem scaledOfNat_mag {c : Config} {a : ScaledValue} (h : ScaledCanonical c.sCap a) :
    scaledOfNat c a.mag a.sign = a :=
  calc scaledOfNat c a.mag a.sign
      = clamp a.limbs a.sign := clamp_eq_of_val a.sign (limbsVal_limbsOfNat_of_lt (mag_lt_of_scaledCanonical h))
    _ = a := clamp_of_canonical h

/-- The sign of a value that is not zero is the sign of its integer. -/
theorem ofBit_toInt_neg {a : ScaledValue} (h : a.mag ≠ 0) : Sign.ofBit (decide (a.toInt < 0)) = a.sign := by
  cases hs : a.sign with
  | positive => exact ofBit_of_nonneg (by rw [toInt_positive hs]; omega)
  | negative => exact ofBit_of_neg (by rw [toInt_negative hs]; omega)

/-- Writing the integer of a value writes its magnitude and sign, and zero as `Positive` (R22). -/
theorem writeScaledInt_toInt (s : State) (rd : RegField) (a : ScaledValue) :
    s.writeScaledInt rd a.toInt = s.writeScaledNat rd a.mag a.sign := by
  rw [State.writeScaledInt, toInt_natAbs]
  refine writeScaled_sign fun hne => ofBit_toInt_neg fun h0 => hne ?_
  rw [h0, limbsVal_limbsOfNat, Nat.zero_mod]

/-- Settles O39: the three commands write the limbs of their source, each with its own sign, and a clamped write of
limbs is the write of their number (`writeScaled_finish`). -/
theorem signMoves : Obligations.SignMoves := by
  intro rd ra s hs hrd hra
  have hok : (regOk rd && regOk ra) = true := by rw [regOk_of_lt hrd, regOk_of_lt hra, Bool.and_self]
  refine ⟨rfl, rfl, rfl, fun hreg i hi => ?_, fun a ha => ?_⟩
  · simp only [List.mem_cons, List.not_mem_nil, or_false] at hi
    rcases hi with rfl | rfl | rfl <;> exact legal_withScaled_none hok hreg _
  · have hcan := hs.scaled ra a ha
    have hwrite (sg : Sign) : (s.writeScaled rd a.limbs sg).finish 0 = .next (s.wroteScaled rd a.mag sg) :=
      writeScaled_finish rfl (mag_lt_of_scaledCanonical hcan)
    have hneg : exec (.sneg rd ra) s = .next (s.wroteScaled rd a.mag a.sign.flip) :=
      (legal_withScaled_some hok ha _).trans (hwrite a.sign.flip)
    refine ⟨(legal_withScaled_some hok ha _).trans (hwrite a.sign), ?_, hneg, ?_,
      (legal_withScaled_some hok ha _).trans (hwrite .positive)⟩
    · rw [scaledReg_wroteScaled hrd, scaledOfNat_mag hcan]
    · rw [hneg, ← toInt_flip, writeScaledInt_toInt]
      rfl

/-! ### Comparisons -/

/-- The code of a comparison (R83). -/
theorem orderingCode_compare {α : Type} [LinearOrder α] (x y : α) :
    orderingCode (compare x y) = if x < y then 0 else if x = y then 1 else 2 := by
  rcases lt_trichotomy x y with h | h | h
  · rw [compare_lt_iff_lt.mpr h, if_pos h, orderingCode]
  · rw [compare_eq_iff_eq.mpr h, if_neg h.not_lt, if_pos h, orderingCode]
  · rw [compare_gt_iff_gt.mpr h, if_neg h.not_gt, if_neg h.ne', orderingCode]

/-- A legal command with two valid ScaledInt sources runs on their values. -/
theorem legal_withScaled_both {s : State} {ok : Bool} {ra rb : RegField} {a b : ScaledValue} (hok : ok = true)
    (ha : s.scaledReg ra = some a) (hb : s.scaledReg rb = some b) (next : ScaledValue → ScaledValue → Result) :
    s.whenLegal ok (s.withScaled ra fun a => s.withScaled rb (next a)) = next a b :=
  (legal_withScaled_some hok ha _).trans (withScaled_some hb _)

/-- Settles O40: `CmpMag` compares the magnitudes of canonical values (`cmpMag_spec`) and the signed compare their
integers (`cmpSigned_spec`). -/
theorem comparesByValue : Obligations.ComparesByValue := by
  intro ra rb s a b hs hra hrb ha hb
  have hok : (regOk ra && regOk rb) = true := by rw [regOk_of_lt hra, regOk_of_lt hrb, Bool.and_self]
  have hcana := hs.scaled ra a ha
  have hcanb := hs.scaled rb b hb
  have ⟨_, hlasta, _⟩ := hcana
  have ⟨_, hlastb, _⟩ := hcanb
  have hmag : cmpMag a.limbs b.limbs = compare a.mag b.mag := cmpMag_spec hlasta hlastb
  constructor
  · rw [← orderingCode_compare a.mag b.mag, ← hmag]
    exact legal_withScaled_both hok ha hb _
  · rw [← orderingCode_compare a.toInt b.toInt, ← cmpSigned_spec hcana hcanb]
    exact legal_withScaled_both hok ha hb _

end Sys2Proof.Machine
end

section
/-! PROOFS. The ScaledInt adder by value (spec/43_scaled_addsub.md rules R87 to R91): the signed sum and difference of two
registers, and a digit added to a `Positive` register. -/

namespace Sys2Proof.Machine

/-! ### The signed sum and difference -/

/-- The end of the sign-magnitude dispatch (R87): the sum of the integers, or overflow. Of the second operand it asks
nothing about the sign, so that a subtraction may flip that of zero (R89). -/
theorem finishScaled_signedAdd {s : State} {rd : RegField} {a b : ScaledValue} (ha : ScaledCanonical s.config.sCap a)
    (hlen : b.limbs.length ≤ s.config.sCap) (hlast : b.limbs.getLast? ≠ some 0) :
    s.finishScaled rd (signedAdd s.config.sCap a b) =
      if (a.toInt + b.toInt).natAbs < 2 ^ (32 * s.config.sCap) then
        .next ((s.writeScaledInt rd (a.toInt + b.toInt)).respond .ok 0)
      else .next (s.faulted .capacityOverflow [.scaled rd]) :=
  have ⟨hlena, hlasta, _⟩ := ha
  finishScaled_signed (signedAdd_spec hlena hlen hlasta hlast)

theorem regOk_three_of_lt {rd ra rb : RegField} (hrd : rd.toNat < 8) (hra : ra.toNat < 8) (hrb : rb.toNat < 8) :
    (regOk rd && regOk ra && regOk rb) = true := by
  rw [regOk_of_lt hrd, regOk_of_lt hra, regOk_of_lt hrb, Bool.and_self, Bool.and_self]

section TwoSources
variable {s : State} {rd ra rb : RegField} {a b : ScaledValue} (hs : s.Inv) (hrd : rd.toNat < 8) (hra : ra.toNat < 8)
  (hrb : rb.toNat < 8) (ha : s.scaledReg ra = some a) (hb : s.scaledReg rb = some b)

include hs hrd hra hrb ha hb

/-- `SADD` by value (R88). -/
theorem exec_sadd : exec (.sadd rd ra rb) s =
    if (a.toInt + b.toInt).natAbs < 2 ^ (32 * s.config.sCap) then
      .next ((s.writeScaledInt rd (a.toInt + b.toInt)).respond .ok 0)
    else .next (s.faulted .capacityOverflow [.scaled rd]) := by
  have ⟨hlen, hlast, _⟩ := hs.scaled rb b hb
  exact (legal_withScaled_both (regOk_three_of_lt hrd hra hrb) ha hb _).trans
    (finishScaled_signedAdd (hs.scaled ra a ha) hlen hlast)

/-- `SSUB` by value: flipping the sign of the second operand in the dispatch negates its integer (R89). -/
theorem exec_ssub : exec (.ssub rd ra rb) s =
    if (a.toInt - b.toInt).natAbs < 2 ^ (32 * s.config.sCap) then
      .next ((s.writeScaledInt rd (a.toInt - b.toInt)).respond .ok 0)
    else .next (s.faulted .capacityOverflow [.scaled rd]) := by
  have ⟨hlen, hlast, _⟩ := hs.scaled rb b hb
  rw [Int.sub_eq_add_neg, ← toInt_flip b]
  exact (legal_withScaled_both (regOk_three_of_lt hrd hra hrb) ha hb _).trans
    (finishScaled_signedAdd (hs.scaled ra a ha) hlen hlast)

end TwoSources

/-- Settles O41: by `exec_sadd` and `exec_ssub`; the sources are read before the destination is written, so any of the
registers may be the same. -/
theorem saddSsubAreExact : Obligations.SaddSsubAreExact := by
  intro rd ra rb s a b hs hrd hra hrb ha hb
  obtain ⟨hsum, hsumOver⟩ := clauses_of_eq_ite (exec_sadd hs hrd hra hrb ha hb)
  obtain ⟨hdiff, hdiffOver⟩ := clauses_of_eq_ite (exec_ssub hs hrd hra hrb ha hb)
  exact ⟨hsum, hsumOver, hdiff, hdiffOver⟩

/-! ### A digit added -/

/-- A command that takes no `Negative` source refuses one (R90, R138). -/
theorem whenPositive_refused {s : State} {a : ScaledValue} (h : a.sign = .negative) (next : Result) :
    s.whenPositive a next = .next (s.refusedWith .invalidOperand) := by
  rw [whenPositive_negative h, faulted_eq_refusedWith rfl]

theorem regOk_two_dinIs32_of_lt {rd ra : RegField} {din : DataWord} (hrd : rd.toNat < 8) (hra : ra.toNat < 8)
    (hd : din.toNat < 2 ^ 32) : (regOk rd && regOk ra && dinIs32 din) = true := by
  rw [regOk_of_lt hrd, regOk_of_lt hra, dinIs32_of_lt hd, Bool.and_self, Bool.and_self]

/-- `SADDD` of a `Positive` source by value (R90). -/
theorem exec_saddd {s : State} {rd ra : RegField} {a : ScaledValue} (hs : s.Inv) (hrd : rd.toNat < 8)
    (hra : ra.toNat < 8) (hd : s.din.toNat < 2 ^ 32) (ha : s.scaledReg ra = some a) (hpos : a.sign = .positive) :
    exec (.saddd rd ra) s =
      if a.mag + s.din.toNat < 2 ^ (32 * s.config.sCap) then .next (s.wroteScaled rd (a.mag + s.din.toNat) .positive)
      else .next (s.faulted .capacityOverflow [.scaled rd]) := by
  have ⟨hlen, _, _⟩ := hs.scaled ra a ha
  calc exec (.saddd rd ra) s
      = s.whenPositive a (s.finishScaled rd ((addDigit s.config.sCap a.limbs s.din.toNat).map (·, .positive))) :=
        legal_withScaled_some (regOk_two_dinIs32_of_lt hrd hra hd) ha _
    _ = s.finishScaled rd ((addDigit s.config.sCap a.limbs s.din.toNat).map (·, .positive)) :=
        whenPositive_positive hpos _
    _ = _ := finishScaled_full (addDigit_spec hlen hd)

/-- Settles O42: the checks in the order of R53 (`din`, the valid bit, the sign), then `exec_saddd`. -/
theorem sadddAddsADigit : Obligations.SadddAddsADigit := by
  intro rd ra s hs hrd hra
  refine ⟨rfl, fun hd => whenLegal_refused ?_ _, fun hd => ⟨fun hbad => ?_, fun a ha hpos => ?_⟩⟩
  · rw [dinIs32_of_le hd, Bool.and_false]
  · have hok := regOk_two_dinIs32_of_lt hrd hra hd
    rcases hbad with hreg | ⟨a, ha, hneg⟩
    · exact legal_withScaled_none hok hreg _
    · exact (legal_withScaled_some hok ha _).trans (whenPositive_refused hneg _)
  · exact clauses_of_eq_ite (exec_saddd hs hrd hra hd ha hpos)

end Sys2Proof.Machine
end

section
/-! PROOFS. The ScaledInt multiplier by value (spec/44_scaled_mul.md rules R97 to R102): a register times a digit, and the
two products of registers, which are one command but for the number of low limbs they drop. -/

namespace Sys2Proof.Machine

/-! ### A digit -/

/-- `SMULD` by value (R102). -/
theorem exec_smuld {s : State} {rd ra : RegField} {a : ScaledValue} (hs : s.Inv) (hrd : rd.toNat < 8)
    (hra : ra.toNat < 8) (hd : s.din.toNat < 2 ^ 32) (ha : s.scaledReg ra = some a) :
    exec (.smuld rd ra) s =
      if a.mag * s.din.toNat < 2 ^ (32 * s.config.sCap) then .next (s.wroteScaled rd (a.mag * s.din.toNat) a.sign)
      else .next (s.faulted .capacityOverflow [.scaled rd]) := by
  have ⟨hlen, _, _⟩ := hs.scaled ra a ha
  exact (legal_withScaled_some (regOk_two_dinIs32_of_lt hrd hra hd) ha _).trans
    (finishScaled_full (mulDigit_spec hlen hd))

/-- Settles O43: the checks in the order of R53 (`din`, the valid bit), then `exec_smuld`. -/
theorem smuldMultipliesByADigit : Obligations.SmuldMultipliesByADigit := by
  intro rd ra s hs hrd hra
  refine ⟨rfl, fun hd => whenLegal_refused ?_ _, fun hd => ⟨fun hreg => ?_, fun a ha => ?_⟩⟩
  · rw [dinIs32_of_le hd, Bool.and_false]
  · exact legal_withScaled_none (regOk_two_dinIs32_of_lt hrd hra hd) hreg _
  · exact clauses_of_eq_ite (exec_smuld hs hrd hra hd ha)

/-! ### Two registers -/

/-- The common form of the two products: the full product without its low `k` limbs, with the sign of R97. -/
def State.multiplyDropping (s : State) (k : Nat) (rd ra rb : RegField) : Result :=
  s.whenLegal (regOk rd && regOk ra && regOk rb) <|
  s.withScaled ra fun a =>
  s.withScaled rb fun b =>
  s.finishScaled rd ((mulMag s.config.sCap a.limbs b.limbs).map fun p => (p.drop k, a.sign.product b.sign))

theorem exec_smul_eq (s : State) (rd ra rb : RegField) : exec (.smul rd ra rb) s = s.multiplyDropping 0 rd ra rb := rfl

theorem exec_smuls_eq (s : State) (rd ra rb : RegField) : exec (.smuls rd ra rb) s = s.multiplyDropping 2 rd ra rb := rfl

/-- The end of a product by value: its limit is on the full product, also where low limbs are dropped (R99, R101). -/
theorem finishScaled_mulMag {s : State} {rd : RegField} {k : Nat} {a b : List Digit} {sg : Sign} (hb : b.length ≤ 64) :
    s.finishScaled rd ((mulMag s.config.sCap a b).map fun p => (p.drop k, sg)) =
      if limbsVal a * limbsVal b < 2 ^ (32 * (s.config.sCap - 1)) then
        .next (s.wroteScaled rd (limbsVal a * limbsVal b / 2 ^ (32 * k)) sg)
      else .next (s.faulted .capacityOverflow [.scaled rd]) := by
  have hspec := mulMag_spec (cap := s.config.sCap) a b hb
  cases hp : mulMag s.config.sCap a b with
  | none =>
    rw [hp] at hspec
    exact (if_neg (Nat.not_lt.mpr hspec)).symm
  | some p =>
    rw [hp] at hspec
    obtain ⟨hval, hlt, -⟩ := hspec
    have hlimit : 2 ^ (32 * (s.config.sCap - 1)) ≤ 2 ^ (32 * s.config.sCap) :=
      Nat.pow_le_pow_right (by decide) (Nat.mul_le_mul_left 32 (Nat.sub_le ..))
    rw [← hval, if_pos hlt]
    exact writeScaled_finish (limbsVal_drop p k) ((Nat.div_le_self ..).trans_lt (hlt.trans_le hlimit))

/-- The sign of a product as the statements write it (R97). -/
theorem product_eq_ite_ne (a b : Sign) : a.product b = if a ≠ b then .negative else .positive := (ite_not ..).symm

/-- A legal command with two ScaledInt sources refuses where either is invalid (R138). -/
theorem legal_withScaled_either_none {s : State} {ok : Bool} {ra rb : RegField} (hok : ok = true)
    (h : s.scaledReg ra = none ∨ s.scaledReg rb = none) (next : ScaledValue → ScaledValue → Result) :
    s.whenLegal ok (s.withScaled ra fun a => s.withScaled rb (next a)) = .next (s.refusedWith .invalidOperand) := by
  cases ha : s.scaledReg ra with
  | none => exact legal_withScaled_none hok ha _
  | some a =>
    have hb : s.scaledReg rb = none := h.resolve_left (by simp [ha])
    calc s.whenLegal ok (s.withScaled ra fun a => s.withScaled rb (next a))
        = s.withScaled rb (next a) := legal_withScaled_some hok ha _
      _ = .next (s.faulted .invalidOperand []) := withScaled_none hb _
      _ = .next (s.refusedWith .invalidOperand) := by rw [faulted_eq_refusedWith rfl]

section Registers
variable {s : State} {k : Nat} {rd ra rb : RegField} (hrd : rd.toNat < 8) (hra : ra.toNat < 8) (hrb : rb.toNat < 8)
include hrd hra hrb

theorem multiplyDropping_invalid (h : s.scaledReg ra = none ∨ s.scaledReg rb = none) :
    s.multiplyDropping k rd ra rb = .next (s.refusedWith .invalidOperand) :=
  legal_withScaled_either_none (regOk_three_of_lt hrd hra hrb) h _

/-- Both products by value (R99 to R101). -/
theorem multiplyDropping_value {a b : ScaledValue} (hs : s.Inv) (ha : s.scaledReg ra = some a)
    (hb : s.scaledReg rb = some b) :
    s.multiplyDropping k rd ra rb =
      if a.mag * b.mag < 2 ^ (32 * (s.config.sCap - 1)) then
        .next (s.wroteScaled rd (a.mag * b.mag / 2 ^ (32 * k)) (if a.sign ≠ b.sign then .negative else .positive))
      else .next (s.faulted .capacityOverflow [.scaled rd]) := by
  have ⟨hlen, _, _⟩ := hs.scaled rb b hb
  rw [← product_eq_ite_ne]
  exact (legal_withScaled_both (regOk_three_of_lt hrd hra hrb) ha hb _).trans
    (finishScaled_mulMag (hlen.trans s.config.sCap_le))

end Registers

/-- Settles O44: the product that drops no limb. -/
theorem smulMultipliesExactly : Obligations.SmulMultipliesExactly := by
  intro rd ra rb s hs hrd hra hrb
  rw [exec_smul_eq]
  refine ⟨rfl, multiplyDropping_invalid hrd hra hrb, fun a b ha hb => clauses_of_eq_ite ?_⟩
  have hvalue := multiplyDropping_value (k := 0) hrd hra hrb hs ha hb
  rwa [Nat.mul_zero, Nat.pow_zero, Nat.div_one] at hvalue

/-- Settles O45: the product that drops two limbs, which are 64 bits. -/
theorem smulsRescalesTheProduct : Obligations.SmulsRescalesTheProduct := by
  intro rd ra rb s hs hrd hra hrb
  rw [exec_smuls_eq]
  exact ⟨rfl, multiplyDropping_invalid hrd hra hrb,
    fun a b ha hb => clauses_of_eq_ite (multiplyDropping_value hrd hra hrb hs ha hb)⟩

end Sys2Proof.Machine
end

section
/-! PROOFS. The ScaledInt shifts and powers of two by value (spec/45_scaled_shift.md rules R103 to R110): the results
that cannot be larger than their source, the two products that can overflow, and the pair of a quotient and a
remainder. -/

namespace Sys2Proof.Machine

theorem regOk_two_of_lt {rd ra : RegField} (hrd : rd.toNat < 8) (hra : ra.toNat < 8) :
    (regOk rd && regOk ra) = true := by
  rw [regOk_of_lt hrd, regOk_of_lt hra, Bool.and_self]

/-! ### Results no larger than the source -/

/-- Limbs whose number is no larger than a valid source are written as that number: they cannot overflow. -/
theorem writeScaled_eq_nat_of_le {s : State} {a : ScaledValue} {l : List Digit} {n : Nat}
    (ha : ScaledCanonical s.config.sCap a) (hn : limbsVal l = n) (hle : n ≤ a.mag) (rd : RegField) (sg : Sign) :
    s.writeScaled rd l sg = s.writeScaledNat rd n sg := by
  subst hn
  exact writeScaled_eq_nat s rd sg (hle.trans_lt (mag_lt_of_scaledCanonical ha))

theorem writeScaled_finish_of_le {s : State} {rd : RegField} {a : ScaledValue} {l : List Digit} {sg : Sign} {n : Nat}
    (ha : ScaledCanonical s.config.sCap a) (hn : limbsVal l = n) (hle : n ≤ a.mag) :
    (s.writeScaled rd l sg).finish 0 = .next (s.wroteScaled rd n sg) := by
  rw [writeScaled_eq_nat_of_le ha hn hle]
  rfl

section OneSource
variable {s : State} {rd ra : RegField} {imm : Immediate} {a : ScaledValue} (hs : s.Inv) (hrd : rd.toNat < 8)
include hs hrd

/-- `SSHRD` by value (R104). -/
theorem exec_sshrd (ha : s.scaledReg rd = some a) :
    exec (.sshrd rd imm) s = .next (s.wroteScaled rd (a.mag / 2 ^ (32 * imm.toNat)) a.sign) := by
  have ⟨hval, _⟩ := shiftRightDigits_spec a.limbs imm.toNat
  exact (legal_withScaled_some (regOk_of_lt hrd) ha _).trans
    (writeScaled_finish_of_le (hs.scaled rd a ha) hval (Nat.div_le_self ..))

/-- `SDIVP` by value (R107). -/
theorem exec_sdivp (hra : ra.toNat < 8) (ha : s.scaledReg ra = some a) :
    exec (.sdivp rd ra imm) s = .next (s.wroteScaled rd (a.mag / 2 ^ imm.toNat) a.sign) := by
  have ⟨hval, _⟩ := divPow2_spec a.limbs imm.toNat
  exact (legal_withScaled_some (regOk_two_of_lt hrd hra) ha _).trans
    (writeScaled_finish_of_le (hs.scaled ra a ha) hval (Nat.div_le_self ..))

/-- `SMODP` by value (R106). -/
theorem exec_smodp (hra : ra.toNat < 8) (ha : s.scaledReg ra = some a) :
    exec (.smodp rd ra imm) s = .next (s.wroteScaled rd (a.mag % 2 ^ imm.toNat) a.sign) := by
  have ⟨hval, _⟩ := modPow2_spec a.limbs imm.toNat
  exact (legal_withScaled_some (regOk_two_of_lt hrd hra) ha _).trans
    (writeScaled_finish_of_le (hs.scaled ra a ha) hval (Nat.mod_le ..))

end OneSource

/-- Settles O47: the check of the valid bit (R53), then `exec_sdivp` and `exec_smodp`. -/
theorem divideAndModuloByPowerOfTwo : Obligations.DivideAndModuloByPowerOfTwo := by
  intro rd ra imm s hs hrd hra
  have hok := regOk_two_of_lt hrd hra
  exact ⟨rfl, rfl, fun hreg => ⟨legal_withScaled_none hok hreg _, legal_withScaled_none hok hreg _⟩,
    fun a ha => ⟨exec_sdivp hs hrd hra ha, exec_smodp hs hrd hra ha⟩⟩

/-! ### Results that can overflow -/

/-- `SMULP` by value (R109). -/
theorem exec_smulp {s : State} {rd ra : RegField} {imm : Immediate} {a : ScaledValue} (hrd : rd.toNat < 8)
    (hra : ra.toNat < 8) (ha : s.scaledReg ra = some a) :
    exec (.smulp rd ra imm) s =
      if a.mag * 2 ^ imm.toNat < 2 ^ (32 * s.config.sCap) then
        .next (s.wroteScaled rd (a.mag * 2 ^ imm.toNat) a.sign)
      else .next (s.faulted .capacityOverflow [.scaled rd]) :=
  (legal_withScaled_some (regOk_two_of_lt hrd hra) ha _).trans
    (finishScaled_full (mulPow2_spec s.config.sCap imm.toNat a.limbs))

/-- Settles O49: the check of the valid bit (R53), then `exec_smulp`. -/
theorem smulpMultipliesByPowerOfTwo : Obligations.SmulpMultipliesByPowerOfTwo := by
  intro rd ra imm s _ hrd hra
  exact ⟨rfl, fun hreg => legal_withScaled_none (regOk_two_of_lt hrd hra) hreg _,
    fun a ha => clauses_of_eq_ite (exec_smulp hrd hra ha)⟩

/-- `SSHLD` by value; R103 decides overflow by the count of limbs instead, see `shifted_lt_iff`. -/
theorem exec_sshld {s : State} {rd : RegField} {imm : Immediate} {a : ScaledValue} (hs : s.Inv) (hrd : rd.toNat < 8)
    (ha : s.scaledReg rd = some a) :
    exec (.sshld rd imm) s =
      if a.mag * 2 ^ (32 * imm.toNat) < 2 ^ (32 * s.config.sCap) then
        .next (s.wroteScaled rd (a.mag * 2 ^ (32 * imm.toNat)) a.sign)
      else .next (s.faulted .capacityOverflow [.scaled rd]) := by
  have ⟨hlen, hlast, _⟩ := hs.scaled rd a ha
  exact (legal_withScaled_some (regOk_of_lt hrd) ha _).trans (finishScaled_full (shiftLeftDigits_spec hlen hlast))

/-- The condition of R103 on the count of limbs is the one on the value: a canonical magnitude shifted left by whole
limbs fits exactly when it is zero or its limbs and the shift fit. -/
theorem shifted_lt_iff {l : List Digit} (hlast : l.getLast? ≠ some 0) (k cap : Nat) :
    limbsVal l * 2 ^ (32 * k) < 2 ^ (32 * cap) ↔ limbsVal l = 0 ∨ l.length + k ≤ cap := by
  constructor
  · intro hlt
    by_contra! hbig
    obtain ⟨hne, hcap⟩ := hbig
    have hnil : l ≠ [] := by rintro rfl; exact hne limbsVal_nil
    have hge : 2 ^ (32 * cap) ≤ limbsVal l * 2 ^ (32 * k) :=
      calc 2 ^ (32 * cap) ≤ 2 ^ (32 * (l.length - 1) + 32 * k) := Nat.pow_le_pow_right (by decide) (by omega)
        _ = 2 ^ (32 * (l.length - 1)) * 2 ^ (32 * k) := pow_add ..
        _ ≤ limbsVal l * 2 ^ (32 * k) := Nat.mul_le_mul_right _ (pow_le_limbsVal hnil hlast)
    exact absurd hlt (Nat.not_lt.mpr hge)
  · rintro (hzero | hfits)
    · rw [hzero, Nat.zero_mul]
      exact Nat.two_pow_pos _
    · calc limbsVal l * 2 ^ (32 * k)
          < 2 ^ (32 * l.length) * 2 ^ (32 * k) := Nat.mul_lt_mul_of_pos_right (limbsVal_lt l) (Nat.two_pow_pos _)
        _ = 2 ^ (32 * l.length + 32 * k) := (pow_add ..).symm
        _ ≤ 2 ^ (32 * cap) := Nat.pow_le_pow_right (by decide) (by omega)

/-- Settles O46: `exec_sshld` decides by value, which `shifted_lt_iff` turns into the count of limbs; `exec_sshrd` loses
what it drops. -/
theorem limbShifts : Obligations.LimbShifts := by
  intro rd imm s hs hrd
  have hok : regOk rd = true := regOk_of_lt hrd
  refine ⟨rfl, rfl, fun hreg => ⟨legal_withScaled_none hok hreg _, legal_withScaled_none hok hreg _⟩,
    fun a ha => ?_⟩
  have ⟨_, hlast, _⟩ := hs.scaled rd a ha
  have hiff : a.mag * 2 ^ (32 * imm.toNat) < 2 ^ (32 * s.config.sCap) ↔
      a.mag = 0 ∨ a.limbs.length + imm.toNat ≤ s.config.sCap := shifted_lt_iff hlast imm.toNat s.config.sCap
  obtain ⟨hfits, hover⟩ := clauses_of_eq_ite (exec_sshld (imm := imm) hs hrd ha)
  refine ⟨fun h => hfits (hiff.mpr h), fun ⟨hne, hcap⟩ => hover (Nat.not_lt.mp fun hlt => ?_), exec_sshrd hs hrd ha⟩
  exact (hiff.mp hlt).elim hne (Nat.not_le.mpr hcap)

/-! ### The quotient and the remainder -/

/-- `SDIVPR` by value: the source is read before the two writes, so either destination may be the source (R108). -/
theorem exec_sdivpr {s : State} {rd ra rb : RegField} {imm : Immediate} {a : ScaledValue} (hs : s.Inv)
    (hok : (regOk rd && regOk ra && regOk rb && rd != rb) = true) (ha : s.scaledReg ra = some a) :
    exec (.sdivpr rd ra rb imm) s =
      .next (((s.writeScaledNat rb (a.mag % 2 ^ imm.toNat) a.sign).writeScaledNat rd (a.mag / 2 ^ imm.toNat)
        a.sign).respond .ok 0) := by
  have hcan := hs.scaled ra a ha
  have ⟨(hrem : _ = a.mag % 2 ^ imm.toNat), _⟩ := modPow2_spec a.limbs imm.toNat
  have ⟨(hquot : _ = a.mag / 2 ^ imm.toNat), _⟩ := divPow2_spec a.limbs imm.toNat
  calc exec (.sdivpr rd ra rb imm) s
      = ((s.writeScaled rb (modPow2 a.limbs imm.toNat) a.sign).writeScaled rd (divPow2 a.limbs imm.toNat) a.sign).finish
          0 := legal_withScaled_some hok ha _
    _ = ((s.writeScaledNat rb (a.mag % 2 ^ imm.toNat) a.sign).writeScaled rd (divPow2 a.limbs imm.toNat) a.sign).finish
          0 := by rw [writeScaled_eq_nat_of_le hcan hrem (Nat.mod_le ..)]
    _ = .next ((s.writeScaledNat rb (a.mag % 2 ^ imm.toNat) a.sign).wroteScaled rd (a.mag / 2 ^ imm.toNat) a.sign) :=
        writeScaled_finish_of_le hcan hquot (Nat.div_le_self ..)

/-- The integer of the record of a magnitude and a sign: zero has none, so the sign given always applies (R20, R22). -/
theorem toInt_scaledOfNat {c : Config} {m : Nat} (hm : m < 2 ^ (32 * c.sCap)) (sg : Sign) :
    (scaledOfNat c m sg).toInt = if sg = .positive then (m : Int) else -m := by
  obtain ⟨hmag, hsign, -⟩ := scaledOfNat_spec hm sg
  by_cases hzero : m = 0
  · rw [toInt_positive (hsign.trans (if_pos hzero)), hmag, hzero]
    simp
  · rw [if_neg hzero] at hsign
    cases sg with
    | positive => rw [toInt_positive hsign, hmag, if_pos rfl]
    | negative => rw [toInt_negative hsign, hmag, if_neg (by decide)]

/-- The quotient and the remainder of a magnitude, each with the sign of the source, give back its integer (R108). -/
theorem toInt_quotient_add_remainder {c : Config} {a : ScaledValue} (ha : ScaledCanonical c.sCap a) (k : Nat) :
    (scaledOfNat c (a.mag / 2 ^ k) a.sign).toInt * 2 ^ k + (scaledOfNat c (a.mag % 2 ^ k) a.sign).toInt = a.toInt := by
  have hlt := mag_lt_of_scaledCanonical ha
  have hsum : ((a.mag / 2 ^ k : Nat) : Int) * 2 ^ k + ((a.mag % 2 ^ k : Nat) : Int) = a.mag := by
    exact_mod_cast Nat.div_add_mod' a.mag (2 ^ k)
  rw [toInt_scaledOfNat ((Nat.div_le_self ..).trans_lt hlt), toInt_scaledOfNat ((Nat.mod_le ..).trans_lt hlt)]
  cases hsign : a.sign with
  | positive => rw [if_pos rfl, if_pos rfl, toInt_positive hsign, hsum]
  | negative =>
    rw [if_neg (by decide), if_neg (by decide), toInt_negative hsign, ← hsum]
    ring

/-- Settles O48: the two writes of `exec_sdivpr` go to different registers, which hold the records of the quotient and
the remainder. -/
theorem sdivprQuotientAndRemainder : Obligations.SdivprQuotientAndRemainder := by
  intro rd ra rb imm s hs hrd hra hrb
  have hok (hne : rd ≠ rb) : (regOk rd && regOk ra && regOk rb && rd != rb) = true := by
    rw [regOk_three_of_lt hrd hra hrb, bne_iff_ne.mpr hne, Bool.and_self]
  refine ⟨rfl, fun heq => whenLegal_refused ?_ _, fun hne hreg => legal_withScaled_none (hok hne) hreg _,
    fun a hne ha => ?_⟩
  · rw [heq, bne_self_eq_false, Bool.and_false]
  · have hcan := hs.scaled ra a ha
    have hlt := mag_lt_of_scaledCanonical hcan
    obtain ⟨hquot, -, -⟩ := scaledOfNat_spec ((Nat.div_le_self a.mag (2 ^ imm.toNat)).trans_lt hlt) a.sign
    obtain ⟨hrem, -, -⟩ := scaledOfNat_spec ((Nat.mod_le a.mag (2 ^ imm.toNat)).trans_lt hlt) a.sign
    refine ⟨_, scaledOfNat s.config (a.mag / 2 ^ imm.toNat) a.sign, scaledOfNat s.config (a.mag % 2 ^ imm.toNat) a.sign,
      exec_sdivpr hs (hok hne) ha, rfl, ?_, ?_, hquot, hrem, ?_, toInt_quotient_add_remainder hcan imm.toNat⟩
    · exact scaledReg_wroteScaled hrd _ _
    · rw [respond_scaledReg, State.writeScaledNat, scaledReg_writeScaled_of_ne _ _ _ hne.symm]
      exact scaledReg_wroteScaled hrb _ _
    · rw [hquot, hrem, Nat.div_add_mod']

end Sys2Proof.Machine
end

section
/-! PROOFS. The ScaledInt decimal codec (spec/46_scaled_decimal.md rule R111): a digit accumulated into a `Positive`
register, and the refusals of `SDACC` in the order of R139, the register before the character. -/

namespace Sys2Proof.Machine

section Sdacc
variable {s : State} {rd : RegField} {a : ScaledValue} (hr : rd.toNat < 8) (ha : s.scaledReg rd = some a)
include hr ha

/-- `SDACC` of a `Positive` register with a `din` that is no digit (R111, R134). -/
theorem exec_sdacc_malformed (hpos : a.sign = .positive) (hdin : s.din.toNat < 0x30 ∨ 0x39 < s.din.toNat) :
    exec (.sdacc rd) s = .next (s.refusedWith .malformedInput) := by
  calc exec (.sdacc rd) s
      = s.whenPositive a (s.withDigit fun digit =>
          s.finishScaled rd ((scaledDigitStep s.config.sCap a.limbs digit).map (·, .positive))) :=
        legal_withScaled_some (regOk_of_lt hr) ha _
    _ = s.withDigit fun digit =>
          s.finishScaled rd ((scaledDigitStep s.config.sCap a.limbs digit).map (·, .positive)) :=
        whenPositive_positive hpos _
    _ = .next (s.refusedWith .malformedInput) := withDigit_malformed hdin _

/-- `SDACC` of a `Negative` register, whatever `din` is (R111, R139). -/
theorem exec_sdacc_negative (hneg : a.sign = .negative) :
    exec (.sdacc rd) s = .next (s.refusedWith .invalidOperand) :=
  (legal_withScaled_some (regOk_of_lt hr) ha _).trans (whenPositive_refused hneg _)

end Sdacc

/-- Settles O50: a digit by `exec_sdacc_digit`, any other `din` by `exec_sdacc_malformed`; an invalid or `Negative`
register is refused before `din` is looked at. -/
theorem sdaccAccumulatesADigit : Obligations.SdaccAccumulatesADigit := by
  intro rd s hs hr
  refine ⟨rfl, fun a ha hpos => ⟨fun digit hd hdin => ?_, exec_sdacc_malformed hr ha hpos⟩, fun hbad => ?_⟩
  · have ⟨hlen, _, _⟩ := hs.scaled rd a ha
    exact clauses_of_eq_ite (exec_sdacc_digit hr ha hpos hlen hd (eq_digitDin hd hdin))
  · rcases hbad with hreg | ⟨a, ha, hneg⟩
    · exact legal_withScaled_none (regOk_of_lt hr) hreg _
    · exact exec_sdacc_negative hr ha hneg

end Sys2Proof.Machine
end

section
/-! PROOFS. The fields of a float pattern (spec/47_float_codec.md rules R115 and R116), and the extraction of a pattern
into a register or its refusal (rules R117 to R122). -/

namespace Sys2Proof.Machine

/-! ### The fields -/

section Fields
variable (f : FloatFormat) (b : DataWord)

/-- The exponent field as a slice of the pattern (R115). -/
theorem exponentOf_eq_extractLsb' : f.exponentOf b = (b.extractLsb' f.mantissaBits f.exponentBits).toNat := by
  rw [BitVec.extractLsb'_toNat, Nat.shiftRight_eq_div_pow]
  rfl

/-- The mantissa field as a slice of the pattern (R115). -/
theorem mantissaOf_eq_extractLsb' : f.mantissaOf b = (b.extractLsb' 0 f.mantissaBits).toNat := by
  rw [BitVec.extractLsb'_toNat, Nat.shiftRight_zero]
  rfl

theorem unbiasedOf_eq_extractLsb' :
    f.unbiasedOf b = ((b.extractLsb' f.mantissaBits f.exponentBits).toNat : Int) - f.bias := by
  rw [FloatFormat.unbiasedOf, exponentOf_eq_extractLsb']

theorem significandOf_eq_extractLsb' :
    f.significandOf b = 2 ^ f.mantissaBits + (b.extractLsb' 0 f.mantissaBits).toNat := by
  rw [FloatFormat.significandOf, mantissaOf_eq_extractLsb']

theorem exponentOf_lt : f.exponentOf b < 2 ^ f.exponentBits := Nat.mod_lt _ (Nat.two_pow_pos _)

theorem mantissaOf_lt : f.mantissaOf b < 2 ^ f.mantissaBits := Nat.mod_lt _ (Nat.two_pow_pos _)

end Fields

/-- Settles O51: the slices of a pattern at the widths and the bias of each format. -/
theorem floatFieldsOfAPattern : Obligations.FloatFieldsOfAPattern := fun b =>
  ⟨rfl, exponentOf_eq_extractLsb' binary64 b, unbiasedOf_eq_extractLsb' binary64 b,
    significandOf_eq_extractLsb' binary64 b, rfl, exponentOf_eq_extractLsb' binary32 b,
    unbiasedOf_eq_extractLsb' binary32 b, significandOf_eq_extractLsb' binary32 b⟩

/-! ### Extraction -/

/-- The domain of the extraction (R119, R120). -/
theorem outOfDomain_iff {f : FloatFormat} {cap : Nat} {b : DataWord} : f.outOfDomain cap b = true ↔
    f.exponentOf b = 2 ^ f.exponentBits - 1 ∨ 32 * (cap : Int) ≤ f.unbiasedOf b + 64 := by
  rw [FloatFormat.outOfDomain, Bool.or_eq_true, beq_iff_eq, decide_eq_true_iff]

/-- The two endings of an extraction, with the exponent and the shift as parameters: the form of R121 and R122. -/
theorem extract_clauses (s : State) (f : FloatFormat) (rd : RegField) {e ts : Int} (he : e = f.unbiasedOf s.din)
    (hts : ts = f.shiftOf s.din) :
    (f.exponentOf s.din = 2 ^ f.exponentBits - 1 ∨ 32 * (s.config.sCap : Int) ≤ e + 64 →
      s.extract f rd = .next (s.faulted .domainError [.scaled rd])) ∧
    (f.exponentOf s.din ≠ 2 ^ f.exponentBits - 1 → e + 64 < 32 * (s.config.sCap : Int) →
      s.extract f rd = .next (s.wroteScaled rd
        (if 0 ≤ ts then f.significandOf s.din * 2 ^ ts.toNat else f.significandOf s.din / 2 ^ (-ts).toNat)
        (f.signOf s.din))) := by
  subst he hts
  rw [extract_eq]
  refine ⟨fun hout => if_pos (outOfDomain_iff.mpr hout), fun hE hlt => if_neg fun hout => ?_⟩
  exact (outOfDomain_iff.mp hout).elim hE (not_le.mpr hlt)

section Legal
variable {s : State} {rd : RegField} (hr : rd.toNat < 8)
include hr

/-- `SFROMD` has no check but that of its field (R121). -/
theorem exec_sfromd : exec (.sfromd rd) s = s.extract binary64 rd := by
  show s.whenLegal (regOk rd) _ = _
  rw [regOk_of_lt hr, whenLegal_true]

/-- `SFROMF` also asks for a 32-bit pattern (R122). -/
theorem exec_sfromf (hd : s.din.toNat < 2 ^ 32) : exec (.sfromf rd) s = s.extract binary32 rd := by
  show s.whenLegal (regOk rd && dinIs32 s.din) _ = _
  rw [regOk_of_lt hr, dinIs32_of_lt hd, Bool.and_self, whenLegal_true]

end Legal

/-- Settles O52: a legal `SFROMD` or `SFROMF` is the extraction in its format, whose endings `extract_clauses` gives. -/
theorem floatPatternsExtract : Obligations.FloatPatternsExtract := by
  intro rd s hr
  refine ⟨rfl, rfl, fun hd => whenLegal_refused ?_ _, fun e ts he hts => ?_, fun hd e ts he hts => ?_⟩
  · rw [dinIs32_of_le hd, Bool.and_false]
  · rw [exec_sfromd hr]
    exact extract_clauses s binary64 rd he (by rw [hts, he]; rfl)
  · rw [exec_sfromf hr hd]
    exact extract_clauses s binary32 rd he (by rw [hts, he]; rfl)

end Sys2Proof.Machine
end

section
/-! PROOFS. The rounding of a window (spec/47_float_codec.md rule R124): its fields, that it is to nearest with ties to
even, and that a window of at most `MB + 1` significant bits is not rounded. -/

namespace Sys2Proof.Machine

/-- What rounding and packing ask of a format (R115, R124): a mantissa field, exponent fields for every window
(`e` from −64 to 32), none of them all ones, and a pattern of at most 64 bits. -/
structure FloatFormat.HoldsWindows (f : FloatFormat) : Prop where
  mantissa_pos : 0 < f.mantissaBits
  bias_ge : 64 ≤ f.bias
  bias_lt : f.bias + 32 < 2 ^ f.exponentBits - 1
  width_le : f.mantissaBits + f.exponentBits + 1 ≤ 64

theorem binary64_holdsWindows : binary64.HoldsWindows := ⟨by decide, by decide, by decide, by decide⟩

theorem binary32_holdsWindows : binary32.HoldsWindows := ⟨by decide, by decide, by decide, by decide⟩

section Round
variable {f : FloatFormat} (hf : f.HoldsWindows) {w E F : Nat} (h0 : 0 < w) (hround : f.round w = (E, F))
include hf h0 hround

/-- `round_spec` in the fields of the pattern: the mantissa field leaves out the implicit bit of the significand. `v` is
the number read back. -/
theorem round_fields_spec :
    F < 2 ^ f.mantissaBits ∧ f.bias ≤ E + 64 ∧ bitlen w - 1 ≤ E + 64 - f.bias ∧ E + 64 - f.bias ≤ bitlen w ∧
    ∀ v : Nat, v = (2 ^ f.mantissaBits + F) * 2 ^ (E + 64 - f.bias) →
      2 * ((v : Int) - w * 2 ^ f.mantissaBits).natAbs ≤ 2 ^ (bitlen w - 1) ∧
      (2 * ((v : Int) - w * 2 ^ f.mantissaBits).natAbs = 2 ^ (bitlen w - 1) → F % 2 = 0) := by
  obtain ⟨q, E', hq, hlow, hhigh, hbias, hexp, hnear, htie⟩ := round_spec f hf.bias_ge w h0
  obtain ⟨rfl, rfl⟩ := Prod.mk.inj (hq.symm.trans hround)
  refine ⟨by rw [pow_succ] at hhigh; omega, hbias, by omega, by omega, fun v hv => ?_⟩
  rw [Nat.add_sub_cancel' hlow] at hv
  subst hv
  refine ⟨hnear, fun hhalf => ?_⟩
  have hq2 : q % 2 = 0 := (htie hhalf).resolve_right hf.mantissa_pos.ne'
  have himplicit : 2 ^ f.mantissaBits % 2 = 0 := Nat.mod_eq_zero_of_dvd (dvd_pow_self 2 hf.mantissa_pos.ne')
  omega

/-- The ranges of the two fields (R124). -/
theorem round_fields_range (hw : w < 2 ^ 96) : F < 2 ^ f.mantissaBits ∧ f.bias ≤ E + 64 ∧ E ≤ f.bias + 32 := by
  obtain ⟨hF, hbias, -, hexp, -⟩ := round_fields_spec hf h0 hround
  have hbits := bitlen_le hw h0
  exact ⟨hF, hbias, by omega⟩

omit hf hround in
/-- A window of at most `M + 1` significant bits is a multiple of the unit of the last place. -/
theorem unit_dvd_window {M sig k : Nat} (hsig : sig < 2 ^ (M + 1)) (hw : w = sig * 2 ^ k) :
    2 ^ (bitlen w - 1) ∣ w * 2 ^ M := by
  obtain ⟨hlow, -⟩ := bitlen_bounds h0
  have hlt : 2 ^ (bitlen w - 1) < 2 ^ (M + 1 + k) :=
    calc 2 ^ (bitlen w - 1) ≤ sig * 2 ^ k := hlow.trans hw.le
      _ < 2 ^ (M + 1) * 2 ^ k := Nat.mul_lt_mul_of_pos_right hsig (Nat.two_pow_pos k)
      _ = 2 ^ (M + 1 + k) := (pow_add ..).symm
  have hexp := (Nat.pow_lt_pow_iff_right (by decide)).mp hlt
  have hscaled : w * 2 ^ M = sig * 2 ^ (k + M) := by rw [hw, Nat.mul_assoc, ← pow_add]
  rw [hscaled]
  exact (pow_dvd_pow 2 (by omega)).mul_left sig

/-- A window of at most `MB + 1` significant bits is not rounded (R124): it and the number read back are multiples of
one unit and differ by at most half of it. -/
theorem round_exact {sig k : Nat} (hsig : sig < 2 ^ (f.mantissaBits + 1)) (hw : w = sig * 2 ^ k) :
    (2 ^ f.mantissaBits + F) * 2 ^ (E + 64 - f.bias) = w * 2 ^ f.mantissaBits := by
  obtain ⟨-, -, hexp, -, hvalue⟩ := round_fields_spec hf h0 hround
  obtain ⟨hnear, -⟩ := hvalue _ rfl
  have hread : 2 ^ (bitlen w - 1) ∣ (2 ^ f.mantissaBits + F) * 2 ^ (E + 64 - f.bias) :=
    (pow_dvd_pow 2 hexp).mul_left _
  have hdvd := dvd_sub (Int.natCast_dvd_natCast.mpr hread) (Int.natCast_dvd_natCast.mpr (unit_dvd_window h0 hsig hw))
  have hunit : 0 < 2 ^ (bitlen w - 1) := Nat.two_pow_pos _
  refine Int.ofNat_inj.mp (Int.sub_eq_zero.mp (Int.eq_zero_of_dvd_of_natAbs_lt_natAbs hdvd ?_))
  rw [Int.natAbs_natCast]
  push_cast at hnear ⊢
  omega

end Round

/-- Settles O54: `round_fields_spec`, the ranges of its fields, and `round_exact`. -/
theorem roundIsToNearestEven : Obligations.RoundIsToNearestEven := by
  intro f hmem w E F h0 hw hround
  have hf : f.HoldsWindows := by
    simp only [List.mem_cons, List.not_mem_nil, or_false] at hmem
    rcases hmem with rfl | rfl
    · exact binary64_holdsWindows
    · exact binary32_holdsWindows
  obtain ⟨hF, hlow, hhigh⟩ := round_fields_range hf h0 hround hw
  obtain ⟨-, -, -, -, hvalue⟩ := round_fields_spec hf h0 hround
  refine ⟨hF, hlow, hhigh, fun v hv => ?_⟩
  obtain ⟨hnear, htie⟩ := hvalue v hv
  exact ⟨hnear, htie, fun sig k hsig hsk => hv.trans (round_exact hf h0 hround hsig hsk)⟩

end Sys2Proof.Machine
end

section
/-! PROOFS. The pattern a register reads as (spec/47_float_codec.md rules R123, R125 and R126). -/

namespace Sys2Proof.Machine

/-- The bit of a sign, as R125 writes it. -/
theorem bit_eq_ite (sg : Sign) : sg.bit = if sg = .negative then 1 else 0 := by cases sg <;> rfl

section Assemble
variable {f : FloatFormat} (hf : f.HoldsWindows)
include hf

/-- Fields in their ranges are packed without overlap. -/
theorem assemble_toNat {E F : Nat} (hE : E < 2 ^ f.exponentBits) (hF : F < 2 ^ f.mantissaBits) (sg : Sign) :
    (f.assemble sg E F).toNat = sg.bit * 2 ^ (f.mantissaBits + f.exponentBits) + E * 2 ^ f.mantissaBits + F := by
  have hlow : E * 2 ^ f.mantissaBits + F < 2 ^ (f.mantissaBits + f.exponentBits) :=
    calc E * 2 ^ f.mantissaBits + F < E * 2 ^ f.mantissaBits + 2 ^ f.mantissaBits := Nat.add_lt_add_left hF _
      _ = (E + 1) * 2 ^ f.mantissaBits := (Nat.succ_mul ..).symm
      _ ≤ 2 ^ f.exponentBits * 2 ^ f.mantissaBits := Nat.mul_le_mul_right _ hE
      _ = 2 ^ (f.mantissaBits + f.exponentBits) := by rw [← pow_add, Nat.add_comm]
  have hbit : sg.bit ≤ 1 := by cases sg <;> decide
  have hsign := Nat.mul_le_mul_right (2 ^ (f.mantissaBits + f.exponentBits)) hbit
  have hwidth : 2 ^ (f.mantissaBits + f.exponentBits + 1) ≤ 2 ^ 64 := Nat.pow_le_pow_right (by decide) hf.width_le
  rw [pow_succ] at hwidth
  rw [FloatFormat.assemble, BitVec.toNat_ofNat, Nat.mod_eq_of_lt (by omega)]

/-- The pattern of a register as R125 and R126 compute it. -/
theorem patternOf_toNat (a : ScaledValue) : (f.patternOf a).toNat =
    if a.mag % 2 ^ 96 = 0 then a.sign.bit * 2 ^ (f.mantissaBits + f.exponentBits)
    else a.sign.bit * 2 ^ (f.mantissaBits + f.exponentBits) + (f.round (a.mag % 2 ^ 96)).1 * 2 ^ f.mantissaBits +
      (f.round (a.mag % 2 ^ 96)).2 := by
  rw [FloatFormat.patternOf, windowOf_eq, ← ScaledValue.mag]
  by_cases hzero : a.mag % 2 ^ 96 = 0
  · rw [if_pos hzero, if_pos hzero, assemble_toNat hf (Nat.two_pow_pos _) (Nat.two_pow_pos _), Nat.zero_mul,
      Nat.add_zero]
  · rw [if_neg hzero, if_neg hzero]
    obtain ⟨E, F, hround⟩ : ∃ E F, f.round (a.mag % 2 ^ 96) = (E, F) := ⟨_, _, rfl⟩
    obtain ⟨hF, -, hE⟩ := round_fields_range hf (Nat.pos_of_ne_zero hzero) hround (Nat.mod_lt _ (Nat.two_pow_pos 96))
    have hbias := hf.bias_lt
    rw [hround]
    exact assemble_toNat hf (by omega) hF a.sign

end Assemble

section Source
variable {s : State} {ra : RegField} {a : ScaledValue} (hr : ra.toNat < 8) (ha : s.scaledReg ra = some a)
include hr ha

theorem exec_stod : exec (.stod ra) s = .next (s.respond .ok (binary64.patternOf a)) :=
  legal_withScaled_some (regOk_of_lt hr) ha _

theorem exec_stof : exec (.stof ra) s = .next (s.respond .ok (binary32.patternOf a)) :=
  legal_withScaled_some (regOk_of_lt hr) ha _

end Source

/-- Settles O53: the check of the valid bit (R53), then the pattern of the register by `patternOf_toNat`. -/
theorem floatPatternsAssemble : Obligations.FloatPatternsAssemble := by
  intro ra s hr
  have hok : regOk ra = true := regOk_of_lt hr
  refine ⟨rfl, rfl, fun hreg => ⟨legal_withScaled_none hok hreg _, legal_withScaled_none hok hreg _⟩,
    fun a w sgn ha hw hsgn => ?_⟩
  rw [← bit_eq_ite] at hsgn
  subst hw hsgn
  exact ⟨⟨_, exec_stod hr ha, patternOf_toNat binary64_holdsWindows a⟩,
    ⟨_, exec_stof hr ha, patternOf_toNat binary32_holdsWindows a⟩⟩

end Sys2Proof.Machine
end

section
/-! PROOFS. The round trip of a pattern (spec/47_float_codec.md rule R127): the magnitude of a pattern that loses no bit
is a number of at most `MB + 1` bits times a power of two, so its rounding is exact, and the normalized form of a number
is unique. -/

namespace Sys2Proof.Machine

/-! ### The fields put together again -/

theorem signOf_bit (f : FloatFormat) (b : DataWord) :
    (f.signOf b).bit = b.toNat / 2 ^ (f.mantissaBits + f.exponentBits) % 2 := by
  rw [FloatFormat.signOf, BitVec.getLsbD, Nat.testBit_eq_decide_div_mod_eq]
  rcases Nat.mod_two_eq_zero_or_one (b.toNat / 2 ^ (f.mantissaBits + f.exponentBits)) with h | h <;> rw [h] <;> rfl

/-- A pattern is made of its three fields. -/
theorem assemble_fields {f : FloatFormat} (hf : f.HoldsWindows) {b : DataWord}
    (hb : b.toNat < 2 ^ (f.mantissaBits + f.exponentBits + 1)) :
    f.assemble (f.signOf b) (f.exponentOf b) (f.mantissaOf b) = b := by
  refine BitVec.eq_of_toNat_eq ?_
  have htop : b.toNat / 2 ^ (f.mantissaBits + f.exponentBits) < 2 := Nat.div_lt_of_lt_mul (by rwa [← pow_succ])
  have hexp : b.toNat / 2 ^ (f.mantissaBits + f.exponentBits) * 2 ^ f.exponentBits + f.exponentOf b =
      b.toNat / 2 ^ f.mantissaBits := by
    rw [pow_add, ← Nat.div_div_eq_div_mul]
    exact Nat.div_add_mod' ..
  rw [assemble_toNat hf (exponentOf_lt f b) (mantissaOf_lt f b), signOf_bit, Nat.mod_eq_of_lt htop]
  calc b.toNat / 2 ^ (f.mantissaBits + f.exponentBits) * 2 ^ (f.mantissaBits + f.exponentBits) +
        f.exponentOf b * 2 ^ f.mantissaBits + f.mantissaOf b
      = (b.toNat / 2 ^ (f.mantissaBits + f.exponentBits) * 2 ^ f.exponentBits + f.exponentOf b) * 2 ^ f.mantissaBits +
        f.mantissaOf b := by ring
    _ = b.toNat / 2 ^ f.mantissaBits * 2 ^ f.mantissaBits + f.mantissaOf b := by rw [hexp]
    _ = b.toNat := Nat.div_add_mod' ..

/-! ### Patterns whose value is exact in the window -/

/-- The condition of R127: the highest bit in the window, and no significand bit below it. -/
structure FloatFormat.ExactInWindow (f : FloatFormat) (b : DataWord) : Prop where
  low : -64 ≤ f.unbiasedOf b
  high : f.unbiasedOf b ≤ 31
  trailing : f.shiftOf b < 0 → 2 ^ (-f.shiftOf b).toNat ∣ f.significandOf b

section Exact
variable {f : FloatFormat} {b : DataWord} (h : f.ExactInWindow b)
include h

/-- The magnitude is exactly the number the pattern denotes, in Q64 (R117, R118). -/
theorem magnitudeOf_exact :
    f.magnitudeOf b * 2 ^ f.mantissaBits = f.significandOf b * 2 ^ (f.unbiasedOf b + 64).toNat := by
  have hlow := h.low
  have hshift : f.shiftOf b = f.unbiasedOf b + (64 - f.mantissaBits) := rfl
  rw [FloatFormat.magnitudeOf]
  split
  · next hleft =>
    have hexp : (f.shiftOf b).toNat + f.mantissaBits = (f.unbiasedOf b + 64).toNat := by omega
    rw [Nat.mul_assoc, ← pow_add, hexp]
  · next hright =>
    have hmantissa : f.mantissaBits = (-f.shiftOf b).toNat + (f.unbiasedOf b + 64).toNat := by omega
    rw [congrArg (2 ^ ·) hmantissa, pow_add, ← Nat.mul_assoc, Nat.div_mul_cancel (h.trailing (by omega))]

omit h in
/-- A magnitude has no more significant bits than the significand. -/
theorem magnitudeOf_eq_mul_pow (f : FloatFormat) (b : DataWord) :
    ∃ sig k, sig < 2 ^ (f.mantissaBits + 1) ∧ f.magnitudeOf b = sig * 2 ^ k := by
  obtain ⟨-, hsig⟩ := significandOf_bounds f b
  rw [FloatFormat.magnitudeOf]
  split
  · exact ⟨_, _, hsig, rfl⟩
  · exact ⟨_, 0, (Nat.div_le_self ..).trans_lt hsig, (Nat.mul_one _).symm⟩

theorem magnitudeOf_pos : 0 < f.magnitudeOf b := by
  obtain ⟨hsig, -⟩ := significandOf_bounds f b
  refine Nat.pos_of_mul_pos_right (b := 2 ^ f.mantissaBits) ?_
  rw [magnitudeOf_exact h]
  exact Nat.mul_pos ((Nat.two_pow_pos _).trans_le hsig) (Nat.two_pow_pos _)

theorem magnitudeOf_lt_window : f.magnitudeOf b < 2 ^ 96 :=
  magnitudeOf_lt f b 96 (by have := h.high; push_cast; omega)

/-- Rounding the magnitude gives back the fields of the pattern: both are the normalized form of one number. -/
theorem round_magnitudeOf (hf : f.HoldsWindows) : f.round (f.magnitudeOf b) = (f.exponentOf b, f.mantissaOf b) := by
  obtain ⟨E, F, hround⟩ : ∃ E F, f.round (f.magnitudeOf b) = (E, F) := ⟨_, _, rfl⟩
  have hpos := magnitudeOf_pos h
  obtain ⟨sig, k, hsig, hmag⟩ := magnitudeOf_eq_mul_pow f b
  obtain ⟨hF, hbias, -⟩ := round_fields_range hf hpos hround (magnitudeOf_lt_window h)
  obtain ⟨hlow, hhigh⟩ := significandOf_bounds f b
  obtain ⟨hexp, hsignificand⟩ := normalized_unique (Nat.le_add_right _ F) (by rw [pow_succ]; omega) hlow hhigh
    ((round_exact hf hpos hround hsig hmag).trans (magnitudeOf_exact h))
  have hE : E = f.exponentOf b := by
    have hunbiased : f.unbiasedOf b = (f.exponentOf b : Int) - f.bias := rfl
    have := h.low
    omega
  have hmantissa : F = f.mantissaOf b := Nat.add_left_cancel hsignificand
  rw [hround, hE, hmantissa]

/-- The register of the pattern's magnitude and sign reads as the pattern. -/
theorem patternOf_scaledOfNat (hf : f.HoldsWindows) (hb : b.toNat < 2 ^ (f.mantissaBits + f.exponentBits + 1))
    (c : Config) : f.patternOf (scaledOfNat c (f.magnitudeOf b) (f.signOf b)) = b := by
  have hpos := magnitudeOf_pos h
  have hwindow := magnitudeOf_lt_window h
  have hcap := c.sCap_ge
  obtain ⟨hmag, hsign, -⟩ := scaledOfNat_spec (c := c)
    (hwindow.trans_le (Nat.pow_le_pow_right (by decide) (by omega))) (f.signOf b)
  rw [FloatFormat.patternOf, windowOf_eq, ← ScaledValue.mag, hmag, hsign, Nat.mod_eq_of_lt hwindow, if_neg hpos.ne',
    if_neg hpos.ne', round_magnitudeOf h hf]
  exact assemble_fields hf hb

end Exact

/-- The extraction of a pattern exact in the window leaves a register that reads as the pattern. -/
theorem extract_reads_back {s : State} {f : FloatFormat} {rd : RegField} (hr : rd.toNat < 8) (hf : f.HoldsWindows)
    (hb : s.din.toNat < 2 ^ (f.mantissaBits + f.exponentBits + 1)) (h : f.ExactInWindow s.din) :
    ∃ t a, s.extract f rd = .next t ∧ t.scaledReg rd = some a ∧ f.patternOf a = s.din := by
  have hin : ¬f.outOfDomain s.config.sCap s.din = true := by
    have hcap := s.config.sCap_ge
    have hbias := hf.bias_lt
    have hhigh := h.high
    have hunbiased : f.unbiasedOf s.din = (f.exponentOf s.din : Int) - f.bias := rfl
    rw [outOfDomain_iff]
    omega
  exact ⟨_, _, (extract_eq s f rd).trans (if_neg hin), scaledReg_wroteScaled hr _ _,
    patternOf_scaledOfNat h hf hb s.config⟩

/-- Settles O55: by `extract_reads_back` in each format. -/
theorem floatPatternsRoundTrip : Obligations.FloatPatternsRoundTrip := by
  intro rd s hr
  refine ⟨fun hlow hhigh htrailing => ?_, fun hd hlow hhigh htrailing => ?_⟩
  · obtain ⟨t, a, ht, ha, hpattern⟩ :=
      extract_reads_back hr binary64_holdsWindows s.din.isLt ⟨hlow, hhigh, htrailing⟩
    exact ⟨t, (exec_sfromd hr).trans ht, hpattern ▸ exec_stod hr ha⟩
  · obtain ⟨t, a, ht, ha, hpattern⟩ := extract_reads_back hr binary32_holdsWindows hd ⟨hlow, hhigh, htrailing⟩
    exact ⟨t, (exec_sfromf hr hd).trans ht, hpattern ▸ exec_stof hr ha⟩

end Sys2Proof.Machine
end

section
/-! PROOFS. The system commands (spec/48_system.md rules R129 and R130), the example words of the spec
(spec/30_encoding.md rule R42), and the step without a transaction (notes/assumptions/3.md). -/

namespace Sys2Proof.Machine

/-- `CFG` as a number: every parameter fits its byte (R9, R27). -/
theorem configWord_toNat (c : Config) :
    (configWord c).toNat = 8 + c.sCap * 2 ^ 8 + 8 * 2 ^ 16 + 8 * 2 ^ 24 + 2 * 2 ^ 32 + 155 * 2 ^ 40 := by
  have hcap := c.sCap_le
  rw [configWord, BitVec.toNat_ofNat]
  exact Nat.mod_eq_of_lt (by simp only [Config.wCap, Config.nW, Config.nS, Config.scaleLimbs, Config.dCap]; omega)

/-- The `n` bits of `CFG` from bit `k` on. -/
theorem configWord_field (c : Config) (k n : Nat) : ((configWord c).extractLsb' k n).toNat =
    (8 + c.sCap * 2 ^ 8 + 8 * 2 ^ 16 + 8 * 2 ^ 24 + 2 * 2 ^ 32 + 155 * 2 ^ 40) / 2 ^ k % 2 ^ n := by
  rw [BitVec.extractLsb'_toNat, Nat.shiftRight_eq_div_pow, configWord_toNat]

/-- Settles O24: the fields are read off the number of `CFG` (`configWord_field`). -/
theorem rdcfgReadsTheParameters : Obligations.RdcfgReadsTheParameters := by
  refine ⟨rfl, fun s => ⟨configWord s.config, rfl, ?_⟩⟩
  have hcap := s.config.sCap_le
  simp only [configWord_field]
  refine ⟨by omega, by omega, by omega, by omega, by omega, by omega, by omega, fun hsix => ?_⟩
  refine BitVec.eq_of_toNat_eq ?_
  rw [configWord_toNat, hsix]
  rfl
/-- Settles O25: a word of five bits, zero-extended, holds them in its low bits and nothing above. -/
theorem rdflagsReadsTheFlags : Obligations.RdflagsReadsTheFlags := by
  refine ⟨rfl, fun s => ⟨s.flags.setWidth 64, rfl, ?_⟩⟩
  have hlt := s.flags.isLt
  have hfield (k n : Nat) : ((s.flags.setWidth 64).extractLsb' k n).toNat = s.flags.toNat / 2 ^ k % 2 ^ n := by
    rw [BitVec.extractLsb'_toNat, Nat.shiftRight_eq_div_pow, BitVec.toNat_setWidth_of_le (by decide)]
  refine ⟨BitVec.eq_of_toNat_eq ?_, BitVec.eq_of_toNat_eq ?_⟩
  · rw [hfield, pow_zero, Nat.div_one, Nat.mod_eq_of_lt hlt]
  · rw [hfield, Nat.div_eq_of_lt hlt]
    rfl

/-- The word of a command decodes to it. -/
theorem decode_of_encode_eq {i : Instr} {cmd : CommandWord} (h : encode i = cmd) : decode cmd = .ok i :=
  h ▸ decodeOfEncode i

/-- Settles O4: each word is the word of its command (`decodeOfEncode`). -/
theorem wordsOfTheSpecDecode : Obligations.WordsOfTheSpecDecode :=
  ⟨decode_of_encode_eq rfl, decode_of_encode_eq rfl, decode_of_encode_eq rfl, decode_of_encode_eq rfl,
    decode_of_encode_eq rfl, decode_of_encode_eq rfl, decode_of_encode_eq rfl, decode_of_encode_eq rfl,
    decode_of_encode_eq rfl, decode_of_encode_eq rfl, decode_of_encode_eq rfl, decode_of_encode_eq rfl⟩

/-- Settles O10: by the first arm of `takeAction`. -/
theorem idleStep : Obligations.IdleStep := by
  intro s hidle
  rw [step, takeAction, hidle]

end Sys2Proof.Machine
end

section
/-! PROOFS. The refusals and the faults (spec/60_exceptions.md rules R136 to R138), read off everything a command can do
(`exec_ends`): which state a refused command leaves, and what a fault changes. -/

namespace Sys2Proof.Machine

/-- Every command answers a next state (R131, R153). -/
theorem exec_next (i : Instr) (s : State) : ∃ t, exec i s = .next t := by
  have hends := exec_ends i s
  generalize exec i s = r at hends ⊢
  cases hends <;> exact ⟨_, rfl⟩

/-- Settles O13: by the kinds of the host's next action; a command answers by `exec_next`. -/
theorem everyStepAnswersNext : Obligations.EveryStepAnswersNext := by
  intro s
  rw [step, takeAction]
  split
  · exact ⟨_, rfl⟩
  · exact ⟨_, rfl⟩
  · next cmd din rest _ =>
    rw [runWord]
    split
    · exact exec_next _ _
    · exact ⟨_, rfl⟩

/-- A command that is not legal is refused (R136). -/
theorem exec_of_not_legal {i : Instr} {s : State} (h : i.legal s.config s.din = false) :
    exec i s = .next (s.refusedWith .illegalCommand) := by
  have hends := exec_ends i s
  generalize exec i s = r at hends ⊢
  cases hends with
  | illegal => rw [faulted_eq_refusedWith rfl]
  | unusable hl | malformed hl | outOfDomain hl | overflow hl | done _ _ hl => simp [h] at hl

/-- A legal command with an operand it cannot use is refused (R138). -/
theorem exec_of_not_usable {i : Instr} {s : State} (h : i.legal s.config s.din = true)
    (hu : operandsUsable i s = false) : exec i s = .next (s.refusedWith .invalidOperand) := by
  have hends := exec_ends i s
  generalize exec i s = r at hends ⊢
  cases hends with
  | illegal hl => simp [h] at hl
  | unusable => rw [faulted_eq_refusedWith rfl]
  | malformed _ hu' | outOfDomain _ hu' | overflow _ hu' | done _ _ _ hu' => simp [hu] at hu'

/-- A legal command does not end `ILLEGAL_COMMAND`. -/
theorem response_ne_illegal {i : Instr} {s t : State} (h : Ends i s (.next t)) (hl : i.legal s.config s.din = true) :
    t.response ≠ some ⟨.raised .illegalCommand, 0⟩ := by
  cases h with
  | illegal hl' => simp [hl] at hl'
  | unusable | malformed | outOfDomain | overflow | done => simp

/-- A legal command that can use its operands does not end `INVALID_OPERAND`. -/
theorem response_ne_invalidOperand {i : Instr} {s t : State} (h : Ends i s (.next t))
    (hl : i.legal s.config s.din = true) (hu : operandsUsable i s = true) :
    t.response ≠ some ⟨.raised .invalidOperand, 0⟩ := by
  cases h with
  | illegal hl' => simp [hl] at hl'
  | unusable _ hu' => simp [hu] at hu'
  | malformed | outOfDomain | overflow | done => simp

/-- Settles O19: by `exec_of_not_usable` and `response_ne_invalidOperand`. -/
theorem unusableOperandIsRefused : Obligations.UnusableOperandIsRefused := by
  refine fun i s hl => ⟨fun hu => exec_of_not_usable hl hu, fun hu => ?_⟩
  obtain ⟨t, ht⟩ := exec_next i s
  exact ⟨t, ht, response_ne_invalidOperand (ht ▸ exec_ends i s) hl hu⟩

/-- A transaction whose pair is not a command of the core is refused, whether the decoder or the command finds it
(R45, R49, R136). -/
theorem step_of_not_isCommand {s : State} {cmd : CommandWord} {din : DataWord} {rest : List HostAction}
    (h : isCommand s.config cmd din = false) :
    step (s.issuing cmd din rest) = .next ((s.executing din rest).refusedWith .illegalCommand) := by
  rw [step_issuing, runWord]
  rw [isCommand] at h
  cases hd : decode cmd with
  | error e => exact congrArg Host.Outcome.next (faulted_eq_refusedWith rfl [])
  | ok i =>
    rw [hd] at h
    exact exec_of_not_legal h

/-- A transaction whose pair is a command of the core does not end `ILLEGAL_COMMAND` (R136). -/
theorem step_of_isCommand {s : State} {cmd : CommandWord} {din : DataWord} {rest : List HostAction}
    (h : isCommand s.config cmd din = true) : ∃ t, step (s.issuing cmd din rest) = .next t ∧
      t.response ≠ some ⟨.raised .illegalCommand, 0⟩ := by
  rw [isCommand] at h
  split at h
  · next i hd =>
    obtain ⟨t, ht⟩ := exec_next i (s.executing din rest)
    exact ⟨t, (stepRunsTheDecodedCommand s cmd din rest i hd).trans ht, response_ne_illegal (ht ▸ exec_ends ..) h⟩
  · cases h

/-- Settles O7: by `step_of_isCommand` and `step_of_not_isCommand`. -/
theorem illegalCommandIsRefused : Obligations.IllegalCommandIsRefused := by
  intro s cmd din rest
  cases h : isCommand s.config cmd din with
  | true =>
    obtain ⟨t, ht, hne⟩ := step_of_isCommand (rest := rest) h
    exact ⟨t, ht, iff_of_false hne nofun, nofun⟩
  | false => exact ⟨_, step_of_not_isCommand h, iff_of_true rfl rfl, fun _ => rfl⟩

/-- The classes that invalidate are an overflow and a domain error (R137). -/
theorem invalidates_iff (f : FaultClass) : f.invalidates = true ↔ f = .capacityOverflow ∨ f = .domainError := by
  cases f <;> decide

/-- A command that ends with a fault has raised it, and names its destinations if the fault invalidates (R137). -/
theorem faulted_of_response {i : Instr} {s t : State} {f : FaultClass} {d : DataWord} (h : Ends i s (.next t))
    (hr : t.response = some ⟨.raised f, d⟩) :
    ∃ dests, t = s.faulted f dests ∧ d = 0 ∧ (f.invalidates = true → dests = destsOf i) := by
  cases h with
  | illegal | unusable | malformed => cases hr; exact ⟨[], rfl, rfl, nofun⟩
  | outOfDomain | overflow => cases hr; exact ⟨destsOf i, rfl, rfl, fun _ => rfl⟩
  | done => cases hr

/-- Settles O15: a fault is raised by `State.faulted` (`faulted_of_response`), whose effect on each field is known. -/
theorem raiseEffect : Obligations.RaiseEffect := by
  intro i s t f d h hr
  obtain ⟨dests, rfl, rfl, hdests⟩ := faulted_of_response (h ▸ exec_ends i s) hr
  have hclear (x : Dest) : (f.invalidates = true ∧ x ∈ dests) ↔
      (f = .capacityOverflow ∨ f = .domainError) ∧ x ∈ destsOf i := by
    rw [← invalidates_iff]
    exact and_congr_right fun hf => by rw [hdests hf]
  refine ⟨rfl, setSticky_eq s.flags f, fun r => ?_, fun r => ?_, faulted_digits .., faulted_config ..,
    faulted_host .., faulted_din ..⟩
  · simp only [faulted_wideReg, hclear]
  · simp only [faulted_scaledReg, hclear]

end Sys2Proof.Machine
end

section
/-! PROOFS. The status of every command (spec/60_exceptions.md rule R139): the refusals are read off everything a
command can do (`exec_ends`), and a command that passes every check overflows exactly where its result, by value, is
too large (rule R133). -/

namespace Sys2Proof.Machine

/-- The result is a next state whose response has this status. -/
def HasStatus (r : Result) (st : Status) : Prop := ∃ t d, r = .next t ∧ t.response = some ⟨st, d⟩

/-- The status of a command that passes every check, by whether its result is too large (R133). -/
def overflowStatus (tooLarge : Bool) : Status := if tooLarge then .raised .capacityOverflow else .ok

/-! ### The endings -/

section Endings
variable {s : State} {rd : RegField}

theorem hasStatus_finish (d : DataWord) : HasStatus (s.finish d) .ok := ⟨_, d, rfl, rfl⟩

/-- An ending decided by a limit on the value of the result has the status of that decision. -/
theorem hasStatus_of_eq_ite {r : Result} {t t' : State} {n limit : Nat} {d d' : DataWord}
    (h : r = if n < limit then .next t else .next t') (ht : t.response = some ⟨.ok, d⟩)
    (ht' : t'.response = some ⟨.raised .capacityOverflow, d'⟩) :
    HasStatus r (overflowStatus (decide (limit ≤ n))) := by
  rcases Nat.lt_or_ge n limit with hlt | hge
  · rw [decide_eq_false (Nat.not_le.mpr hlt)]
    exact ⟨t, d, h.trans (if_pos hlt), ht⟩
  · rw [decide_eq_true hge]
    exact ⟨t', d', h.trans (if_neg (Nat.not_lt.mpr hge)), ht'⟩

/-- The limit in the form `resultOverflows` writes it. -/
theorem hasStatus_finishWide {o : Option (List WideLimb)} {n : Nat} (h : Answers o n) :
    HasStatus (s.finishWide rd o) (overflowStatus (decide (2 ^ (Config.limbW * Config.wCap) ≤ n))) := by
  rw [show Config.limbW * Config.wCap = 512 from rfl]
  exact hasStatus_of_eq_ite h.finishWide rfl rfl

theorem hasStatus_finishScaled {o : Option (List Digit)} {n : Nat} {sg : Sign}
    (h : match o with
      | some r => limbsVal r = n ∧ r.length ≤ s.config.sCap
      | none => 2 ^ (32 * s.config.sCap) ≤ n) :
    HasStatus (s.finishScaled rd (o.map (·, sg))) (overflowStatus (decide (2 ^ (32 * s.config.sCap) ≤ n))) :=
  hasStatus_of_eq_ite (finishScaled_full h) rfl rfl

theorem hasStatus_signedAdd {a b : ScaledValue} (ha : ScaledCanonical s.config.sCap a)
    (hlen : b.limbs.length ≤ s.config.sCap) (hlast : b.limbs.getLast? ≠ some 0) :
    HasStatus (s.finishScaled rd (signedAdd s.config.sCap a b))
      (overflowStatus (decide (2 ^ (32 * s.config.sCap) ≤ (a.toInt + b.toInt).natAbs))) :=
  hasStatus_of_eq_ite (finishScaled_signedAdd ha hlen hlast) rfl rfl

theorem hasStatus_mulMag {k : Nat} {a b : ScaledValue} {sg : Sign} (hb : ScaledCanonical s.config.sCap b) :
    HasStatus (s.finishScaled rd ((mulMag s.config.sCap a.limbs b.limbs).map fun p => (p.drop k, sg)))
      (overflowStatus (decide (2 ^ (32 * (s.config.sCap - 1)) ≤ a.mag * b.mag))) :=
  have ⟨hlen, _, _⟩ := hb
  hasStatus_of_eq_ite (finishScaled_mulMag (hlen.trans s.config.sCap_le)) rfl rfl

end Endings

/-! ### The values of the operands -/

section Values
variable {s : State} {r : RegField}

theorem wideNat_of_some {a : List WideLimb} (h : s.wideReg r = some a) : s.wideNat r = wval a := by
  rw [State.wideNat, h]

theorem scaledMag_of_some {a : ScaledValue} (h : s.scaledReg r = some a) : s.scaledMag r = a.mag := by
  rw [State.scaledMag, h]

theorem scaledInt_of_some {a : ScaledValue} (h : s.scaledReg r = some a) : s.scaledInt r = a.toInt := by
  rw [State.scaledInt, h]

end Values

/-! ### The checks passed -/

/-- The command passes the checks of R53 and R139: it is legal, and it can use its operands and its input. -/
structure Passes (i : Instr) (s : State) : Prop where
  legal : i.legal s.config s.din = true
  usable : operandsUsable i s = true
  input : inputFault i s = none

section Checks
variable {i : Instr} {s : State} {st : Status} (h : Passes i s)
include h

theorem Passes.sources {x : Dest} (hx : x ∈ sourcesOf i) : s.valid x = true := by
  by_contra hv
  exact absurd h.usable (by simp [unusable_of_invalid hx (Bool.eq_false_of_not_eq_true hv)])

theorem Passes.restriction : restrictionHolds i s = true := by
  have hu := h.usable
  rw [operandsUsable, Bool.and_eq_true] at hu
  exact hu.2

theorem Passes.whenLegal {ok : Bool} {next : Result} (hok : ok = i.legal s.config s.din) (k : HasStatus next st) :
    HasStatus (s.whenLegal ok next) st := by
  rw [hok, h.legal]
  exact k

theorem Passes.withWide {r : RegField} {next : List WideLimb → Result} (hx : Dest.wide r ∈ sourcesOf i)
    (k : ∀ a, s.wideReg r = some a → HasStatus (next a) st) : HasStatus (s.withWide r next) st := by
  obtain ⟨a, ha⟩ := Option.isSome_iff_exists.mp (h.sources hx)
  rw [withWide_some ha]
  exact k a ha

theorem Passes.withScaled {r : RegField} {next : ScaledValue → Result} (hx : Dest.scaled r ∈ sourcesOf i)
    (k : ∀ a, s.scaledReg r = some a → HasStatus (next a) st) : HasStatus (s.withScaled r next) st := by
  obtain ⟨a, ha⟩ := Option.isSome_iff_exists.mp (h.sources hx)
  rw [withScaled_some ha]
  exact k a ha

/-- `SADDD` and `SDACC` meet a `Positive` source: it is what their restriction asks (R138). -/
theorem Passes.whenPositive {r : RegField} {a : ScaledValue} {next : Result} (ha : s.scaledReg r = some a)
    (hr : restrictionHolds i s = !s.isNegative r) (k : HasStatus next st) : HasStatus (s.whenPositive a next) st := by
  cases hsign : a.sign with
  | positive => rw [whenPositive_positive hsign]; exact k
  | negative =>
    have hneg := hr.symm.trans h.restriction
    simp [State.isNegative, ha, hsign] at hneg

theorem Passes.withDigit {next : Nat → Result}
    (hi : inputFault i s = if dinIsDigit s.din then none else some .malformedInput)
    (k : s.din.toNat - 0x30 < 10 → HasStatus (next (s.din.toNat - 0x30)) st) : HasStatus (s.withDigit next) st := by
  have hdigit : 0x30 ≤ s.din.toNat ∧ s.din.toNat ≤ 0x39 := by
    have hinput := hi.symm.trans h.input
    simpa [dinIsDigit] using hinput
  rw [withDigit_digit hdigit]
  exact k (by omega)

/-- A pattern in the domain is extracted: no result of an extraction is too large (R119). -/
theorem Passes.extract {f : FloatFormat} {rd : RegField}
    (hi : inputFault i s = if f.outOfDomain s.config.sCap s.din then some .domainError else none) :
    HasStatus (s.extract f rd) .ok := by
  have hin : ¬f.outOfDomain s.config.sCap s.din = true := by
    have hinput := hi.symm.trans h.input
    simpa using hinput
  rw [State.extract, if_neg hin]
  exact hasStatus_finish _

/-- The data operand of a legal command that takes 32 bits fits them (R48). -/
theorem Passes.din_lt (hi : i.dinFits s.din = decide (s.din.toNat < 2 ^ 32)) : s.din.toNat < 2 ^ 32 := by
  have hl := h.legal
  rw [Instr.legal, Bool.and_eq_true, hi, decide_eq_true_eq] at hl
  exact hl.2

end Checks

/-- A command that passes every check overflows exactly where its result is too large (R133). -/
theorem exec_overflowStatus {i : Instr} {s : State} (hs : s.Inv) (h : Passes i s) :
    HasStatus (exec i s) (overflowStatus (resultOverflows i s)) := by
  cases i with
  | rdcfg | rdflags | dlen => exact hasStatus_finish _
  | wzero rd | szero rd => exact h.whenLegal (Bool.and_true _).symm (hasStatus_finish _)
  | wldl r imm | wstl r imm | wlen r | wtodec r =>
    exact h.whenLegal (Bool.and_true _).symm (h.withWide (.head _) fun a _ => hasStatus_finish _)
  | dget imm =>
    have hlt : imm.toNat < s.digits.length := of_decide_eq_true h.restriction
    refine h.whenLegal (Bool.and_true _).symm ?_
    rw [List.getElem?_eq_getElem hlt]
    exact hasStatus_finish _
  | sstl r imm | sinfo r | smov rd r | sneg rd r | sabs rd r | sshrd r imm | sdivp rd r imm | sdivpr rd r rb imm
  | smodp rd r imm | stod r | stof r =>
    exact h.whenLegal (Bool.and_true _).symm (h.withScaled (.head _) fun a _ => hasStatus_finish _)
  | sldl r imm => exact h.whenLegal rfl (h.withScaled (.head _) fun a _ => hasStatus_finish _)
  | scmpm ra rb | scmp ra rb =>
    refine h.whenLegal (Bool.and_true _).symm (h.withScaled (.head _) fun a _ => ?_)
    exact h.withScaled (.tail _ (.head _)) fun b _ => hasStatus_finish _
  | sfromd rd => exact h.whenLegal (Bool.and_true _).symm (h.extract rfl)
  | sfromf rd => exact h.whenLegal rfl (h.extract rfl)
  | waddl rd =>
    refine h.whenLegal (Bool.and_true _).symm (h.withWide (.head _) fun a ha => ?_)
    simp only [resultOverflows, wideNat_of_some ha]
    exact hasStatus_finishWide (answers_addLimb (hs.wide _ _ ha) s.din)
  | wmull rd =>
    refine h.whenLegal (Bool.and_true _).symm (h.withWide (.head _) fun a ha => ?_)
    simp only [resultOverflows, wideNat_of_some ha]
    exact hasStatus_finishWide (answers_mulLimb (hs.wide _ _ ha) s.din)
  | wadd rd ra rb =>
    refine h.whenLegal (Bool.and_true _).symm (h.withWide (.head _) fun a ha => ?_)
    refine h.withWide (.tail _ (.head _)) fun b hb => ?_
    simp only [resultOverflows, wideNat_of_some ha, wideNat_of_some hb]
    exact hasStatus_finishWide (answers_addWide (hs.wide _ _ ha) (hs.wide _ _ hb))
  | wmul rd ra rb =>
    refine h.whenLegal (Bool.and_true _).symm (h.withWide (.head _) fun a ha => ?_)
    refine h.withWide (.tail _ (.head _)) fun b hb => ?_
    simp only [resultOverflows, wideNat_of_some ha, wideNat_of_some hb]
    exact hasStatus_finishWide (answers_mulWide (hs.wide _ _ ha) (hs.wide _ _ hb))
  | wdacc rd =>
    refine h.whenLegal (Bool.and_true _).symm (h.withWide (.head _) fun a ha => h.withDigit rfl fun hd => ?_)
    have ⟨_, hlen, _⟩ := hs.wide _ _ ha
    simp only [resultOverflows, wideNat_of_some ha]
    exact hasStatus_finishWide (wideDigitStep_spec a _ hlen hd)
  | sadd rd ra rb =>
    refine h.whenLegal (Bool.and_true _).symm (h.withScaled (.head _) fun a ha => ?_)
    refine h.withScaled (.tail _ (.head _)) fun b hb => ?_
    have ⟨hlen, hlast, _⟩ := hs.scaled _ _ hb
    simp only [resultOverflows, scaledInt_of_some ha, scaledInt_of_some hb]
    exact hasStatus_signedAdd (hs.scaled _ _ ha) hlen hlast
  | ssub rd ra rb =>
    refine h.whenLegal (Bool.and_true _).symm (h.withScaled (.head _) fun a ha => ?_)
    refine h.withScaled (.tail _ (.head _)) fun b hb => ?_
    have ⟨hlen, hlast, _⟩ := hs.scaled _ _ hb
    simp only [resultOverflows, scaledInt_of_some ha, scaledInt_of_some hb, Int.sub_eq_add_neg, ← toInt_flip b]
    exact hasStatus_signedAdd (hs.scaled _ _ ha) hlen hlast
  | smul rd ra rb =>
    rw [exec_smul_eq]
    refine h.whenLegal (Bool.and_true _).symm (h.withScaled (.head _) fun a ha => ?_)
    refine h.withScaled (.tail _ (.head _)) fun b hb => ?_
    simp only [resultOverflows, scaledMag_of_some ha, scaledMag_of_some hb]
    exact hasStatus_mulMag (hs.scaled _ _ hb)
  | smuls rd ra rb =>
    rw [exec_smuls_eq]
    refine h.whenLegal (Bool.and_true _).symm (h.withScaled (.head _) fun a ha => ?_)
    refine h.withScaled (.tail _ (.head _)) fun b hb => ?_
    simp only [resultOverflows, scaledMag_of_some ha, scaledMag_of_some hb]
    exact hasStatus_mulMag (hs.scaled _ _ hb)
  | sshld rd imm =>
    refine h.whenLegal (Bool.and_true _).symm (h.withScaled (.head _) fun a ha => ?_)
    have ⟨hlen, hlast, _⟩ := hs.scaled _ _ ha
    simp only [resultOverflows, scaledMag_of_some ha]
    exact hasStatus_finishScaled (shiftLeftDigits_spec hlen hlast)
  | smuld rd ra =>
    refine h.whenLegal rfl (h.withScaled (.head _) fun a ha => ?_)
    have ⟨hlen, _, _⟩ := hs.scaled _ _ ha
    simp only [resultOverflows, scaledMag_of_some ha]
    exact hasStatus_finishScaled (mulDigit_spec hlen (h.din_lt rfl))
  | saddd rd ra =>
    refine h.whenLegal rfl (h.withScaled (.head _) fun a ha => h.whenPositive ha rfl ?_)
    have ⟨hlen, _, _⟩ := hs.scaled _ _ ha
    simp only [resultOverflows, scaledMag_of_some ha]
    exact hasStatus_finishScaled (addDigit_spec hlen (h.din_lt rfl))
  | smulp rd ra imm =>
    refine h.whenLegal (Bool.and_true _).symm (h.withScaled (.head _) fun a ha => ?_)
    simp only [resultOverflows, scaledMag_of_some ha]
    exact hasStatus_finishScaled (mulPow2_spec s.config.sCap imm.toNat a.limbs)
  | sdacc rd =>
    refine h.whenLegal (Bool.and_true _).symm (h.withScaled (.head _) fun a ha => h.whenPositive ha rfl ?_)
    refine h.withDigit rfl fun hd => ?_
    have ⟨hlen, _, _⟩ := hs.scaled _ _ ha
    simp only [resultOverflows, scaledMag_of_some ha]
    exact hasStatus_finishScaled (scaledDigitStep_spec hlen hd)

/-- A command ends with the status of the first check that fails, unless it passes every one (R139). -/
theorem statusOf_or_passes {i : Instr} {s : State} {r : Result} (h : Ends i s r) :
    HasStatus r (statusOf i s) ∨ Passes i s := by
  cases h with
  | illegal hl => exact .inl ⟨_, 0, rfl, by simp [statusOf, hl]⟩
  | unusable hl hu => exact .inl ⟨_, 0, rfl, by simp [statusOf, hl, hu]⟩
  | malformed hl hu hf | outOfDomain hl hu hf => exact .inl ⟨_, 0, rfl, by simp [statusOf, hl, hu, hf]⟩
  | overflow hl hu hf | done _ _ hl hu hf => exact .inr ⟨hl, hu, hf⟩

theorem Passes.statusOf_eq {i : Instr} {s : State} (h : Passes i s) :
    statusOf i s = overflowStatus (resultOverflows i s) := by
  rw [statusOf, if_pos h.legal, if_pos h.usable, h.input]
  rfl

/-- Settles O20: a check that fails gives its status (`statusOf_or_passes`), and a command that passes them all the
status of its result (`exec_overflowStatus`). -/
theorem statusOfEveryCommand : Obligations.StatusOfEveryCommand := by
  intro i s hs
  rcases statusOf_or_passes (exec_ends i s) with hstatus | hpasses
  · exact hstatus
  · rw [hpasses.statusOf_eq]
    exact exec_overflowStatus hs hpasses

end Sys2Proof.Machine
end
